-- ==== Sys2Proof/Word.lean ====
section
/-! DEFINITION. The widths the spec fixes (00_scope.md R8): a register is 32 bits, a sample or a byte of memory 8 bits, a
geometry field or a walk position 16 bits. -/

namespace Sys2Proof

/-- A register-port data word, a register, a packed pixel (R8). -/
abbrev Word := BitVec 32

/-- A byte of a memory, a Y, U or V sample, a colour channel (R8). -/
abbrev Byte := BitVec 8

/-- A geometry field or a walk position (R8, R39). -/
abbrev Half := BitVec 16

end Sys2Proof
end

