-- ==== Sys2Proof/Syntax.lean ====
section
/-! DEFINITION. The transactions of the three ports (30_encoding.md R90) and the instructions: one constructor for each row of
opcode_table.json. -/

namespace Sys2Proof

/-- The five commands a CMD word can carry (R94). -/
inductive Command where
  | cvt
  | wrpix
  | fill
  | decode
  | start
deriving DecidableEq, Repr

/-- The instructions. An operand that an encoding ignores (DATA of IN_EOS and IN_ERR, COUNT of SINK_FAIL and SINK_CLOSED) is no
field. A register-port request that is not legal (R91) is a `regrd` or `regwr` with that SIZE and ADDR: it has a response
(R100). -/
inductive Instr where
  /-- REGRD (R120): SIZE and ADDR of the request. -/
  | regrd (size : BitVec 2) (addr : BitVec 8)
  /-- REGWR (R121): SIZE and ADDR of the request, and its data word. -/
  | regwr (size : BitVec 2) (addr : BitVec 8) (data : Word)
  /-- CVT (R147). -/
  | cvt
  /-- WRPIX (R164). -/
  | wrpix
  /-- FILL (R165). -/
  | fill
  /-- DECODE (R188). -/
  | decode
  /-- START (R201). -/
  | start
  /-- IN_BYTE (R203): the byte. -/
  | inByte (data : Byte)
  /-- IN_EOS (R204). -/
  | inEos
  /-- IN_ERR (R205). -/
  | inErr
  /-- SINK_ACC (R207): COUNT. -/
  | sinkAcc (count : Word)
  /-- SINK_FAIL (R208). -/
  | sinkFail
  /-- SINK_CLOSED (R209). -/
  | sinkClosed
deriving DecidableEq, Repr

/-- A command as an instruction. -/
def Command.toInstr : Command → Instr
  | .cvt => .cvt
  | .wrpix => .wrpix
  | .fill => .fill
  | .decode => .decode
  | .start => .start

/-- The three ports that transactions arrive on (R90). -/
inductive Port where
  | register
  | input
  | tee
deriving DecidableEq, Repr

/-- One transaction as the bits on its port (R90, R102): a register-port request with its data word (ignored on a read), an
input transfer, a sink response. -/
inductive Transfer where
  | bus (req : BitVec 11) (data : Word)
  | input (word : BitVec 10)
  | sink (word : BitVec 34)
deriving DecidableEq, Repr

/-- The port a transaction arrives on (R90). -/
def Transfer.port : Transfer → Port
  | .bus _ _ => .register
  | .input _ => .input
  | .sink _ => .tee

/-- The port each row's transactions arrive on (R90). -/
def Instr.port : Instr → Port
  | .regrd _ _ => .register
  | .regwr _ _ _ => .register
  | .cvt => .register
  | .wrpix => .register
  | .fill => .register
  | .decode => .register
  | .start => .register
  | .inByte _ => .input
  | .inEos => .input
  | .inErr => .input
  | .sinkAcc _ => .tee
  | .sinkFail => .tee
  | .sinkClosed => .tee

end Sys2Proof
end

