-- ==== Sys2Proof/WellFormed.lean ====
section
/-! DEFINITION. Which instructions are the reading of an encoding of their own row. -/

namespace Sys2Proof

/-- Bits 3:0 of a CMD word name a command and bits 31:4 are 0 (R93, R94): the word is one of 1 to 5. -/
def isCommandWord (w : Word) : Bool :=
  w == 1 || w == 2 || w == 3 || w == 4 || w == 5

/-- A register-port request is legal only when SIZE = 2 and ADDR[1:0] = 0 (R91). -/
def legalRequest (size : BitVec 2) (addr : BitVec 8) : Bool :=
  size == 2 && addr.extractLsb' 0 2 == 0

/-- A word-sized REGWR to CMD whose data is a command's word is that command's own row (R93), so it is written as the command.
Every other instruction is canonical. -/
def Instr.canonical : Instr → Bool
  | .regrd _ _ => true
  | .regwr size addr data => !(size == 2 && addr == 0x30 && isCommandWord data)
  | .cvt => true
  | .wrpix => true
  | .fill => true
  | .decode => true
  | .start => true
  | .inByte _ => true
  | .inEos => true
  | .inErr => true
  | .sinkAcc _ => true
  | .sinkFail => true
  | .sinkClosed => true

/-- Well formed: canonical, and a REGRD or REGWR is a legal request, as the patterns of their rows have it (R91). -/
def Instr.wellFormed : Instr → Bool
  | .regrd size addr => legalRequest size addr
  | .regwr size addr data => legalRequest size addr && (Instr.regwr size addr data).canonical
  | .cvt => true
  | .wrpix => true
  | .fill => true
  | .decode => true
  | .start => true
  | .inByte _ => true
  | .inEos => true
  | .inErr => true
  | .sinkAcc _ => true
  | .sinkFail => true
  | .sinkClosed => true

end Sys2Proof
end

