-- ==== Sys2Proof/Decode.lean ====
section
/-! DEFINITION. The decoder, total on every transaction of every port, and the encoder (30_encoding.md). -/

namespace Sys2Proof

/-- Why a CMD word is no command (R99). -/
inductive CmdReject where
  /-- OP = 0 or 6..15 (R94): the command error ILLEGAL_OP. -/
  | illegalOp
  /-- A legal OP with RSV != 0 (R93): the command error RESERVED_BITS. -/
  | reservedBits
deriving DecidableEq, Repr

/-- Why a transaction is no instruction. -/
inductive DecodeReject where
  /-- A sink response with ST = 3, reserved (R98, R99). -/
  | sinkReserved
deriving DecidableEq, Repr

/-- The opcode assignment (R94). -/
def commandOf (op : BitVec 4) : Option Command :=
  match op.toNat with
  | 1 => some .cvt
  | 2 => some .wrpix
  | 3 => some .fill
  | 4 => some .decode
  | 5 => some .start
  | _ => none

/-- A CMD word: OP in bits 3:0, RSV in bits 31:4 (R93). ILLEGAL_OP comes before RESERVED_BITS (R235). -/
def decodeCmd (w : Word) : Except CmdReject Command :=
  match commandOf (w.extractLsb' 0 4) with
  | none => .error .illegalOp
  | some c => if w.extractLsb' 4 28 = 0 then .ok c else .error .reservedBits

/-- A register-port request with its data word (R91): WE in bit 10, SIZE in bits 9:8, ADDR in bits 7:0. A word-sized write to CMD
(offset 0x30) that carries a command is the command (R93). -/
def decodeBus (req : BitVec 11) (data : Word) : Instr :=
  if req.getLsbD 10 then
    if req.extractLsb' 8 2 = 2 ∧ req.extractLsb' 0 8 = 0x30 then
      match decodeCmd data with
      | .ok c => c.toInstr
      | .error _ => .regwr (req.extractLsb' 8 2) (req.extractLsb' 0 8) data
    else .regwr (req.extractLsb' 8 2) (req.extractLsb' 0 8) data
  else .regrd (req.extractLsb' 8 2) (req.extractLsb' 0 8)

/-- An input transfer (R97): ERR takes precedence over EOS, and EOS over DATA. -/
def decodeInput (w : BitVec 10) : Instr :=
  if w.getLsbD 9 then .inErr
  else if w.getLsbD 8 then .inEos
  else .inByte (w.extractLsb' 0 8)

/-- A sink response (R98): ST in bits 33:32, COUNT in bits 31:0. -/
def decodeSink (w : BitVec 34) : Except DecodeReject Instr :=
  match (w.extractLsb' 32 2).toNat with
  | 0 => .ok (.sinkAcc (w.extractLsb' 0 32))
  | 1 => .ok .sinkFail
  | 2 => .ok .sinkClosed
  | _ => .error .sinkReserved

/-- The decoder: transactions are told apart by the port they arrive on (R90). -/
def decodeTransfer : Transfer → Except DecodeReject Instr
  | .bus req data => .ok (decodeBus req data)
  | .input w => .ok (decodeInput w)
  | .sink w => decodeSink w

/-- The register-port request that writes CMD (R91: `1_10_00110000`). -/
def cmdRequest : BitVec 11 := 0x630

/-- The register-port request of WE, SIZE and ADDR (R91). -/
def busRequest (we : BitVec 1) (size : BitVec 2) (addr : BitVec 8) : BitVec 11 :=
  we ++ size ++ addr

/-- The encoder: the bits of an instruction on its port, every ignored bit 0. -/
def encode : Instr → Transfer
  | .regrd size addr => .bus (busRequest 0 size addr) 0
  | .regwr size addr data => .bus (busRequest 1 size addr) data
  | .cvt => .bus cmdRequest 1
  | .wrpix => .bus cmdRequest 2
  | .fill => .bus cmdRequest 3
  | .decode => .bus cmdRequest 4
  | .start => .bus cmdRequest 5
  | .inByte d => .input ((0 : BitVec 2) ++ d)
  | .inEos => .input 0x100
  | .inErr => .input 0x200
  | .sinkAcc count => .sink ((0 : BitVec 2) ++ count)
  | .sinkFail => .sink 0x100000000
  | .sinkClosed => .sink 0x200000000

/-- The transaction that a word of the opcode table stands for, by how many bits the table gives the row. A CMD word travels as the
data of a write to CMD (its row's "transport"). The rows of the formats BUS (11 bits) and IN (10 bits) both fill two bytes, and
only the port tells them apart (R90): a 16-bit word is read as a register request when it is a legal one (R91) or has bit 10 set,
as an input transfer otherwise (log entry 3). A REGWR's data word, which the table gives no bits, is 0. -/
def tableTransfer (nbits w : Nat) : Option Transfer :=
  match nbits with
  | 10 => if w < 2 ^ 10 then some (.input (BitVec.ofNat 10 w)) else none
  | 11 => if w < 2 ^ 11 then some (.bus (BitVec.ofNat 11 w) 0) else none
  | 16 =>
    if w < 2 ^ 11 then
      if w % 4 = 0 ∧ w / 256 % 4 = 2 ∨ 1024 ≤ w then some (.bus (BitVec.ofNat 11 w) 0)
      else some (.input (BitVec.ofNat 10 w))
    else none
  | 32 => if w < 2 ^ 32 then some (.bus cmdRequest (BitVec.ofNat 32 w)) else none
  | 34 => if w < 2 ^ 34 then some (.sink (BitVec.ofNat 34 w)) else none
  | 40 => if w < 2 ^ 34 then some (.sink (BitVec.ofNat 34 w)) else none
  | _ => none

/-- The instruction the decoder reads from an opcode-table word. -/
def decodeTableWord (nbits w : Nat) : Option Instr :=
  match tableTransfer nbits w with
  | some t =>
    match decodeTransfer t with
    | .ok i => some i
    | .error _ => none
  | none => none

end Sys2Proof
end

