-- ==== Sys2Proof/Config.lean ====
section
/-! DEFINITION. What the spec leaves to an implementation (00_scope.md R8) and the one value it leaves unspecified (entry V2 of
93_implementation_defined.md). The opaque constants have no body: nothing can evaluate them or prove their value. -/

namespace Sys2Proof

/-- SURF_ENDIAN, the byte order of a multi-byte surface write (R8, R64). -/
inductive Endian where
  | little
  | big
deriving DecidableEq, Repr, Inhabited

/-- The four implementation parameters (R8). They stand in State and no step changes them, so a statement about every state is a
statement about every implementation (log entry 1). -/
structure Params where
  /-- FB_CAP, the frame buffer's capacity in bytes. -/
  fbCap : Nat
  /-- SURF_AW, the surface port's address width in bits. -/
  surfAw : Nat
  /-- SURF_ENDIAN. -/
  endian : Endian
  /-- TEE_RETRY_LIMIT. -/
  teeRetryLimit : Word
deriving DecidableEq, Repr

/-- The legal values of R8: 460800 <= FB_CAP <= 2^32 - 1 and 21 <= SURF_AW <= 49 (the other two parameters are legal at every
value of their type). -/
abbrev Params.Legal (p : Params) : Prop :=
  460800 ≤ p.fbCap ∧ p.fbCap ≤ 2 ^ 32 - 1 ∧ 21 ≤ p.surfAw ∧ p.surfAw ≤ 49

/-- By how much this implementation's FB_CAP exceeds its least legal value (R8, decision D18: OPEN). -/
opaque Config.fbCapAbove : Fin 4294506496

/-- By how much this implementation's SURF_AW exceeds its least legal value (R8, decision D16: OPEN). -/
opaque Config.surfAwAbove : Fin 29

/-- This implementation's SURF_ENDIAN (R8, decision D14: OPEN). -/
opaque Config.surfEndian : Endian

/-- This implementation's TEE_RETRY_LIMIT (R8, decision D21: OPEN). -/
opaque Config.teeRetryLimit : Word

/-- The parameters of this implementation: each open, each within R8's legal values. -/
def Config.params : Params where
  fbCap := Config.fbCapAbove.val + 460800
  surfAw := Config.surfAwAbove.val + 21
  endian := Config.surfEndian
  teeRetryLimit := Config.teeRetryLimit

/-- The free value a read of a frame-buffer byte gives that holds no value (V2: any value), by the number of resets so far and
the byte's index. No run reads such a byte (R66; log entry 4). -/
opaque Config.fbUnspecified : Nat → Nat → Byte

end Sys2Proof
end

