-- ==== Sys2Proof/Machine/State.lean ====
section
/-! DEFINITION. The state of the S9-PRE converter (10_state.md), the reasons a step can stop, and reset (70_reset_and_hazards.md
R261). -/

namespace Sys2Proof.Machine

/-- Why the machine stops. Each is a case the spec leaves undefined and asks a model to stop on (60_exceptions.md R238), or an access
to an index it says does not exist. -/
inductive Fault where
  /-- SURFACE_OUT_OF_BOUNDS: raised by WRPIX, FILL and the frame walk for a pixel with x >= SW or y >= SH (R162, R165, R238). Safe. -/
  | surfaceOutOfBounds
  /-- SINK_PROTOCOL: raised by SINK_ACC with a COUNT above the offer and by a sink response with ST = 3 (R210, R238). Safe. -/
  | sinkProtocol
  /-- SURFACE_LOST: raised when surf_ready falls in FILLING, TEEING or DECODING or during a surface-writing command (R238). Safe. -/
  | surfaceLost
  /-- An FB index of FB_CAP or more, which R65 says does not exist: raised by IN_BYTE, the tee and the walk in states no run reaches. Safe. -/
  | fbOutOfRange
deriving DecidableEq, Repr

/-- Why a step has no meaning. -/
inductive Refusal where
  /-- An instruction without a meaning yet, by its mnemonic: raised by no arm of exec. Safe. -/
  | notModelled (mnemonic : String)
deriving DecidableEq, Repr

/-- STATUS.STATE (R38). -/
inductive Phase where
  | idle
  | filling
  | teeing
  | decoding
  | terminated
  | error
deriving DecidableEq, Repr

/-- The configuration cause codes (60_exceptions.md R231). -/
inductive CfgCause where
  | noCause
  | surfUnavail
  | badSurface
  | badLayout
  | unsupportedFormat
  | monoUnsupported
  | zeroDim
  | oddDim
  | frameExceedsSurface
  | frameExceedsBuffer
deriving DecidableEq, Repr

/-- The command error codes (60_exceptions.md R234). -/
inductive CmdErrCode where
  | noError
  | illegalOp
  | reservedBits
  | wrongState
  | badConfig
  | fbInvalid
  | regLocked
deriving DecidableEq, Repr

/-- OKAY and BUSERR, the responses of the register port (R91). -/
inductive RespCode where
  | okay
  | busErr
deriving DecidableEq, Repr

/-- The response to a register-port transaction: a read returns a data word and a code, a write a code (R91). -/
inductive BusResponse where
  | read (code : RespCode) (data : Word)
  | written (code : RespCode)
deriving DecidableEq, Repr

/-- A register-port transaction the host has yet to see performed: the request and its data word (R91). -/
structure BusRequest where
  req : BitVec 11
  data : Word
deriving DecidableEq, Repr

/-- One surface write: `SurfWrite(off, width, value)` of 00_scope.md R11. -/
structure SurfWrite where
  off : Nat
  width : Nat
  value : Word
deriving DecidableEq, Repr

/-- Who moves in a step (00_scope.md R5), one entry a step. The model's own: the spec lets the agents interleave in any order (R240),
so a statement about every list of turns is a statement about every order (log entry 2). -/
inductive Turn where
  /-- HOST: the block performs its next register-port transaction. -/
  | host
  /-- The same, with surf_ready falling to 0 during the transaction (R238, U3). -/
  | hostSurfLost
  /-- PRODUCER: the block takes the next input transfer, if the port is ready (R202). -/
  | producer
  /-- SINK: the block makes a tee attempt and takes the sink's answer (R206). -/
  | sink
  /-- BLOCK: a decode step, the surface accepting its write (R187). -/
  | walk
  /-- COLLABORATOR: drives surf_ready to this level (R33). -/
  | surfReady (level : Bool)
  /-- An external reader of the surface looks at it, having seen this many of the issued writes (R72). -/
  | readSurface (writes : Nat)
  /-- The same, by a reader that has synchronised through the host's last poll of STATUS or DECODE_COUNT (R75, R268). -/
  | readAfterPoll (writes : Nat)
  /-- The same, by the software that wrote CMD, once its command is complete (R266). -/
  | readAfterCommand (writes : Nat)
  /-- The environment asserts reset between two steps (R260). -/
  | reset
  /-- The environment asserts reset in the middle of the host's next transaction, after this many of its surface writes (R263). -/
  | resetDuring (writes : Nat)
deriving DecidableEq, Repr

/-- A memory: its bytes by address, in one canonical form (`Memory.wf`); a byte that is not listed holds no value. -/
abbrev Memory := List Host.Cell

/-- Canonical: addresses strictly rising. (What an unlisted byte reads as is "no value", which no entry can equal.) -/
def Memory.wf : Memory → Bool
  | [] => true
  | [_] => true
  | (a, _) :: (b, v) :: m => decide (a < b) && Memory.wf ((b, v) :: m)

/-- The machine's state. INVENTORY.md names the rule of each field. -/
structure State where
  /-- FB_CAP, SURF_AW, SURF_ENDIAN and TEE_RETRY_LIMIT (R8). No step changes them. -/
  params : Params
  /-- CTRL: TEE_EN in bit 0, MONO in bit 1 (R22). -/
  ctrl : Word
  /-- FRAME_GEOM: FW in bits 15:0, FH in bits 31:16 (R23). -/
  frameGeom : Word
  /-- SURF_GEOM: SW in bits 15:0, SH in bits 31:16 (R24). -/
  surfGeom : Word
  /-- SURF_STRIDE (R25). -/
  surfStride : Word
  /-- SURF_BPP: BPP in bits 7:0 (R26). -/
  surfBpp : Word
  /-- CHAN_LAYOUT (R27). -/
  chanLayout : Word
  /-- PIXFMT: FMT in bits 2:0 (R28). -/
  pixfmt : Word
  /-- ARG0 to ARG3 (R29). -/
  arg0 : Word
  arg1 : Word
  arg2 : Word
  arg3 : Word
  /-- RES_RGB (R31). -/
  resRgb : Word
  /-- RES_PIX (R32). -/
  resPix : Word
  /-- STATUS.STATE (R34, R38). -/
  phase : Phase
  /-- STATUS.TEE_ACTIVE (R34). -/
  teeActive : Bool
  /-- STATUS.FB_VALID (R34). -/
  fbValid : Bool
  /-- STATUS.TERM_CAUSE (R34): false is end-of-stream, true an input error. -/
  termCause : Bool
  /-- STATUS.CFG_ERR (R34). -/
  cfgErr : CfgCause
  /-- CMD_ERR.CODE and CMD_ERR.CAUSE (R35). -/
  cmdErrCode : CmdErrCode
  cmdErrCause : CfgCause
  /-- DECODE_COUNT (R36). -/
  decodeCount : Word
  /-- FILL_LEVEL (R37). -/
  fillLevel : Word
  /-- WALK_I and WALK_J, the next pixel of the walk (R39). -/
  walkI : Half
  walkJ : Half
  /-- TEE_OFF, how many bytes of the frame the sink has accepted (R39). -/
  teeOff : Word
  /-- TEE_RETRIES, tee attempts in a row without progress (R39). -/
  teeRetries : Word
  /-- FB, the frame buffer (R39, R65). -/
  fb : Memory
  /-- The surface space, by offset: the bytes the block has written (R60); the others hold what the surface held (V4). -/
  surf : Memory
  /-- The surface writes the block has issued, oldest first: what an external reader sees is a prefix of them (R71, R72). -/
  issued : List SurfWrite
  /-- How many writes had been issued when DECODE_COUNT last went up: the writes of the invocations it counts (R75). -/
  countedWrites : Nat
  /-- How many writes had been issued when the last host command that wrote the surface was complete: they precede the next transaction
  (R74, R266). -/
  commandedWrites : Nat
  /-- How many of the issued writes are ordered before the host's polls of STATUS and DECODE_COUNT so far, so that a reader that synchronises
  through them sees these writes (R75, R268). -/
  syncedWrites : Nat
  /-- What the external reader saw when it last looked (R72), none before it has. -/
  readerView : Option Memory
  /-- The surf_ready input's level (R33). -/
  surfReady : Bool
  /-- The register port's response to the last transaction (R91), none before the first. -/
  lastResp : Option BusResponse
  /-- The bytes the sink has accepted, oldest first (R207, R214). -/
  sinkBytes : List Byte
  /-- The host's transactions still to come, in issue order (R74). -/
  hostQ : List BusRequest
  /-- The transfers the producer still holds, in stream order (R97). -/
  inQ : List (BitVec 10)
  /-- The sink's answers to the tee attempts to come (R98). -/
  sinkQ : List (BitVec 34)
  /-- Who moves next. -/
  turns : List Turn
  /-- How many resets have happened: what a byte of FB without a value is drawn by. -/
  resets : Nat
deriving DecidableEq, Repr

/-- The machine right after reset (R261). WALK_I, WALK_J, TEE_OFF, TEE_RETRIES and surf_ready have no reset value in the spec: the model's
are 0 (log entries 5 and 7). -/
def State.reset : State where
  params := Config.params
  ctrl := 0
  frameGeom := 0x01E00280
  surfGeom := 0
  surfStride := 0
  surfBpp := 0
  chanLayout := 0
  pixfmt := 0
  arg0 := 0
  arg1 := 0
  arg2 := 0
  arg3 := 0
  resRgb := 0
  resPix := 0
  phase := .idle
  teeActive := false
  fbValid := false
  termCause := false
  cfgErr := .noCause
  cmdErrCode := .noError
  cmdErrCause := .noCause
  decodeCount := 0
  fillLevel := 0
  walkI := 0
  walkJ := 0
  teeOff := 0
  teeRetries := 0
  fb := []
  surf := []
  issued := []
  countedWrites := 0
  commandedWrites := 0
  syncedWrites := 0
  readerView := none
  surfReady := false
  lastResp := none
  sinkBytes := []
  hostQ := []
  inQ := []
  sinkQ := []
  turns := []
  resets := 0

end Sys2Proof.Machine
end

