-- ==== Sys2Proof/Machine/Ops.lean ====
section
/-! DEFINITION. The named operations over the memories, the ports' answers, the command-error primitive (60_exceptions.md R236), and the
reset event (70_reset_and_hazards.md R260 to R264). -/

namespace Sys2Proof.Machine

/-- The outcome of a step of this machine. -/
abbrev Result := Host.Outcome State Fault Refusal

/-- The byte a memory holds at an address; `none` where it holds no value. -/
def Memory.read (m : Memory) (a : Nat) : Option Byte :=
  match m with
  | [] => none
  | (b, v) :: m => if a = b then some v else Memory.read m a

/-- Store one byte, keeping the canonical form. -/
def Memory.write (m : Memory) (a : Nat) (v : Byte) : Memory :=
  match m with
  | [] => [(a, v)]
  | (b, w) :: m =>
    if a < b then (a, v) :: (b, w) :: m
    else if a = b then (a, v) :: m
    else (b, w) :: Memory.write m a v

/-- Store bytes at consecutive addresses from `a` on. -/
def Memory.writeBytes (m : Memory) (a : Nat) : List Byte → Memory
  | [] => m
  | v :: vs => Memory.writeBytes (m.write a v) (a + 1) vs

/-- The byte image of a value of `width` bytes in the order SURF_ENDIAN, the byte at the lowest offset first (20_memory.md R64). -/
def byteImage (endian : Endian) (width : Nat) (value : Word) : List Byte :=
  let lowFirst := (List.range width).map fun k => value.extractLsb' (8 * k) 8
  match endian with
  | .little => lowFirst
  | .big => lowFirst.reverse

/-- One surface write, as one unit (R63). -/
def SurfWrite.apply (endian : Endian) (m : Memory) (w : SurfWrite) : Memory :=
  m.writeBytes w.off (byteImage endian w.width w.value)

/-- Surface writes in the order they are issued (R71). -/
def applyWrites (endian : Endian) (m : Memory) : List SurfWrite → Memory
  | [] => m
  | w :: ws => applyWrites endian (w.apply endian m) ws

/-- Give each of a list of pixels its surface write, in order, up to the first fault. -/
def collectWrites (f : Nat → Nat → Except Fault SurfWrite) : List (Nat × Nat) → Except Fault (List SurfWrite)
  | [] => .ok []
  | (i, j) :: ps =>
    match f i j with
    | .error e => .error e
    | .ok w =>
      match collectWrites f ps with
      | .error e => .error e
      | .ok ws => .ok (w :: ws)

/-- The pixels of the rectangle of `w` columns and `h` rows at (x, y), in raster order (R165, R186). -/
def rasterPixels (x y w h : Nat) : List (Nat × Nat) :=
  (List.range h).flatMap fun dy => (List.range w).map fun dx => (x + dx, y + dy)

/-- `FB[k]` (00_scope.md R11). An index of FB_CAP or more does not exist (R65); a byte that holds no value reads as a free value (V2, log
entry 4). -/
def fbRead (s : State) (k : Nat) : Except Fault Byte :=
  if k < s.params.fbCap then
    match s.fb.read k with
    | some b => .ok b
    | none => .ok (Config.fbUnspecified s.resets k)
  else .error .fbOutOfRange

/-- The bytes FB[a .. a + n - 1], in order. -/
def fbReadBytes (s : State) (a : Nat) : Nat → Except Fault (List Byte)
  | 0 => .ok []
  | n + 1 =>
    match fbRead s a with
    | .error e => .error e
    | .ok b =>
      match fbReadBytes s (a + 1) n with
      | .error e => .error e
      | .ok bs => .ok (b :: bs)

/-- Answer the register-port transaction (R91). -/
def State.respond (s : State) (r : BusResponse) : State := { s with lastResp := some r }

/-- `raise CmdError(code, cause)` (R236): CMD_ERR keeps the first error since it was last cleared. -/
def State.raiseCmdError (s : State) (code : CmdErrCode) (cause : CfgCause) : State :=
  if s.cmdErrCode = .noError then { s with cmdErrCode := code, cmdErrCause := cause } else s

/-- The end of a write transaction or a command that the port accepted: OKAY (R95, R121). -/
def finish (s : State) : Result := .next (s.respond (.written .okay))

/-- A command ends with a command error and no other effect; the write response is OKAY (R95, R234, R236). -/
def commandError (code : CmdErrCode) (cause : CfgCause) (s : State) : Result :=
  finish (s.raiseCmdError code cause)

/-- The surface writes a command or a decode step issues are accepted in order (R71, R95). -/
def State.writeSurface (s : State) (ws : List SurfWrite) : State :=
  { s with surf := applyWrites s.params.endian s.surf ws, issued := s.issued ++ ws }

/-- The surface as a reader sees it that has seen the first `k` issued writes, each whole, and no later one (R63, R72). -/
def State.prefixView (s : State) (k : Nat) : Memory := applyWrites s.params.endian [] (s.issued.take k)

/-- An external reader looks at the surface: it has seen `n` of the issued writes, the environment's choice (R72, log entry 18). -/
def State.readSurface (s : State) (n : Nat) : State := { s with readerView := some (s.prefixView n) }

/-- A reader that has synchronised through the host's last poll has seen at least the writes the polls order before the look (R75, R268; log
entry 19). -/
def State.readAfterPoll (s : State) (n : Nat) : State := s.readSurface (max n s.syncedWrites)

/-- The software that wrote CMD needs no wait before it reads the surface: it has seen at least the writes of its complete commands (R266; log
entry 19). -/
def State.readAfterCommand (s : State) (n : Nat) : State := s.readSurface (max n s.commandedWrites)

/-- A host transaction is ordered after the first `n` issued writes, for a reader that synchronises through it (R75; log entry 19). -/
def State.syncReader (s : State) (n : Nat) : State := { s with syncedWrites := max s.syncedWrites n }

/-- A command is complete and its writes `ws`, if it has any, precede the next transaction (R74, R95, R266). -/
def State.completeCommand (s : State) (ws : List SurfWrite) : State :=
  { s with commandedWrites := if ws = [] then s.commandedWrites else s.issued.length }

/-- A surface-writing command (WRPIX, FILL, DECODE): the error its checks report, if any (R235); else its writes, where a fault admits no
partial result (R165); then what else it does. -/
def surfaceCommand (err : Option (CmdErrCode × CfgCause)) (ws : Except Fault (List SurfWrite)) (done : State → State)
    (s : State) : Result :=
  match err with
  | some (code, cause) => commandError code cause s
  | none =>
    match ws with
    | .error f => .fault f
    | .ok ws => finish (done ((s.writeSurface ws).completeCommand ws))

/-- `enter_decoding` (44_streaming_loop.md R206), also taken when a frame is complete and teeing is off (R203). -/
def State.enterDecoding (s : State) : State := { s with walkI := 0, walkJ := 0, phase := .decoding }

/-- DECODE_COUNT goes up by 1, modulo 2^32 (R36); it now counts every write issued so far (R75). -/
def State.countDecode (s : State) : State :=
  { s with decodeCount := s.decodeCount + 1, countedWrites := s.issued.length }

/-- The reset event (R260): every register and the hidden state as R261 gives them, the surface and the writes issued to it not touched
(R264), the surf_ready level and what is outside the block as it was: bytes a sink accepted stay with the sink, input transfers the block has not taken stay
offered (R263). -/
def State.resetEvent (s : State) : State :=
  { State.reset with
    params := s.params
    surf := s.surf
    issued := s.issued
    commandedWrites := s.commandedWrites
    syncedWrites := s.syncedWrites
    readerView := s.readerView
    surfReady := s.surfReady
    sinkBytes := s.sinkBytes
    hostQ := s.hostQ
    inQ := s.inQ
    sinkQ := s.sinkQ
    turns := s.turns
    resets := s.resets + 1 }

/-- The surf_ready level goes to 0: a fall in FILLING, TEEING or DECODING is SURFACE_LOST (R238, U3). -/
def lowerSurfReady (s : State) : Result :=
  if s.surfReady = true ∧ (s.phase = .filling ∨ s.phase = .teeing ∨ s.phase = .decoding) then .fault .surfaceLost
  else .next { s with surfReady := false }

end Sys2Proof.Machine
end

