-- ==== Sys2Proof/Machine/Operands.lean ====
section
/-! DEFINITION. The fields of the configuration registers (10_state.md R22 to R28), the derived quantities (R42), the operands of the commands
(30_encoding.md R96), and the registers of the register port (R92). Every field is an unsigned number. -/

namespace Sys2Proof.Machine

/-- The field `v[lo + n - 1 : lo]` as an unsigned number (00_scope.md R10). -/
def bitField (v : Word) (lo n : Nat) : Nat := (v.extractLsb' lo n).toNat

/-- CTRL.TEE_EN (R22). -/
def State.teeEn (s : State) : Bool := s.ctrl.getLsbD 0
/-- CTRL.MONO (R22). -/
def State.mono (s : State) : Bool := s.ctrl.getLsbD 1
/-- FRAME_GEOM.FW (R23). -/
def State.fw (s : State) : Nat := bitField s.frameGeom 0 16
/-- FRAME_GEOM.FH (R23). -/
def State.fh (s : State) : Nat := bitField s.frameGeom 16 16
/-- SURF_GEOM.SW (R24). -/
def State.sw (s : State) : Nat := bitField s.surfGeom 0 16
/-- SURF_GEOM.SH (R24). -/
def State.sh (s : State) : Nat := bitField s.surfGeom 16 16
/-- SURF_STRIDE.STRIDE (R25). -/
def State.stride (s : State) : Nat := s.surfStride.toNat
/-- SURF_BPP.BPP (R26). -/
def State.bpp (s : State) : Nat := bitField s.surfBpp 0 8
/-- PIXFMT.FMT (R28). -/
def State.fmt (s : State) : Nat := bitField s.pixfmt 0 3

/-- BPB, the bytes per pixel (R42). -/
def State.bpb (s : State) : Nat := s.bpp / 8
/-- FRAME_BYTES, the size of one YUV420P frame (R42, R183). -/
def State.frameBytes (s : State) : Nat := 3 * s.fw * s.fh / 2
/-- SURF_BYTES, the size of the surface space (R42, R60). -/
def State.surfBytes (s : State) : Nat := s.stride * s.sh

/-- A channel's width in CHAN_LAYOUT (R27): RBITS at bit 0, GBITS at bit 8, BBITS at bit 16. -/
def layoutBits (layout : Word) (channel : Nat) : Nat := bitField layout (8 * channel) 4
/-- A channel's position in CHAN_LAYOUT (R27): ROFF at bit 4, GOFF at bit 12, BOFF at bit 20. -/
def layoutOff (layout : Word) (channel : Nat) : Nat := bitField layout (8 * channel + 4) 4

/-- CVT's Y = ARG0[7:0] (R96). -/
def State.argY (s : State) : Byte := s.arg0.extractLsb' 0 8
/-- CVT's U = ARG0[15:8] (R96). -/
def State.argU (s : State) : Byte := s.arg0.extractLsb' 8 8
/-- CVT's V = ARG0[23:16] (R96). -/
def State.argV (s : State) : Byte := s.arg0.extractLsb' 16 8
/-- x = ARG1[15:0] of WRPIX and FILL (R96). -/
def State.argX (s : State) : Nat := bitField s.arg1 0 16
/-- y = ARG1[31:16] of WRPIX and FILL (R96). -/
def State.argYPos (s : State) : Nat := bitField s.arg1 16 16
/-- w = ARG3[15:0] of FILL (R96). -/
def State.argW (s : State) : Nat := bitField s.arg3 0 16
/-- h = ARG3[31:16] of FILL (R96). -/
def State.argH (s : State) : Nat := bitField s.arg3 16 16
/-- COLOR of WRPIX and FILL: ARG2[31:0] if BPB = 4, ARG2[15:0] if BPB = 2 (R96). -/
def State.argColor (s : State) : Word :=
  if s.bpb = 2 then (s.arg2.extractLsb' 0 16).setWidth 32 else s.arg2

/-- The registers of the register port (R21, R92). -/
inductive Reg where
  | ctrl
  | frameGeom
  | surfGeom
  | surfStride
  | surfBpp
  | chanLayout
  | pixfmt
  | arg0
  | arg1
  | arg2
  | arg3
  | cmd
  | resRgb
  | resPix
  | status
  | cmdErr
  | decodeCount
  | fillLevel
deriving DecidableEq, Repr

/-- The register that ADDR[7:2] selects (R92); 7 and 19..63 are reserved. -/
def regOfIndex (idx : BitVec 6) : Option Reg :=
  match idx.toNat with
  | 0 => some .ctrl
  | 1 => some .frameGeom
  | 2 => some .surfGeom
  | 3 => some .surfStride
  | 4 => some .surfBpp
  | 5 => some .chanLayout
  | 6 => some .pixfmt
  | 8 => some .arg0
  | 9 => some .arg1
  | 10 => some .arg2
  | 11 => some .arg3
  | 12 => some .cmd
  | 13 => some .resRgb
  | 14 => some .resPix
  | 15 => some .status
  | 16 => some .cmdErr
  | 17 => some .decodeCount
  | 18 => some .fillLevel
  | _ => none

/-- The register a request reaches, none where it gets BUSERR: SIZE != 2, ADDR[1:0] != 0, or a reserved offset (R100, R237). -/
def selectReg (size : BitVec 2) (addr : BitVec 8) : Option Reg :=
  if size = 2 ∧ addr.extractLsb' 0 2 = 0 then regOfIndex (addr.extractLsb' 2 6) else none

/-- The configuration registers, locked outside IDLE (R122). -/
def Reg.isConfig : Reg → Bool
  | .ctrl | .frameGeom | .surfGeom | .surfStride | .surfBpp | .chanLayout | .pixfmt => true
  | .arg0 | .arg1 | .arg2 | .arg3 | .cmd | .resRgb | .resPix | .status | .cmdErr | .decodeCount | .fillLevel => false

/-- The write masks WMASK (R123); a register that a write does not store to has mask 0. -/
def Reg.wmask : Reg → Word
  | .ctrl => 0x00000003
  | .frameGeom => 0xFFFFFFFF
  | .surfGeom => 0xFFFFFFFF
  | .surfStride => 0xFFFFFFFF
  | .surfBpp => 0x000000FF
  | .chanLayout => 0x00FFFFFF
  | .pixfmt => 0x00000007
  | .arg0 | .arg1 | .arg2 | .arg3 => 0xFFFFFFFF
  | .cmd | .resRgb | .resPix | .status | .cmdErr | .decodeCount | .fillLevel => 0

end Sys2Proof.Machine
end

