-- ==== Sys2Proof/Machine/Flags.lean ====
section
/-! DEFINITION. The status words (10_state.md R34, R35), the outputs (R33), and the checks with their causes: layoutOK, packCause (41_color_converter.md
R145, R146), surfCause (42_surface_addresser.md R163), cfgCause (43_frame_decoder.md R184), and each command's checks in the order of
60_exceptions.md R235. -/

namespace Sys2Proof.Machine

/-- STATUS.STATE's values (R38). -/
def Phase.code : Phase → BitVec 3
  | .idle => 0
  | .filling => 1
  | .teeing => 2
  | .decoding => 3
  | .terminated => 4
  | .error => 5

/-- The cause codes (R231). -/
def CfgCause.code : CfgCause → BitVec 4
  | .noCause => 0
  | .surfUnavail => 1
  | .badSurface => 2
  | .badLayout => 3
  | .unsupportedFormat => 4
  | .monoUnsupported => 5
  | .zeroDim => 6
  | .oddDim => 7
  | .frameExceedsSurface => 8
  | .frameExceedsBuffer => 9

/-- The command error codes (R234). -/
def CmdErrCode.code : CmdErrCode → BitVec 4
  | .noError => 0
  | .illegalOp => 1
  | .reservedBits => 2
  | .wrongState => 3
  | .badConfig => 4
  | .fbInvalid => 5
  | .regLocked => 6

/-- STATUS.DONE and the done output: STATE is TERMINATED or ERROR (R33, R34). -/
def State.done (s : State) : Bool := s.phase == .terminated || s.phase == .error

/-- STATUS.EXIT_OK and the exit_ok output: STATE is TERMINATED (R33, R34). -/
def State.exitOk (s : State) : Bool := s.phase == .terminated

/-- `status_word()` (R120): CFG_ERR, EXIT_OK, DONE, TERM_CAUSE, FB_VALID, TEE_ACTIVE and STATE, zero-extended. -/
def State.statusWord (s : State) : Word :=
  (0 : BitVec 20) ++ s.cfgErr.code ++ BitVec.ofBool s.exitOk ++ BitVec.ofBool s.done ++ BitVec.ofBool s.termCause ++
    BitVec.ofBool s.fbValid ++ BitVec.ofBool s.teeActive ++ s.phase.code

/-- CMD_ERR: CAUSE in bits 11:8, CODE in bits 3:0 (R35). -/
def State.cmdErrWord (s : State) : Word :=
  (0 : BitVec 20) ++ s.cmdErrCause.code ++ (0 : BitVec 4) ++ s.cmdErrCode.code

/-- The input port is ready exactly while STATE = FILLING (R202). -/
def State.inReady (s : State) : Bool := s.phase == .filling

/-- A channel's mask in the packed 16-bit pixel (R145). -/
def layoutMask (layout : Word) (c : Nat) : Nat := (2 ^ layoutBits layout c - 1) * 2 ^ layoutOff layout c

/-- One channel's part of layoutOK: 1 <= cBITS <= 8 and cOFF + cBITS <= 16 (R145). -/
def channelOK (layout : Word) (c : Nat) : Bool :=
  1 ≤ layoutBits layout c && layoutBits layout c ≤ 8 && layoutOff layout c + layoutBits layout c ≤ 16

/-- `layoutOK(L)` (R145): each channel fits, and the three masks are pairwise disjoint. -/
def layoutOK (layout : Word) : Bool :=
  channelOK layout 0 && channelOK layout 1 && channelOK layout 2 &&
    (layoutMask layout 0 &&& layoutMask layout 1) == 0 &&
    (layoutMask layout 0 &&& layoutMask layout 2) == 0 &&
    (layoutMask layout 1 &&& layoutMask layout 2) == 0

/-- `packCause()` (R146). -/
def State.packCause (s : State) : CfgCause :=
  if s.bpp ≠ 16 ∧ s.bpp ≠ 32 then .badSurface
  else if s.bpp = 16 ∧ layoutOK s.chanLayout = false then .badLayout
  else .noCause

/-- `surfCause()` (R163). -/
def State.surfCause (s : State) : CfgCause :=
  if s.surfReady = false then .surfUnavail
  else if s.bpp ≠ 16 ∧ s.bpp ≠ 32 then .badSurface
  else if s.sw = 0 ∨ s.sh = 0 then .badSurface
  else if s.stride < s.sw * s.bpb then .badSurface
  else if s.stride % s.bpb ≠ 0 then .badSurface
  else if 2 ^ s.params.surfAw < s.stride * s.sh then .badSurface
  else .noCause

/-- The checks of `cfgCause()` after the surface's (R184), in its order. -/
def State.frameCause (s : State) : CfgCause :=
  if s.bpp = 16 ∧ layoutOK s.chanLayout = false then .badLayout
  else if s.fmt ≠ 0 then .unsupportedFormat
  else if s.mono = true then .monoUnsupported
  else if s.fw = 0 ∨ s.fh = 0 then .zeroDim
  else if s.fw % 2 = 1 ∨ s.fh % 2 = 1 then .oddDim
  else if s.sw < s.fw ∨ s.sh < s.fh then .frameExceedsSurface
  else if s.params.fbCap < s.frameBytes then .frameExceedsBuffer
  else .noCause

/-- `cfgCause()` (R184): the first failing cause. -/
def State.cfgCause (s : State) : CfgCause :=
  if s.surfCause = .noCause then s.frameCause else s.surfCause

/-- WRPIX's and FILL's checks after the CMD word's (R164, R235): WRONG_STATE, then BAD_CONFIG. -/
def State.pixelCommandError (s : State) : Option (CmdErrCode × CfgCause) :=
  if s.phase ≠ .idle ∧ s.phase ≠ .terminated then some (.wrongState, .noCause)
  else if s.surfCause ≠ .noCause then some (.badConfig, s.surfCause)
  else none

/-- DECODE's checks after the CMD word's (R188, R235): WRONG_STATE, BAD_CONFIG, FB_INVALID. -/
def State.decodeCommandError (s : State) : Option (CmdErrCode × CfgCause) :=
  if s.phase ≠ .idle ∧ s.phase ≠ .terminated then some (.wrongState, .noCause)
  else if s.cfgCause ≠ .noCause then some (.badConfig, s.cfgCause)
  else if s.fbValid = false then some (.fbInvalid, .noCause)
  else none

end Sys2Proof.Machine
end

