-- ==== Sys2Proof/Machine/ColorConverter.lean ====
section
/-! DEFINITION. The color converter (41_color_converter.md): the conversion, the packing, and the command CVT. -/

namespace Sys2Proof.Machine

/-- The three channels the conversion returns (R140). -/
structure Rgb where
  r : Byte
  g : Byte
  b : Byte
deriving DecidableEq, Repr

/-- `clamp0_255` (R10, R142): saturation, never a wrap. -/
def clamp0_255 (v : Int) : Byte :=
  if v < 0 then 0 else if 255 < v then 255 else BitVec.ofNat 8 v.toNat

/-- R's sum before the shift (R141): its chroma term is 516*D, from U. -/
def sumR (y u : Byte) : Int := 298 * ((y.toNat : Int) - 16) + 516 * ((u.toNat : Int) - 128) + 128

/-- G's sum before the shift (R141). -/
def sumG (y u v : Byte) : Int :=
  298 * ((y.toNat : Int) - 16) - 100 * ((u.toNat : Int) - 128) - 208 * ((v.toNat : Int) - 128) + 128

/-- B's sum before the shift (R141): its chroma term is 409*E, from V. -/
def sumB (y v : Byte) : Int := 298 * ((y.toNat : Int) - 16) + 409 * ((v.toNat : Int) - 128) + 128

/-- `convert(Y, U, V)` (R141), exactly: each sum shifted right by 8, `floor(v / 256)` (R10), and clamped. -/
def convert (y u v : Byte) : Rgb where
  r := clamp0_255 (sumR y u / 256)
  g := clamp0_255 (sumG y u v / 256)
  b := clamp0_255 (sumB y v / 256)

/-- `pack32` (R144): `{8'h00, R, G, B}`. -/
def pack32 (c : Rgb) : Word := (0 : BitVec 8) ++ c.r ++ c.g ++ c.b

/-- One channel narrowed to its most significant bits and put at its place (R145). -/
def packChannel (layout : Word) (channel : Nat) (v : Byte) : Nat :=
  v.toNat / 2 ^ (8 - layoutBits layout channel) * 2 ^ layoutOff layout channel

/-- `pack16` (R145): the three channels, bits 15:0. -/
def pack16 (layout : Word) (c : Rgb) : BitVec 16 :=
  BitVec.ofNat 16 (packChannel layout 0 c.r ||| packChannel layout 1 c.g ||| packChannel layout 2 c.b)

/-- `pack` (R146), zero-extended to 32 bits: pack32 when BPP = 32, pack16 by CHAN_LAYOUT when BPP = 16. It is used only where packCause() = 0. -/
def State.pack (s : State) (c : Rgb) : Word :=
  if s.bpp = 32 then pack32 c else (pack16 s.chanLayout c).setWidth 32

/-- The channels of CVT's operands (R147). -/
def State.cvtRgb (s : State) : Rgb := convert s.argY s.argU s.argV

/-- CVT (R147): legal in every STATE; BAD_CONFIG with packCause(), else RES_RGB and RES_PIX. -/
def execCvt (s : State) : Result :=
  if s.packCause ≠ .noCause then commandError .badConfig s.packCause s
  else finish { s with resRgb := pack32 s.cvtRgb, resPix := s.pack s.cvtRgb }

end Sys2Proof.Machine
end

