-- ==== Sys2Proof/Machine/SurfaceAddresser.lean ====
section
/-! DEFINITION. The surface addresser (42_surface_addresser.md): offsets, the pixel write, and the commands WRPIX and FILL. -/

namespace Sys2Proof.Machine

/-- `offset(x, y) = y * STRIDE + x * BPB`, exact (R160). -/
def State.pixelOffset (s : State) (x y : Nat) : Nat := y * s.stride + x * s.bpb

/-- `pixelWrite(x, y, color)` (R161): the surface write of a pixel. Out of bounds the spec gives no effect and asks for a fault (R162). -/
def pixelWrite (s : State) (x y : Nat) (color : Word) : Except Fault SurfWrite :=
  if s.sw ≤ x ∨ s.sh ≤ y then .error .surfaceOutOfBounds
  else .ok ⟨s.pixelOffset x y, s.bpb, color⟩

/-- WRPIX's one write (R164). -/
def wrpixWrites (s : State) : Except Fault (List SurfWrite) :=
  collectWrites (fun x y => pixelWrite s x y s.argColor) [(s.argX, s.argYPos)]

/-- WRPIX (R164). -/
def execWrpix (s : State) : Result :=
  surfaceCommand s.pixelCommandError (wrpixWrites s) (fun t => t) s

/-- FILL's writes in raster order (R165). A rectangle that is not empty and leaves the surface, x + w and y + h taken exactly, faults as a
whole. -/
def fillWrites (s : State) : Except Fault (List SurfWrite) :=
  if 0 < s.argW ∧ 0 < s.argH ∧ (s.sw < s.argX + s.argW ∨ s.sh < s.argYPos + s.argH) then .error .surfaceOutOfBounds
  else collectWrites (fun x y => pixelWrite s x y s.argColor) (rasterPixels s.argX s.argYPos s.argW s.argH)

/-- FILL (R165). -/
def execFill (s : State) : Result :=
  surfaceCommand s.pixelCommandError (fillWrites s) (fun t => t) s

end Sys2Proof.Machine
end

