-- ==== Sys2Proof/Machine/FrameDecoder.lean ====
section
/-! DEFINITION. The frame decoder (43_frame_decoder.md): the plane indices, the pixel of the walk, the internal DECODE_STEP, and the command
DECODE. -/

namespace Sys2Proof.Machine

/-- The index of pixel (i, j)'s luma sample (R181). -/
def State.lumaIndex (s : State) (i j : Nat) : Nat := i + j * s.fw

/-- `cidx(i, j)`, the chroma sample of pixel (i, j) within its plane (R182). -/
def State.chromaIndex (s : State) (i j : Nat) : Nat := i / 2 + j / 2 * (s.fw / 2)

/-- Where the U plane begins (R180). -/
def State.uBase (s : State) : Nat := s.fw * s.fh

/-- Where the V plane begins (R180). -/
def State.vBase (s : State) : Nat := s.fw * s.fh + s.fw * s.fh / 4

/-- `decodePixel(i, j)` (R185): read Y, U and V, convert, pack, and the pixel's surface write. -/
def decodePixel (s : State) (i j : Nat) : Except Fault SurfWrite :=
  match fbRead s (s.lumaIndex i j) with
  | .error e => .error e
  | .ok y =>
    match fbRead s (s.uBase + s.chromaIndex i j) with
    | .error e => .error e
    | .ok u =>
      match fbRead s (s.vBase + s.chromaIndex i j) with
      | .error e => .error e
      | .ok v => pixelWrite s i j (s.pack (convert y u v))

/-- The whole walk's writes, in raster order (R186). -/
def walkWrites (s : State) : Except Fault (List SurfWrite) :=
  collectWrites (decodePixel s) (rasterPixels 0 0 s.fw s.fh)

/-- DECODE (R188). -/
def execDecode (s : State) : Result :=
  surfaceCommand s.decodeCommandError (walkWrites s) State.countDecode s

/-- What a completed streaming walk does (44_streaming_loop.md R211): FB_VALID stays. -/
def State.completeWalk (s : State) : State :=
  { s.countDecode with fillLevel := 0, phase := .filling }

/-- The walk position after a pixel (R187): the next column, or the next row's first, or the end of the walk. -/
def State.advanceWalk (s : State) : State :=
  if s.walkI + 1 = s.frameGeom.extractLsb' 0 16 then
    if s.walkJ + 1 = s.frameGeom.extractLsb' 16 16 then
      State.completeWalk { s with walkI := 0, walkJ := s.walkJ + 1 }
    else { s with walkI := 0, walkJ := s.walkJ + 1 }
  else { s with walkI := s.walkI + 1 }

/-- DECODE_STEP (R187): one pixel of the streaming walk, an internal step of the BLOCK. Outside DECODING it is not enabled. -/
def decodeStep (s : State) : Result :=
  if s.phase = .decoding then
    match decodePixel s s.walkI.toNat s.walkJ.toNat with
    | .error e => .fault e
    | .ok w => .next (s.writeSurface [w]).advanceWalk
  else .next s

end Sys2Proof.Machine
end

