-- ==== Sys2Proof/Machine/StreamingLoop.lean ====
section
/-! DEFINITION. The streaming loop (44_streaming_loop.md): START, the input transfers, and the sink's answers to the tee attempts. -/

namespace Sys2Proof.Machine

/-- START's effect when the configuration passes (R201). -/
def State.startRun (s : State) : State :=
  { s with
    fillLevel := 0
    teeActive := s.teeEn
    termCause := false
    cfgErr := .noCause
    phase := .filling }

/-- START (R201): WRONG_STATE unless IDLE; a configuration error is STATE = ERROR with CFG_ERR, no command error (R232). -/
def execStart (s : State) : Result :=
  if s.phase ≠ .idle then commandError .wrongState .noCause s
  else if s.cfgCause ≠ .noCause then finish { s with cfgErr := s.cfgCause, phase := .error }
  else finish s.startRun

/-- A byte enters FB (R203): FB[FILL_LEVEL] <- d, FB_VALID <- 0 at the first byte of a frame, FILL_LEVEL + 1. -/
def State.appendByte (s : State) (d : Byte) : State :=
  { s with
    fb := s.fb.write s.fillLevel.toNat d
    fbValid := if s.fillLevel = 0 then false else s.fbValid
    fillLevel := s.fillLevel + 1 }

/-- A frame is complete (R203): FB_VALID <- 1, then TEEING or DECODING by TEE_ACTIVE. -/
def State.completeFrame (s : State) : State :=
  if s.teeActive = true then { s with fbValid := true, teeOff := 0, teeRetries := 0, phase := .teeing }
  else State.enterDecoding { s with fbValid := true }

/-- IN_BYTE (R203). The port is ready only in FILLING; elsewhere the transfer is not taken (R202). -/
def execInByte (d : Byte) (s : State) : Result :=
  if s.phase = .filling then
    if s.fillLevel.toNat < s.params.fbCap then
      .next (if (s.fillLevel + 1).toNat = s.frameBytes then (s.appendByte d).completeFrame else s.appendByte d)
    else .fault .fbOutOfRange
  else .next s

/-- IN_EOS (R204); not taken outside FILLING (R202). -/
def execInEos (s : State) : Result :=
  if s.phase = .filling then .next { s with termCause := false, phase := .terminated } else .next s

/-- IN_ERR (R205); not taken outside FILLING (R202). -/
def execInErr (s : State) : Result :=
  if s.phase = .filling then .next { s with termCause := true, phase := .terminated } else .next s

/-- How many bytes a tee attempt offers: FRAME_BYTES - TEE_OFF (R206). -/
def State.offerLength (s : State) : Nat := s.frameBytes - s.teeOff.toNat

/-- Teeing is abandoned for the rest of the run (R208, R209). -/
def State.abandonTee (s : State) : State := State.enterDecoding { s with teeActive := false }

/-- An attempt without progress (R208): abandon teeing when the retries are used up, else count it and try again. -/
def State.teeNoProgress (s : State) : State :=
  if s.teeRetries = s.params.teeRetryLimit then s.abandonTee
  else { s with teeRetries := s.teeRetries + 1 }

/-- The sink takes bytes of the frame (R207): TEE_OFF moves on and TEE_RETRIES <- 0; the last byte enters DECODING. -/
def State.teeProgress (s : State) (count : Word) (bytes : List Byte) : State :=
  let t := { s with teeOff := s.teeOff + count, teeRetries := 0, sinkBytes := s.sinkBytes ++ bytes }
  if t.teeOff.toNat = s.frameBytes then t.enterDecoding else t

/-- SINK_ACC (R207, R208, R210), the answer to a tee attempt in TEEING; outside TEEING no attempt is made, and the response is not taken. -/
def execSinkAcc (count : Word) (s : State) : Result :=
  if s.phase = .teeing then
    if count = 0 then .next s.teeNoProgress
    else if s.offerLength < count.toNat then .fault .sinkProtocol
    else
      match fbReadBytes s s.teeOff.toNat count.toNat with
      | .error e => .fault e
      | .ok bytes => .next (s.teeProgress count bytes)
  else .next s

/-- SINK_FAIL (R208). -/
def execSinkFail (s : State) : Result :=
  if s.phase = .teeing then .next s.teeNoProgress else .next s

/-- SINK_CLOSED (R209). -/
def execSinkClosed (s : State) : Result :=
  if s.phase = .teeing then .next s.abandonTee else .next s

end Sys2Proof.Machine
end

