-- ==== Sys2Proof/Machine/RegisterAccess.lean ====
section
/-! DEFINITION. Register access (40_register_access.md): REGRD, REGWR, and the commands a write to CMD issues (30_encoding.md R93 to R95). -/

namespace Sys2Proof.Machine

/-- What a register reads as (R120): CMD reads 0, STATUS is the status word, reserved bits are 0. -/
def State.readReg (s : State) : Reg → Word
  | .ctrl => s.ctrl
  | .frameGeom => s.frameGeom
  | .surfGeom => s.surfGeom
  | .surfStride => s.surfStride
  | .surfBpp => s.surfBpp
  | .chanLayout => s.chanLayout
  | .pixfmt => s.pixfmt
  | .arg0 => s.arg0
  | .arg1 => s.arg1
  | .arg2 => s.arg2
  | .arg3 => s.arg3
  | .cmd => 0
  | .resRgb => s.resRgb
  | .resPix => s.resPix
  | .status => s.statusWord
  | .cmdErr => s.cmdErrWord
  | .decodeCount => s.decodeCount
  | .fillLevel => s.fillLevel

/-- What a write stores in a register other than CMD, the lock aside (R121, R123): `data & WMASK`; CMD_ERR is cleared whatever the data; a
read-only register keeps its value. -/
def State.storeReg (s : State) (r : Reg) (data : Word) : State :=
  match r with
  | .ctrl => { s with ctrl := data &&& r.wmask }
  | .frameGeom => { s with frameGeom := data &&& r.wmask }
  | .surfGeom => { s with surfGeom := data &&& r.wmask }
  | .surfStride => { s with surfStride := data &&& r.wmask }
  | .surfBpp => { s with surfBpp := data &&& r.wmask }
  | .chanLayout => { s with chanLayout := data &&& r.wmask }
  | .pixfmt => { s with pixfmt := data &&& r.wmask }
  | .arg0 => { s with arg0 := data }
  | .arg1 => { s with arg1 := data }
  | .arg2 => { s with arg2 := data }
  | .arg3 => { s with arg3 := data }
  | .cmdErr => { s with cmdErrCode := .noError, cmdErrCause := .noCause }
  | .cmd | .resRgb | .resPix | .status | .decodeCount | .fillLevel => s

/-- A write to a register other than CMD (R121): a configuration register is locked outside IDLE, and the write records REG_LOCKED (R122). -/
def State.writeReg (s : State) (r : Reg) (data : Word) : State :=
  if r.isConfig = true ∧ s.phase ≠ .idle then s.raiseCmdError .regLocked .noCause
  else s.storeReg r data

/-- A command, performed as one step (R95). -/
def runCommand (c : Command) (s : State) : Result :=
  match c with
  | .cvt => execCvt s
  | .wrpix => execWrpix s
  | .fill => execFill s
  | .decode => execDecode s
  | .start => execStart s

/-- `execute_command(data)` (R121): the command the word encodes, or ILLEGAL_OP or RESERVED_BITS (R235). -/
def runCommandWord (data : Word) (s : State) : Result :=
  match decodeCmd data with
  | .error .illegalOp => commandError .illegalOp .noCause s
  | .error .reservedBits => commandError .reservedBits .noCause s
  | .ok c => runCommand c s

/-- REGRD (R120): a response and no other effect; BUSERR with data 0 for a malformed request (R237). -/
def execRegrd (size : BitVec 2) (addr : BitVec 8) (s : State) : Result :=
  match selectReg size addr with
  | none => .next (s.respond (.read .busErr 0))
  | some r => .next (s.respond (.read .okay (s.readReg r)))

/-- REGWR (R121): BUSERR with no effect for a malformed request (R237); a write to CMD runs its command. -/
def execRegwr (size : BitVec 2) (addr : BitVec 8) (data : Word) (s : State) : Result :=
  match selectReg size addr with
  | none => .next (s.respond (.written .busErr))
  | some r => if r = .cmd then runCommandWord data s else finish (s.writeReg r data)

end Sys2Proof.Machine
end

