-- ==== Sys2Proof/Machine/Dispatch.lean ====
section
/-! DEFINITION. The meaning of every instruction. -/

namespace Sys2Proof.Machine

/-- One arm per instruction. -/
def exec (i : Instr) (s : State) : Host.Outcome State Fault Refusal :=
  match i with
  | .regrd size addr => Sys2Proof.Machine.execRegrd size addr s
  | .regwr size addr data => Sys2Proof.Machine.execRegwr size addr data s
  | .cvt => Sys2Proof.Machine.execCvt s
  | .wrpix => Sys2Proof.Machine.execWrpix s
  | .fill => Sys2Proof.Machine.execFill s
  | .decode => Sys2Proof.Machine.execDecode s
  | .start => Sys2Proof.Machine.execStart s
  | .inByte data => Sys2Proof.Machine.execInByte data s
  | .inEos => Sys2Proof.Machine.execInEos s
  | .inErr => Sys2Proof.Machine.execInErr s
  | .sinkAcc count => Sys2Proof.Machine.execSinkAcc count s
  | .sinkFail => Sys2Proof.Machine.execSinkFail s
  | .sinkClosed => Sys2Proof.Machine.execSinkClosed s

end Sys2Proof.Machine
end

