-- ==== Sys2Proof/Machine/Turns.lean ====
section
/-! DEFINITION. What each agent's turn does (00_scope.md R5): the transaction it hands the block, waiting where a port is not ready, the fall
of surf_ready, the external reader's look at the surface, and reset in the middle of a command. -/

namespace Sys2Proof.Machine

/-- Perform a transaction: decode it by its port and run the instruction. A sink response with ST = 3 is a protocol violation (R210). -/
def runTransfer (t : Transfer) (s : State) : Result :=
  match decodeTransfer t with
  | .ok i => exec i s
  | .error .sinkReserved => if s.phase = .teeing then .fault .sinkProtocol else .next s

/-- The surface writes that a surface-writing command issues once its checks pass; none for a command whose checks fail and for every other
instruction. -/
def commandWrites (i : Instr) (s : State) : Option (Except Fault (List SurfWrite)) :=
  match i with
  | .wrpix => if s.pixelCommandError = none then some (wrpixWrites s) else none
  | .fill => if s.pixelCommandError = none then some (fillWrites s) else none
  | .decode => if s.decodeCommandError = none then some (walkWrites s) else none
  | .regrd _ _ => none
  | .regwr _ _ _ => none
  | .cvt => none
  | .start => none
  | .inByte _ => none
  | .inEos => none
  | .inErr => none
  | .sinkAcc _ => none
  | .sinkFail => none
  | .sinkClosed => none

/-- How many issued writes a host transaction orders before a later look of a reader that synchronises through it (R75): a poll of STATUS or
DECODE_COUNT orders those of the complete commands (R74, R266), and DECODE_COUNT, like a STATUS that shows DONE, those of the decodes counted
(R268); any other transaction orders none. -/
def pollOrders (i : Instr) (s : State) : Nat :=
  match i with
  | .regrd size addr =>
    if selectReg size addr = some .decodeCount then max s.commandedWrites s.countedWrites
    else if selectReg size addr = some .status then
      if s.done = true then max s.commandedWrites s.countedWrites else s.commandedWrites
    else 0
  | .regwr _ _ _ => 0
  | .cvt => 0
  | .wrpix => 0
  | .fill => 0
  | .decode => 0
  | .start => 0
  | .inByte _ => 0
  | .inEos => 0
  | .inErr => 0
  | .sinkAcc _ => 0
  | .sinkFail => 0
  | .sinkClosed => 0

/-- The port takes the host's transaction `i`, `q` being those still to come; a poll orders what a reader that synchronises through it sees (R75). -/
def State.takeRequest (s : State) (i : Instr) (q : List BusRequest) : State :=
  State.syncReader { s with hostQ := q } (pollOrders i s)

/-- The HOST's turn: its next register-port transaction (R74). -/
def hostTurn (s : State) : Result :=
  match s.hostQ with
  | [] => .next s
  | r :: q => runTransfer (.bus r.req r.data) (s.takeRequest (decodeBus r.req r.data) q)

/-- The HOST's turn with surf_ready falling during the transaction: SURFACE_LOST in a surface-writing command that its checks let run
(R238, U3); after any other transaction the level falls as `lowerSurfReady` says. -/
def hostTurnSurfLost (s : State) : Result :=
  match s.hostQ with
  | [] => lowerSurfReady s
  | r :: q =>
    match commandWrites (decodeBus r.req r.data) { s with hostQ := q } with
    | some (.error f) => .fault f
    | some (.ok _) => .fault .surfaceLost
    | none =>
      match exec (decodeBus r.req r.data) (s.takeRequest (decodeBus r.req r.data) q) with
      | .next t => lowerSurfReady t
      | .fault f => .fault f
      | .refused r => .refused r

/-- The PRODUCER's turn: the block takes a transfer only when the port is ready; elsewhere the producer holds it (R202, R267). -/
def producerTurn (s : State) : Result :=
  if s.inReady = true then
    match s.inQ with
    | [] => .next s
    | w :: q => runTransfer (.input w) { s with inQ := q }
  else .next s

/-- The SINK's turn: TEE_STEP, the offer and the sink's answer, enabled while STATE = TEEING (R206). -/
def sinkTurn (s : State) : Result :=
  if s.phase = .teeing then
    match s.sinkQ with
    | [] => .next s
    | w :: q => runTransfer (.sink w) { s with sinkQ := q }
  else .next s

/-- Reset in the middle of the host's next transaction (R263): the first `n` of a surface-writing command's writes stay in the surface, each
whole; the rest are never issued. -/
def resetDuringTurn (n : Nat) (s : State) : Result :=
  match s.hostQ with
  | [] => .next s.resetEvent
  | r :: q =>
    match commandWrites (decodeBus r.req r.data) { s with hostQ := q } with
    | some (.error f) => .fault f
    | some (.ok ws) => .next (State.resetEvent (({ s with hostQ := q } : State).writeSurface (ws.take n)))
    | none => .next (State.resetEvent { s with hostQ := q })

/-- One turn. -/
def runTurn (t : Turn) (s : State) : Result :=
  match t with
  | .host => hostTurn s
  | .hostSurfLost => hostTurnSurfLost s
  | .producer => producerTurn s
  | .sink => sinkTurn s
  | .walk => decodeStep s
  | .surfReady true => .next { s with surfReady := true }
  | .surfReady false => lowerSurfReady s
  | .readSurface n => .next (s.readSurface n)
  | .readAfterPoll n => .next (s.readAfterPoll n)
  | .readAfterCommand n => .next (s.readAfterCommand n)
  | .reset => .next s.resetEvent
  | .resetDuring n => resetDuringTurn n s

/-- One step: the next turn; with no turn left the machine waits. -/
def stepTurns (s : State) : Result :=
  match s.turns with
  | [] => .next s
  | t :: rest => runTurn t { s with turns := rest }

/-- Put a transaction at the head of its port's queue, give its agent the next turn, and bring the block to the STATE in which the port takes it:
FILLING for the input port (R202), TEEING for the tee port (R206). -/
def State.offer (s : State) (t : Transfer) : State :=
  match t with
  | .bus req data => { s with hostQ := ⟨req, data⟩ :: s.hostQ, turns := .host :: s.turns }
  | .input w => { s with inQ := w :: s.inQ, turns := .producer :: s.turns, phase := .filling }
  | .sink w => { s with sinkQ := w :: s.sinkQ, turns := .sink :: s.turns, phase := .teeing }

end Sys2Proof.Machine
end

