-- ==== Sys2Proof/Machine/Step.lean ====
section
/-! DEFINITION. One step of the machine, and where it fetches its next transaction. -/

namespace Sys2Proof.Machine

/-- One step: the agent whose turn it is moves. -/
def step (s : State) : Host.Outcome State Fault Refusal := stepTurns s

/-- An opcode-table word offered on its port, its agent moving next (log entry 3); a word that stands for no transaction offers nothing. -/
def State.withFetchWord (s : State) (nbits w : Nat) : State :=
  match tableTransfer nbits w with
  | some t => s.offer t
  | none => s

end Sys2Proof.Machine
end

