-- ==== Sys2Proof/Safety.lean ====
section
/-! DEFINITION. What a safe run is: what the environment must do (00_scope.md R7), what every reachable state satisfies, and what an external reader
of the surface can see (20_memory.md R72). -/

namespace Sys2Proof.Machine

/-- STATE is FILLING, TEEING or DECODING: the run between START and its end (R38, R238). -/
abbrev State.running (s : State) : Prop := s.phase = .filling ∨ s.phase = .teeing ∨ s.phase = .decoding

/-- FB holds a value at each of the indices 0 .. n - 1. -/
abbrev State.fbHolds (s : State) (n : Nat) : Prop := ∀ k, k < n → (s.fb.read k).isSome = true

/-- The memories, and what the reader last saw of one, are in canonical form. -/
abbrev State.MemoryCanonical (s : State) : Prop :=
  Memory.wf s.fb = true ∧ Memory.wf s.surf = true ∧ ∀ m ∈ s.readerView, Memory.wf m = true

/-- The surface is what all issued writes make of it, and the counted, the commanded and the synchronised writes are issued ones (R71, R72, R75). -/
abbrev State.SurfaceIssued (s : State) : Prop :=
  s.surf = applyWrites s.params.endian [] s.issued ∧ s.countedWrites ≤ s.issued.length ∧ s.commandedWrites ≤ s.issued.length ∧
    s.syncedWrites ≤ s.issued.length

/-- Every listed byte has an address that exists: FB's are below FB_CAP (R65), the surface's below 2^SURF_AW (R61). -/
abbrev State.MemoryInRange (s : State) : Prop :=
  (∀ c ∈ s.fb, c.1 < s.params.fbCap) ∧ (∀ c ∈ s.surf, c.1 < 2 ^ s.params.surfAw)

/-- The reserved bits of the configuration registers are 0 (R123), and so are RES_RGB[31:24] (R31). -/
abbrev State.ReservedZero (s : State) : Prop :=
  s.ctrl &&& 0xFFFFFFFC = 0 ∧ s.surfBpp &&& 0xFFFFFF00 = 0 ∧ s.chanLayout &&& 0xFF000000 = 0 ∧
    s.pixfmt &&& 0xFFFFFFF8 = 0 ∧ s.resRgb &&& 0xFF000000 = 0

/-- While a run lasts its configuration passes every check and surf_ready is 1 (R122, R201, R238). -/
abbrev State.RunConfigValid (s : State) : Prop := s.running → s.cfgCause = .noCause

/-- FILLING: the frame is not complete, the bytes assembled so far are in FB, and FB_VALID is 0 once the frame's first byte is in (R203). TEEING and
DECODING: the frame is complete. FB_VALID: FB holds a whole frame (R34). IDLE: no frame has been taken. -/
abbrev State.FrameConsistent (s : State) : Prop :=
  (s.phase = .filling →
    s.fillLevel.toNat < s.frameBytes ∧ s.fbHolds s.fillLevel.toNat ∧ (s.fillLevel ≠ 0 → s.fbValid = false)) ∧
  (s.phase = .teeing ∨ s.phase = .decoding → s.fbValid = true ∧ s.fillLevel.toNat = s.frameBytes) ∧
  (s.fbValid = true → s.fbHolds s.frameBytes) ∧
  (s.phase = .idle → s.fbValid = false)

/-- TEEING: at least one byte is still to be offered and the retries are within the limit (R206, R208). TEE_ACTIVE is set only from TEE_EN, by START (R34). -/
abbrev State.TeeConsistent (s : State) : Prop :=
  (s.phase = .teeing →
    s.teeActive = true ∧ s.teeOff.toNat < s.frameBytes ∧ s.teeRetries.toNat ≤ s.params.teeRetryLimit.toNat) ∧
  (s.teeActive = true → s.teeEn = true ∧ s.phase ≠ .idle ∧ s.phase ≠ .error)

/-- DECODING: the walk's next pixel is a pixel of the frame (R187). -/
abbrev State.WalkInFrame (s : State) : Prop :=
  s.phase = .decoding → s.walkI.toNat < s.fw ∧ s.walkJ.toNat < s.fh

/-- CFG_ERR is not 0 exactly in ERROR, TERM_CAUSE is 1 only in TERMINATED (R34, R41), and CMD_ERR.CAUSE is not 0 exactly when CODE = BAD_CONFIG (R35). -/
abbrev State.StatusConsistent (s : State) : Prop :=
  (s.cfgErr ≠ .noCause ↔ s.phase = .error) ∧ (s.termCause = true → s.phase = .terminated) ∧
    (s.cmdErrCause ≠ .noCause ↔ s.cmdErrCode = .badConfig)

/-- What holds of the machine after reset and after every step. -/
structure State.Inv (s : State) : Prop where
  paramsLegal : s.params.Legal
  memoryCanonical : s.MemoryCanonical
  memoryInRange : s.MemoryInRange
  surfaceIssued : s.SurfaceIssued
  reservedZero : s.ReservedZero
  runConfigValid : s.RunConfigValid
  frameConsistent : s.FrameConsistent
  teeConsistent : s.TeeConsistent
  walkInFrame : s.WalkInFrame
  statusConsistent : s.StatusConsistent

/-- The caller is responsible for bounds (R162): a WRPIX that its checks let run names a pixel of the surface, and a FILL's rectangle is empty or inside
the surface. -/
def hostInBounds (i : Instr) (s : State) : Bool :=
  match i with
  | .wrpix => s.pixelCommandError != none || (s.argX < s.sw && s.argYPos < s.sh)
  | .fill =>
    s.pixelCommandError != none || s.argW == 0 || s.argH == 0 ||
      (s.argX + s.argW ≤ s.sw && s.argYPos + s.argH ≤ s.sh)
  | .regrd _ _ => true
  | .regwr _ _ _ => true
  | .cvt => true
  | .decode => true
  | .start => true
  | .inByte _ => true
  | .inEos => true
  | .inErr => true
  | .sinkAcc _ => true
  | .sinkFail => true
  | .sinkClosed => true

/-- The sink answers within the protocol: ST is not 3, and it never reports more bytes accepted than were offered (R7, R210). -/
def sinkHonest (w : BitVec 34) (s : State) : Bool :=
  match decodeSink w with
  | .ok (.sinkAcc count) => count.toNat ≤ s.offerLength
  | .ok _ => true
  | .error _ => false

/-- What the environment owes the block at its next turn (R7): commands in bounds, a sink within the protocol, and surf_ready kept at 1 from START to
the end of the run and during a surface-writing command (during a START that is turned away it may fall). -/
def State.Duties (s : State) : Prop :=
  match s.turns with
  | [] => True
  | .host :: _ => ∀ r ∈ s.hostQ.head?, hostInBounds (decodeBus r.req r.data) s = true
  | .hostSurfLost :: _ =>
    ¬ s.running ∧ ∀ r ∈ s.hostQ.head?,
      commandWrites (decodeBus r.req r.data) s = none ∧
        (decodeBus r.req r.data = .start → s.phase ≠ .idle ∨ s.cfgCause ≠ .noCause)
  | .producer :: _ => True
  | .sink :: _ => s.phase = .teeing → ∀ w ∈ s.sinkQ.head?, sinkHonest w s = true
  | .walk :: _ => True
  | .surfReady true :: _ => True
  | .surfReady false :: _ => ¬ s.running
  | .readSurface _ :: _ => True
  | .readAfterPoll _ :: _ => True
  | .readAfterCommand _ :: _ => True
  | .reset :: _ => True
  | .resetDuring _ :: _ => ∀ r ∈ s.hostQ.head?, hostInBounds (decodeBus r.req r.data) s = true

/-- A step that neither faults nor is refused. -/
def State.StepsOn (s : State) : Prop := ∃ t, step s = .next t

/-- `n` steps of the machine, up to the first fault or refusal. -/
def run : Nat → State → Result
  | 0, s => .next s
  | n + 1, s =>
    match step s with
    | .next t => run n t
    | .fault f => .fault f
    | .refused r => .refused r

/-- Reset is the turn's event. -/
def Turn.isReset : Turn → Bool
  | .reset => true
  | .resetDuring _ => true
  | .host => false
  | .hostSurfLost => false
  | .producer => false
  | .sink => false
  | .walk => false
  | .surfReady _ => false
  | .readSurface _ => false
  | .readAfterPoll _ => false
  | .readAfterCommand _ => false

/-- What an external reader of the surface may see at this moment: the surface after any prefix of the issued writes, each whole (R63, R72). -/
def State.readerViews (s : State) : List Memory := (List.range (s.issued.length + 1)).map s.prefixView

end Sys2Proof.Machine
end

