-- ==== Sys2Proof/Certificates/Slice0/Obligations.lean ====
section
/-! DEFINITION. The statements for the provers, from the numbered rules of spec/, and the spec's own tables and formulas they are stated with. -/

open Sys2Proof Sys2Proof.Machine

/-! ## The spec's tables and formulas -/

namespace Sys2Proof.Spec

/-- A request that gets BUSERR (60_exceptions.md R237): SIZE != 2, ADDR[1:0] != 0, ADDR = 0x1C, or ADDR >= 0x4C. -/
abbrev malformed (size : BitVec 2) (addr : BitVec 8) : Prop :=
  size ≠ 2 ∨ addr.toNat % 4 ≠ 0 ∨ addr.toNat = 0x1C ∨ 0x4C ≤ addr.toNat

/-- STATUS as the sum of its fields at their places (10_state.md R34). -/
def statusValue (s : State) : Nat :=
  s.phase.code.toNat + s.teeActive.toNat * 8 + s.fbValid.toNat * 16 + s.termCause.toNat * 32 +
    (decide (s.phase = .terminated ∨ s.phase = .error)).toNat * 64 + (decide (s.phase = .terminated)).toNat * 128 +
    s.cfgErr.code.toNat * 256

/-- CMD_ERR as the sum of its fields at their places (10_state.md R35). -/
def cmdErrValue (s : State) : Nat := s.cmdErrCode.code.toNat + s.cmdErrCause.code.toNat * 256

/-- What the register at an offset reads as (10_state.md R21). -/
def readTable (s : State) (off : Nat) : Word :=
  match off with
  | 0x00 => s.ctrl
  | 0x04 => s.frameGeom
  | 0x08 => s.surfGeom
  | 0x0C => s.surfStride
  | 0x10 => s.surfBpp
  | 0x14 => s.chanLayout
  | 0x18 => s.pixfmt
  | 0x20 => s.arg0
  | 0x24 => s.arg1
  | 0x28 => s.arg2
  | 0x2C => s.arg3
  | 0x34 => s.resRgb
  | 0x38 => s.resPix
  | 0x3C => BitVec.ofNat 32 (statusValue s)
  | 0x40 => BitVec.ofNat 32 (cmdErrValue s)
  | 0x44 => s.decodeCount
  | 0x48 => s.fillLevel
  | _ => 0

/-- The write masks of 40_register_access.md R123, by offset. -/
def maskTable (off : Nat) : Word :=
  match off with
  | 0x00 => 0x00000003
  | 0x10 => 0x000000FF
  | 0x14 => 0x00FFFFFF
  | 0x18 => 0x00000007
  | _ => 0xFFFFFFFF

/-- The state after the host's write transaction is answered OKAY. -/
def okay (s : State) : State := { s with lastResp := some (.written .okay) }

/-- The state after a command error (60_exceptions.md R236): CMD_ERR keeps the first error; the response is OKAY (R95). -/
def withError (code : CmdErrCode) (cause : CfgCause) (s : State) : State :=
  okay { s with
    cmdErrCode := if s.cmdErrCode = .noError then code else s.cmdErrCode
    cmdErrCause := if s.cmdErrCode = .noError then cause else s.cmdErrCause }

/-- `clamp0_255` on integers (00_scope.md R10). -/
def clamp (v : Int) : Nat := (max 0 (min 255 v)).toNat

/-- The three channels of 41_color_converter.md R141, from the samples as numbers. -/
def red (y u : Nat) : Nat := clamp ((298 * ((y : Int) - 16) + 516 * ((u : Int) - 128) + 128) / 256)
def green (y u v : Nat) : Nat :=
  clamp ((298 * ((y : Int) - 16) - 100 * ((u : Int) - 128) - 208 * ((v : Int) - 128) + 128) / 256)
def blue (y v : Nat) : Nat := clamp ((298 * ((y : Int) - 16) + 409 * ((v : Int) - 128) + 128) / 256)

/-- `(R << 16) | (G << 8) | B` of the converted samples (R141, R144). -/
def rgb32 (y u v : Nat) : Word := BitVec.ofNat 32 (red y u * 65536 + green y u v * 256 + blue y v)

/-- A channel in a 16-bit pixel (R145): its most significant bits, at its place. -/
def channel16 (layout : Word) (bitsAt offAt v : Nat) : Nat :=
  v / 2 ^ (8 - layout.toNat / 2 ^ bitsAt % 16) * 2 ^ (layout.toNat / 2 ^ offAt % 16)

/-- The 16-bit pixel of the converted samples, by CHAN_LAYOUT (R145). -/
def rgb16 (layout : Word) (y u v : Nat) : Word :=
  BitVec.ofNat 32 (channel16 layout 0 4 (red y u) + channel16 layout 8 12 (green y u v) + channel16 layout 16 20 (blue y v))

/-- The packed pixel of a sample triple for the current surface (R146). -/
def pixelOf (s : State) (y u v : Nat) : Word := if s.bpp = 32 then rgb32 y u v else rgb16 s.chanLayout y u v

/-- The byte at off + k of an n-byte surface write of v (20_memory.md R64). -/
def imageByte (endian : Endian) (n : Nat) (v : Word) (k : Nat) : Byte :=
  match endian with
  | .little => BitVec.ofNat 8 (v.toNat / 2 ^ (8 * k))
  | .big => BitVec.ofNat 8 (v.toNat / 2 ^ (8 * (n - 1 - k)))

/-- Pixel (x, y) of the surface m holds the BPB-byte value v at y * STRIDE + x * BPB (R160, R64). -/
def pixelHolds (s : State) (m : Memory) (x y : Nat) (v : Word) : Prop :=
  ∀ k, k < s.bpb → m.read (y * s.stride + x * s.bpb + k) = some (imageByte s.params.endian s.bpb v k)

/-- Address a is none of pixel (x, y)'s bytes. -/
def outsidePixel (s : State) (x y a : Nat) : Prop := a < y * s.stride + x * s.bpb ∨ y * s.stride + x * s.bpb + s.bpb ≤ a

/-- The byte FB gives at an index: the one it holds, or the free value (entry V2 of 93). -/
def fbByte (s : State) (k : Nat) : Byte := (s.fb.read k).getD (Config.fbUnspecified s.resets k)

/-- The value the walk writes at pixel (i, j) (R181, R182, R185): luma at i + j*FW, U at FW*FH + cidx, V a quarter plane later. -/
def walkPixel (s : State) (i j : Nat) : Word :=
  pixelOf s (fbByte s (i + j * s.fw)).toNat
    (fbByte s (s.fw * s.fh + (i / 2 + j / 2 * (s.fw / 2)))).toNat
    (fbByte s (s.fw * s.fh + s.fw * s.fh / 4 + (i / 2 + j / 2 * (s.fw / 2)))).toNat

/-- The chain of `cfgCause()` (43_frame_decoder.md R184) with `surfCause()` (R163) in front, as a cause number. -/
def causeNumber (s : State) : Nat :=
  if s.surfReady = false then 1
  else if (s.bpp ≠ 16 ∧ s.bpp ≠ 32) ∨ s.sw = 0 ∨ s.sh = 0 ∨ s.stride < s.sw * (s.bpp / 8) ∨
      s.stride % (s.bpp / 8) ≠ 0 ∨ s.stride * s.sh > 2 ^ s.params.surfAw then 2
  else if s.bpp = 16 ∧ layoutOK s.chanLayout = false then 3
  else if s.pixfmt.toNat % 8 ≠ 0 then 4
  else if s.ctrl.toNat / 2 % 2 = 1 then 5
  else if s.fw = 0 ∨ s.fh = 0 then 6
  else if s.fw % 2 = 1 ∨ s.fh % 2 = 1 then 7
  else if s.fw > s.sw ∨ s.fh > s.sh then 8
  else if 3 * s.fw * s.fh / 2 > s.params.fbCap then 9
  else 0

/-- The IN_BYTE transfer of a byte (30_encoding.md R97). -/
def byteTransfer (b : Byte) : BitVec 10 := (0 : BitVec 2) ++ b

/-- The SINK_ACC response of a count (30_encoding.md R98). -/
def accResponse (count : Word) : BitVec 34 := (0 : BitVec 2) ++ count

/-- The surface write of pixel (x, y) with the value v (00_scope.md R11, R160, R161). -/
def pixelWriteOf (s : State) (x y : Nat) (v : Word) : SurfWrite := ⟨y * s.stride + x * s.bpb, s.bpb, v⟩

/-- The host's transaction reads DECODE_COUNT, or STATUS while it shows DONE: it orders the counted decodes too (20_memory.md R75). -/
def pollsFrames (i : Instr) (s : State) : Prop :=
  i = .regrd 2 0x44 ∨ (i = .regrd 2 0x3C ∧ (s.phase = .terminated ∨ s.phase = .error))

/-- The request reads STATUS or DECODE_COUNT (20_memory.md R75). -/
abbrev isPollRequest (r : BusRequest) : Prop := r.req = 0x23C ∨ r.req = 0x244

/-- The agents' turns that take one frame in and walk it, teeing off. -/
def frameTurns (s : State) : List Turn :=
  List.replicate s.frameBytes Turn.producer ++ List.replicate (s.fw * s.fh) Turn.walk

/-- The turns that may come, any number of times, while the run waits for its next move: the host (any transaction, surf_ready staying up), the
external reader, surf_ready raised; and each agent whose port is not ready or whose step is not enabled until that move (R187, R202, R206). -/
def waits (next : Option Turn) : Turn → Bool
  | .host => true
  | .readSurface _ => true
  | .readAfterPoll _ => true
  | .readAfterCommand _ => true
  | .surfReady level => level
  | .sink => true
  | .producer => next == some .walk || next == some .sink
  | .walk => next == some .producer || next == some .sink
  | .hostSurfLost => false
  | .reset => false
  | .resetDuring _ => false

/-- A list of turns makes the moves of a plan in order, with any waiting turns in between, before and after (60_exceptions.md R240). -/
def interleaves : List Turn → List Turn → Bool
  | [], [] => true
  | _ :: _, [] => false
  | [], turn :: turns => waits none turn && interleaves [] turns
  | move :: plan, turn :: turns =>
    if turn = move then interleaves plan turns else waits (some move) turn && interleaves (move :: plan) turns

/-- The configuration registers of two states are the same (R122). -/
def sameConfig (s t : State) : Prop :=
  t.ctrl = s.ctrl ∧ t.frameGeom = s.frameGeom ∧ t.surfGeom = s.surfGeom ∧ t.surfStride = s.surfStride ∧
    t.surfBpp = s.surfBpp ∧ t.chanLayout = s.chanLayout ∧ t.pixfmt = s.pixfmt

/-- The next turn is no reset. -/
def noReset (s : State) : Prop := ∀ turn ∈ s.turns.head?, turn.isReset = false

end Sys2Proof.Spec

open Sys2Proof.Spec

/-! ## Register access -/

/-- REGRD (R120, R21, R92): every request is answered; a legal one with the register's value; no other state changes. That CMD_ERR bits 7:4 read 0 is
the model's reading (log entry 17, DEDUCED): R35 does not list them. -/
def Obligations.RegrdReturnsSelectedRegister : Prop :=
  ∀ (size : BitVec 2) (addr : BitVec 8) (s : State),
    exec (.regrd size addr) s =
      .next { s with lastResp := some (if malformed size addr then .read .busErr 0 else .read .okay (readTable s addr.toNat)) }

/-- R237: a malformed request gets BUSERR and changes nothing, a read with data 0. -/
def Obligations.MalformedRequestsGetBusErr : Prop :=
  ∀ (size : BitVec 2) (addr : BitVec 8) (data : Word) (s : State), malformed size addr →
    exec (.regrd size addr) s = .next { s with lastResp := some (.read .busErr 0) } ∧
    exec (.regwr size addr data) s = .next { s with lastResp := some (.written .busErr) }

/-- R121, R123: in IDLE a write to a configuration register stores the data under the register's mask and changes nothing else. -/
def Obligations.RegwrStoresConfigurationInIdle : Prop :=
  ∀ (d : Word) (s : State), s.phase = .idle →
    exec (.regwr 2 0x00 d) s = .next (okay { s with ctrl := d &&& maskTable 0x00 }) ∧
    exec (.regwr 2 0x04 d) s = .next (okay { s with frameGeom := d }) ∧
    exec (.regwr 2 0x08 d) s = .next (okay { s with surfGeom := d }) ∧
    exec (.regwr 2 0x0C d) s = .next (okay { s with surfStride := d }) ∧
    exec (.regwr 2 0x10 d) s = .next (okay { s with surfBpp := d &&& maskTable 0x10 }) ∧
    exec (.regwr 2 0x14 d) s = .next (okay { s with chanLayout := d &&& maskTable 0x14 }) ∧
    exec (.regwr 2 0x18 d) s = .next (okay { s with pixfmt := d &&& maskTable 0x18 })

/-- R122: outside IDLE a write to a configuration register changes nothing but CMD_ERR, which records REG_LOCKED if its CODE was 0. -/
def Obligations.RegwrConfigurationLockedOutsideIdle : Prop :=
  ∀ (d : Word) (s : State), s.phase ≠ .idle →
    ∀ addr ∈ ([0x00, 0x04, 0x08, 0x0C, 0x10, 0x14, 0x18] : List (BitVec 8)),
      exec (.regwr 2 addr d) s = .next (withError .regLocked .noCause s)

/-- R29, R35, R121: in every state the ARG registers store all 32 bits, a write to CMD_ERR clears it, and a write to a read-only register changes nothing. -/
def Obligations.RegwrOtherRegistersInEveryState : Prop :=
  ∀ (d : Word) (s : State),
    exec (.regwr 2 0x20 d) s = .next (okay { s with arg0 := d }) ∧
    exec (.regwr 2 0x24 d) s = .next (okay { s with arg1 := d }) ∧
    exec (.regwr 2 0x28 d) s = .next (okay { s with arg2 := d }) ∧
    exec (.regwr 2 0x2C d) s = .next (okay { s with arg3 := d }) ∧
    exec (.regwr 2 0x40 d) s = .next (okay { s with cmdErrCode := .noError, cmdErrCause := .noCause }) ∧
    ∀ addr ∈ ([0x34, 0x38, 0x3C, 0x44, 0x48] : List (BitVec 8)), exec (.regwr 2 addr d) s = .next (okay s)

/-- R124: a read that follows a write to a configuration register in IDLE, or to an ARG register in any state, returns the value written under its
mask. -/
def Obligations.ReadAfterWriteReturnsMaskedValue : Prop :=
  ∀ (addr : BitVec 8) (d : Word) (s : State),
    (addr ∈ ([0x00, 0x04, 0x08, 0x0C, 0x10, 0x14, 0x18] : List (BitVec 8)) ∧ s.phase = .idle ∨
      addr ∈ ([0x20, 0x24, 0x28, 0x2C] : List (BitVec 8))) →
    ∃ t u, exec (.regwr 2 addr d) s = .next t ∧ exec (.regrd 2 addr) t = .next u ∧
      u.lastResp = some (.read .okay (d &&& maskTable addr.toNat))

/-- R93, R94, R95, R235: a write to CMD runs the command its word encodes; ILLEGAL_OP comes first, then RESERVED_BITS. -/
def Obligations.CommandWordChecksInOrder : Prop :=
  ∀ (w : Word) (s : State),
    exec (.regwr 2 0x30 w) s =
      if w.toNat % 16 = 0 ∨ 6 ≤ w.toNat % 16 then .next (withError .illegalOp .noCause s)
      else if w.toNat / 16 ≠ 0 then .next (withError .reservedBits .noCause s)
      else if w.toNat = 1 then exec .cvt s
      else if w.toNat = 2 then exec .wrpix s
      else if w.toNat = 3 then exec .fill s
      else if w.toNat = 4 then exec .decode s
      else exec .start s

/-- R236, R241: CMD_ERR holds the first error since it was last cleared: while CODE is not 0 only the host's write to CMD_ERR or a reset changes it, and
both clear it. -/
def Obligations.FirstCommandErrorIsKept : Prop :=
  ∀ s t : State, step s = .next t → s.cmdErrCode ≠ .noError →
    (t.cmdErrCode = s.cmdErrCode ∧ t.cmdErrCause = s.cmdErrCause) ∨
    (t.cmdErrCode = .noError ∧ t.cmdErrCause = .noCause ∧
      ((∃ turn ∈ s.turns.head?, turn.isReset = true) ∨
        ((s.turns.head? = some .host ∨ s.turns.head? = some .hostSurfLost) ∧
          ∃ r ∈ s.hostQ.head?, ∃ d, decodeBus r.req r.data = .regwr 2 0x40 d)))

/-! ## The colour converter -/

/-- R143: the three sums lie in the ranges the rule gives, each end is taken, a 19-bit signed datapath holds them, and a shift that truncates toward
zero would give the same clamped channels. -/
def Obligations.SumsInRangeAndShiftNotObservable : Prop :=
  (∀ y u v : Byte,
    (-70688 ≤ sumR y u ∧ sumR y u ≤ 136882) ∧ (-43756 ≤ sumG y u v ∧ sumG y u v ≤ 110774) ∧
    (-56992 ≤ sumB y v ∧ sumB y v ≤ 123293) ∧
    (∀ x ∈ [sumR y u, sumG y u v, sumB y v], -2 ^ 18 ≤ x ∧ x < 2 ^ 18 ∧ clamp0_255 (x / 256) = clamp0_255 (x.tdiv 256) ∧
      (x < 0 → clamp0_255 (x / 256) = 0))) ∧
  (∃ y u, sumR y u = -70688) ∧ (∃ y u, sumR y u = 136882) ∧ (∃ y u v, sumG y u v = -43756) ∧
  (∃ y u v, sumG y u v = 110774) ∧ (∃ y v, sumB y v = -56992) ∧ (∃ y v, sumB y v = 123293)

/-- R141, R144, R147 on a 32-bit surface: CVT puts the converted triple of ARG0 in RES_RGB and RES_PIX, in every STATE, and changes nothing else. -/
def Obligations.CvtPacksFor32BitSurface : Prop :=
  ∀ s : State, s.bpp = 32 →
    exec .cvt s = .next (okay { s with
      resRgb := rgb32 (s.arg0.toNat % 256) (s.arg0.toNat / 256 % 256) (s.arg0.toNat / 65536 % 256)
      resPix := rgb32 (s.arg0.toNat % 256) (s.arg0.toNat / 256 % 256) (s.arg0.toNat / 65536 % 256) })

/-- R141, R145, R147 on a 16-bit surface: RES_PIX is the sum of the three narrowed channels at their places. -/
def Obligations.CvtPacksFor16BitSurface : Prop :=
  ∀ s : State, s.bpp = 16 → layoutOK s.chanLayout = true →
    exec .cvt s = .next (okay { s with
      resRgb := rgb32 (s.arg0.toNat % 256) (s.arg0.toNat / 256 % 256) (s.arg0.toNat / 65536 % 256)
      resPix := rgb16 s.chanLayout (s.arg0.toNat % 256) (s.arg0.toNat / 256 % 256) (s.arg0.toNat / 65536 % 256) })

/-- R146, R147: where pack is not possible CVT raises BAD_CONFIG with packCause() and writes no result. -/
def Obligations.CvtRejectsUnpackableConfiguration : Prop :=
  ∀ s : State,
    (s.bpp ≠ 16 → s.bpp ≠ 32 → exec .cvt s = .next (withError .badConfig .badSurface s)) ∧
    (s.bpp = 16 → layoutOK s.chanLayout = false → exec .cvt s = .next (withError .badConfig .badLayout s))

/-- R145: layoutOK says exactly that every channel has 1 to 8 bits inside bits 15:0 and that no two channels share a bit position. -/
def Obligations.LayoutOkIffChannelsDisjoint : Prop :=
  ∀ layout : Word, layoutOK layout = true ↔
    (∀ c, c < 3 → 1 ≤ layoutBits layout c ∧ layoutBits layout c ≤ 8 ∧ layoutOff layout c + layoutBits layout c ≤ 16) ∧
    (∀ c d, c < d → d < 3 →
      layoutOff layout c + layoutBits layout c ≤ layoutOff layout d ∨
        layoutOff layout d + layoutBits layout d ≤ layoutOff layout c)

/-! ## The surface addresser -/

/-- R163, R68: when surfCause() = 0, an in-bounds pixel's bytes are naturally aligned and inside STRIDE * SH <= 2^SURF_AW, and two different in-bounds
pixels share no byte. -/
def Obligations.InBoundsPixelsAlignedAndDisjoint : Prop :=
  ∀ (s : State) (x y x' y' : Nat), s.surfCause = .noCause → x < s.sw → y < s.sh → x' < s.sw → y' < s.sh →
    s.pixelOffset x y % s.bpb = 0 ∧ s.pixelOffset x y + s.bpb ≤ s.surfBytes ∧ s.surfBytes ≤ 2 ^ s.params.surfAw ∧
    ((x, y) ≠ (x', y') →
      s.pixelOffset x y + s.bpb ≤ s.pixelOffset x' y' ∨ s.pixelOffset x' y' + s.bpb ≤ s.pixelOffset x y)

/-- R164, R161, R64: WRPIX in bounds writes exactly the pixel's BPB bytes, in the surface's byte order, and changes nothing else. -/
def Obligations.WrpixWritesOnePixel : Prop :=
  ∀ s : State, s.phase = .idle ∨ s.phase = .terminated → s.surfCause = .noCause →
    s.arg1.toNat % 65536 < s.sw → s.arg1.toNat / 65536 < s.sh →
    ∃ m, exec .wrpix s = .next (okay { s with
        surf := m
        issued := s.issued ++ [pixelWriteOf s (s.arg1.toNat % 65536) (s.arg1.toNat / 65536) s.argColor]
        commandedWrites := s.issued.length + 1 }) ∧
      pixelHolds s m (s.arg1.toNat % 65536) (s.arg1.toNat / 65536) s.arg2 ∧
      ∀ a, outsidePixel s (s.arg1.toNat % 65536) (s.arg1.toNat / 65536) a → m.read a = s.surf.read a

/-- R165: a FILL whose rectangle is empty or inside the surface writes every pixel of it, no other byte, and changes nothing else; the writes
it issues are those of FillIssuesWritesInRasterOrder. -/
def Obligations.FillPaintsExactlyTheRectangle : Prop :=
  ∀ s : State, s.phase = .idle ∨ s.phase = .terminated → s.surfCause = .noCause →
    let x := s.arg1.toNat % 65536; let y := s.arg1.toNat / 65536
    let w := s.arg3.toNat % 65536; let h := s.arg3.toNat / 65536
    (w = 0 ∨ h = 0 ∨ (x + w ≤ s.sw ∧ y + h ≤ s.sh)) →
    ∃ m ws, fillWrites s = .ok ws ∧ exec .fill s = .next (okay { s with
        surf := m
        issued := s.issued ++ ws
        commandedWrites := if ws = [] then s.commandedWrites else s.issued.length + ws.length }) ∧
      (∀ i j, x ≤ i → i < x + w → y ≤ j → j < y + h → pixelHolds s m i j s.arg2) ∧
      ∀ a, (∀ i j, x ≤ i → i < x + w → y ≤ j → j < y + h → outsidePixel s i j a) → m.read a = s.surf.read a

/-- R165, R71: FILL issues its writes in raster order: the write number dy * w + dx is pixel (x + dx, y + dy)'s. -/
def Obligations.FillIssuesWritesInRasterOrder : Prop :=
  ∀ s : State, s.argX + s.argW ≤ s.sw → s.argYPos + s.argH ≤ s.sh →
    ∃ ws, fillWrites s = .ok ws ∧ ws.length = s.argW * s.argH ∧
      ∀ dx dy, dx < s.argW → dy < s.argH →
        ws[dy * s.argW + dx]? = some ⟨(s.argYPos + dy) * s.stride + (s.argX + dx) * s.bpb, s.bpb, s.argColor⟩

/-- R162, R165, R238: a WRPIX out of bounds faults, and so does, as a whole, a FILL whose rectangle is not empty and leaves the surface. -/
def Obligations.OutOfBoundsPixelsFault : Prop :=
  ∀ s : State, s.phase = .idle ∨ s.phase = .terminated → s.surfCause = .noCause →
    let x := s.arg1.toNat % 65536; let y := s.arg1.toNat / 65536
    let w := s.arg3.toNat % 65536; let h := s.arg3.toNat / 65536
    (s.sw ≤ x ∨ s.sh ≤ y → exec .wrpix s = .fault .surfaceOutOfBounds) ∧
    (0 < w → 0 < h → s.sw < x + w ∨ s.sh < y + h → exec .fill s = .fault .surfaceOutOfBounds)

/-- R164, R165, R234, R235: WRPIX and FILL raise WRONG_STATE outside IDLE and TERMINATED, else BAD_CONFIG with surfCause(), with no other effect. -/
def Obligations.PixelCommandErrorsInOrder : Prop :=
  ∀ (s : State) (i : Instr), i = .wrpix ∨ i = .fill →
    (s.phase ≠ .idle → s.phase ≠ .terminated → exec i s = .next (withError .wrongState .noCause s)) ∧
    (s.phase = .idle ∨ s.phase = .terminated → s.surfCause ≠ .noCause →
      exec i s = .next (withError .badConfig s.surfCause s))

/-- R166: the BPB bytes of an in-bounds pixel, once written, hold the value after any later pixel writes none of which hits the same pixel. -/
def Obligations.WrittenPixelSurvivesOtherPixels : Prop :=
  ∀ (s : State) (m : Memory) (x y : Nat) (v : Word) (w : SurfWrite) (later : List SurfWrite),
    s.surfCause = .noCause → pixelWrite s x y v = .ok w →
    (∀ w' ∈ later, ∃ x' y' c, (x', y') ≠ (x, y) ∧ pixelWrite s x' y' c = .ok w') →
    pixelHolds s (applyWrites s.params.endian (w.apply s.params.endian m) later) x y v

/-! ## The frame decoder -/

/-- R184, R163, R233: cfgCause() is the first failing cause of the rule's chain; and when it is 0, the walk's reads stay below FRAME_BYTES <= FB_CAP and
its pixels are in bounds. -/
def Obligations.CfgCauseIsFirstFailingCheck : Prop :=
  ∀ s : State, s.cfgCause.code.toNat = causeNumber s ∧
    (s.cfgCause = .noCause → s.frameBytes ≤ s.params.fbCap ∧
      ∀ i j, i < s.fw → j < s.fh → i < s.sw ∧ j < s.sh ∧ s.lumaIndex i j < s.uBase ∧
        s.uBase + s.chromaIndex i j < s.vBase ∧ s.vBase + s.chromaIndex i j < s.frameBytes)

/-- R185, R186, R188: DECODE with a valid frame writes every pixel of the frame from its three samples, no other byte, and counts one decode. -/
def Obligations.DecodePaintsTheFrame : Prop :=
  ∀ s : State, s.phase = .idle ∨ s.phase = .terminated → s.cfgCause = .noCause → s.fbValid = true →
    ∃ m ws, walkWrites s = .ok ws ∧ exec .decode s = .next (okay { s with
        surf := m
        issued := s.issued ++ ws
        decodeCount := s.decodeCount + 1
        commandedWrites := s.issued.length + s.fw * s.fh
        countedWrites := s.issued.length + s.fw * s.fh }) ∧
      (∀ i j, i < s.fw → j < s.fh → pixelHolds s m i j (walkPixel s i j)) ∧
      ∀ a, (∀ i j, i < s.fw → j < s.fh → outsidePixel s i j a) → m.read a = s.surf.read a

/-- R186: the walk issues FW * FH writes in raster order: the write number j * FW + i is pixel (i, j)'s. -/
def Obligations.WalkIssuesWritesInRasterOrder : Prop :=
  ∀ s : State, s.cfgCause = .noCause →
    ∃ ws, walkWrites s = .ok ws ∧ ws.length = s.fw * s.fh ∧
      ∀ i j, i < s.fw → j < s.fh →
        ws[j * s.fw + i]? = some ⟨j * s.stride + i * s.bpb, s.bpb, walkPixel s i j⟩

/-- R188, R235: DECODE raises WRONG_STATE, then BAD_CONFIG with cfgCause(), then FB_INVALID, with no other effect. -/
def Obligations.DecodeErrorsInOrder : Prop :=
  ∀ s : State,
    (s.phase ≠ .idle → s.phase ≠ .terminated → exec .decode s = .next (withError .wrongState .noCause s)) ∧
    (s.phase = .idle ∨ s.phase = .terminated → s.cfgCause ≠ .noCause →
      exec .decode s = .next (withError .badConfig s.cfgCause s)) ∧
    (s.phase = .idle ∨ s.phase = .terminated → s.cfgCause = .noCause → s.fbValid = false →
      exec .decode s = .next (withError .fbInvalid .noCause s))

/-- R189: a decode after a decode, whatever was written on the surface in between, leaves the same bytes on the pixels the frame covers. -/
def Obligations.DecodingTwiceGivesTheSamePixels : Prop :=
  ∀ (s s' t t' : State) (m : Memory), exec .decode s = .next t → s.decodeCommandError = none →
    s' = { t with surf := m } → exec .decode s' = .next t' →
    ∀ i j k, i < s.fw → j < s.fh → k < s.bpb →
      t'.surf.read (s.pixelOffset i j + k) = t.surf.read (s.pixelOffset i j + k)

/-- R148: the converter is shared: the value the walk writes at a pixel is the one CVT leaves in RES_PIX for the pixel's three samples. -/
def Obligations.WalkAndCvtConvertAlike : Prop :=
  ∀ (s t : State) (i j : Nat) (y u v : Byte) (w : SurfWrite),
    fbRead s (s.lumaIndex i j) = .ok y → fbRead s (s.uBase + s.chromaIndex i j) = .ok u →
    fbRead s (s.vBase + s.chromaIndex i j) = .ok v → decodePixel s i j = .ok w → s.packCause = .noCause →
    exec .cvt { s with arg0 := (0 : BitVec 8) ++ v ++ u ++ y } = .next t → t.resPix = w.value

/-- R185, R187: a decode step whose pixel is not the last writes exactly that pixel and moves to the next one, in raster order. -/
def Obligations.DecodeStepPaintsOnePixel : Prop :=
  ∀ (s : State) (rest : List Turn), s.turns = .walk :: rest → s.phase = .decoding → s.cfgCause = .noCause →
    s.walkI.toNat < s.fw → s.walkJ.toNat < s.fh → (s.walkI.toNat + 1 < s.fw ∨ s.walkJ.toNat + 1 < s.fh) →
    ∃ m, step s = .next { s with
        turns := rest
        surf := m
        issued := s.issued ++ [pixelWriteOf s s.walkI.toNat s.walkJ.toNat (walkPixel s s.walkI.toNat s.walkJ.toNat)]
        walkI := if s.walkI.toNat + 1 = s.fw then 0 else s.walkI + 1
        walkJ := if s.walkI.toNat + 1 = s.fw then s.walkJ + 1 else s.walkJ } ∧
      pixelHolds s m s.walkI.toNat s.walkJ.toNat (walkPixel s s.walkI.toNat s.walkJ.toNat) ∧
      ∀ a, outsidePixel s s.walkI.toNat s.walkJ.toNat a → m.read a = s.surf.read a

/-- R187, R211: the last decode step of a frame writes its pixel, counts the decode, sets FILL_LEVEL to 0 and returns to FILLING; FB_VALID stays. -/
def Obligations.LastDecodeStepReturnsToFilling : Prop :=
  ∀ (s : State) (rest : List Turn), s.turns = .walk :: rest → s.phase = .decoding → s.cfgCause = .noCause →
    s.walkI.toNat + 1 = s.fw → s.walkJ.toNat + 1 = s.fh →
    ∃ m, step s = .next { s with
        turns := rest
        surf := m
        issued := s.issued ++ [pixelWriteOf s s.walkI.toNat s.walkJ.toNat (walkPixel s s.walkI.toNat s.walkJ.toNat)]
        countedWrites := s.issued.length + 1
        walkI := 0
        walkJ := s.walkJ + 1
        decodeCount := BitVec.ofNat 32 (s.decodeCount.toNat + 1)
        fillLevel := 0
        phase := .filling } ∧
      pixelHolds s m s.walkI.toNat s.walkJ.toNat (walkPixel s s.walkI.toNat s.walkJ.toNat) ∧
      ∀ a, outsidePixel s s.walkI.toNat s.walkJ.toNat a → m.read a = s.surf.read a

/-! ## The streaming loop -/

/-- R201, R232: START outside IDLE is WRONG_STATE; in IDLE a failing check gives ERROR with CFG_ERR and no command error; else the run begins. -/
def Obligations.StartValidatesThenBeginsTheRun : Prop :=
  ∀ s : State,
    (s.phase ≠ .idle → exec .start s = .next (withError .wrongState .noCause s)) ∧
    (s.phase = .idle → s.cfgCause ≠ .noCause →
      exec .start s = .next (okay { s with cfgErr := s.cfgCause, phase := .error })) ∧
    (s.phase = .idle → s.cfgCause = .noCause →
      exec .start s = .next (okay { s with
        fillLevel := 0
        teeActive := decide (s.ctrl.toNat % 2 = 1)
        termCause := false
        cfgErr := .noCause
        phase := .filling }))

/-- R202: the input port is ready exactly while STATE = FILLING. Ready, the block takes the producer's next transfer; in every other state the transfer
waits and nothing changes. -/
def Obligations.InputPortReadyOnlyInFilling : Prop :=
  ∀ (s : State) (w : BitVec 10) (q : List (BitVec 10)) (rest : List Turn),
    (s.inReady = true ↔ s.phase = .filling) ∧
    (s.turns = .producer :: rest → s.inQ = w :: q →
      (s.phase = .filling → step s = exec (decodeInput w) { s with turns := rest, inQ := q }) ∧
      (s.phase ≠ .filling → step s = .next { s with turns := rest }))

/-- R202, R206 (log entry 10): an input transfer outside FILLING and a sink response outside TEEING are not taken: nothing changes, and the sink's answer waits. -/
def Obligations.TransfersAreTakenOnlyInTheirState : Prop :=
  ∀ s : State,
    (s.phase ≠ .filling → ∀ i, i = .inEos ∨ i = .inErr ∨ (∃ d, i = .inByte d) → exec i s = .next s) ∧
    (s.phase ≠ .teeing → ∀ i, i = .sinkFail ∨ i = .sinkClosed ∨ (∃ n, i = .sinkAcc n) → exec i s = .next s) ∧
    (s.phase ≠ .teeing → ∀ rest, s.turns = .sink :: rest → step s = .next { s with turns := rest })

/-- R203: a byte that does not complete the frame goes to FB[FILL_LEVEL] alone, clears FB_VALID when it is the frame's first, and FILL_LEVEL goes up by 1. -/
def Obligations.InByteAppendsOneByte : Prop :=
  ∀ (s : State) (d : Byte), s.phase = .filling → s.fillLevel.toNat < s.params.fbCap → s.fillLevel.toNat + 1 < 2 ^ 32 →
    s.fillLevel.toNat + 1 ≠ 3 * s.fw * s.fh / 2 →
    ∃ m, exec (.inByte d) s = .next { s with
        fb := m
        fbValid := if s.fillLevel.toNat = 0 then false else s.fbValid
        fillLevel := s.fillLevel + 1 } ∧
      m.read s.fillLevel.toNat = some d ∧ ∀ a, a ≠ s.fillLevel.toNat → m.read a = s.fb.read a

/-- R203, R206: the byte that makes FILL_LEVEL = FRAME_BYTES completes the frame: FB_VALID, then TEEING from offset 0 when the tee is active, DECODING from
pixel (0, 0) when it is not. -/
def Obligations.InByteCompletesTheFrame : Prop :=
  ∀ (s : State) (d : Byte), s.phase = .filling → s.fillLevel.toNat < s.params.fbCap → s.fillLevel.toNat + 1 < 2 ^ 32 →
    s.fillLevel.toNat + 1 = 3 * s.fw * s.fh / 2 →
    ∃ m, m.read s.fillLevel.toNat = some d ∧ (∀ a, a ≠ s.fillLevel.toNat → m.read a = s.fb.read a) ∧
      (s.teeActive = true →
        exec (.inByte d) s = .next { s with
          fb := m, fbValid := true, fillLevel := s.fillLevel + 1, teeOff := 0, teeRetries := 0, phase := .teeing }) ∧
      (s.teeActive = false →
        exec (.inByte d) s = .next { s with
          fb := m, fbValid := true, fillLevel := s.fillLevel + 1, walkI := 0, walkJ := 0, phase := .decoding })

/-- R204, R205: end of stream and a read error both end the run in TERMINATED with EXIT_OK; only TERM_CAUSE differs. -/
def Obligations.EndOfStreamAndErrorTerminate : Prop :=
  ∀ s : State, s.phase = .filling →
    exec .inEos s = .next { s with termCause := false, phase := .terminated } ∧
    exec .inErr s = .next { s with termCause := true, phase := .terminated } ∧
    ∀ t, exec .inEos s = .next t ∨ exec .inErr s = .next t → t.done = true ∧ t.exitOk = true

/-- R207: an accepted part of the offer goes to the sink, byte for byte and in order; TEE_OFF moves on, the retry count returns to 0, and the last byte
enters DECODING at pixel (0, 0). -/
def Obligations.SinkAccDeliversTheAcceptedBytes : Prop :=
  ∀ (s : State) (n : Word), s.phase = .teeing → 0 < n.toNat → s.teeOff.toNat + n.toNat ≤ s.frameBytes →
    s.frameBytes ≤ s.params.fbCap → s.frameBytes < 2 ^ 32 →
    ∃ bytes, bytes.length = n.toNat ∧ (∀ k, k < n.toNat → bytes[k]? = some (fbByte s (s.teeOff.toNat + k))) ∧
      (s.teeOff.toNat + n.toNat = s.frameBytes →
        exec (.sinkAcc n) s = .next { s with
          teeOff := s.teeOff + n, teeRetries := 0, sinkBytes := s.sinkBytes ++ bytes, walkI := 0, walkJ := 0, phase := .decoding }) ∧
      (s.teeOff.toNat + n.toNat ≠ s.frameBytes →
        exec (.sinkAcc n) s = .next { s with
          teeOff := s.teeOff + n, teeRetries := 0, sinkBytes := s.sinkBytes ++ bytes })

/-- R208, R209: SINK_ACC(0) and SINK_FAIL are retried while TEE_RETRIES differs from TEE_RETRY_LIMIT, else they abandon teeing; SINK_CLOSED abandons it
at once. Abandoning clears TEE_ACTIVE and enters DECODING at pixel (0, 0). -/
def Obligations.SinkWithoutProgressRetriesThenAbandons : Prop :=
  ∀ s : State, s.phase = .teeing →
    exec .sinkClosed s = .next { s with teeActive := false, walkI := 0, walkJ := 0, phase := .decoding } ∧
    ∀ i, i = .sinkAcc 0 ∨ i = .sinkFail →
      (s.teeRetries = s.params.teeRetryLimit →
        exec i s = .next { s with teeActive := false, walkI := 0, walkJ := 0, phase := .decoding }) ∧
      (s.teeRetries ≠ s.params.teeRetryLimit → exec i s = .next { s with teeRetries := s.teeRetries + 1 })

/-- R210: in a tee attempt, a response with ST = 3 and a SINK_ACC of more bytes than were offered fault with SINK_PROTOCOL. -/
def Obligations.SinkProtocolViolationsFault : Prop :=
  ∀ (s : State) (w : BitVec 34) (q : List (BitVec 34)) (rest : List Turn),
    s.turns = .sink :: rest → s.sinkQ = w :: q → s.phase = .teeing →
    w.toNat / 2 ^ 32 = 3 ∨ (w.toNat / 2 ^ 32 = 0 ∧ 0 < w.toNat ∧ s.frameBytes - s.teeOff.toNat < w.toNat) →
    step s = .fault .sinkProtocol

/-- R238, U3: surf_ready falling in FILLING, TEEING or DECODING faults with SURFACE_LOST, and so does its fall during a WRPIX, FILL or DECODE that
writes the surface. Nothing but a fall of surf_ready raises SURFACE_LOST. The model's reading, not R238's words (log entry 13, DEDUCED): the second clause
takes in a FILL of an empty rectangle, and its checks sample surf_ready before the fall; and the whole third clause, that a fall during any other
transaction comes after that transaction, so that a START which begins a run faults and any other only has its level lowered. -/
def Obligations.SurfaceLostWhenReadyFalls : Prop :=
  (∀ (s : State) (rest : List Turn), s.turns = .surfReady false :: rest → s.surfReady = true →
    (s.running → step s = .fault .surfaceLost) ∧
    (¬ s.running → step s = .next { s with turns := rest, surfReady := false })) ∧
  (∀ (s : State) (r : BusRequest) (q : List BusRequest) (rest : List Turn) (i : Instr) (t : State),
    s.turns = .hostSurfLost :: rest → s.hostQ = r :: q → decodeBus r.req r.data = i →
    s.phase = .idle ∨ s.phase = .terminated →
    ((i = .wrpix ∨ i = .fill) ∧ s.surfCause = .noCause) ∨ (i = .decode ∧ s.cfgCause = .noCause ∧ s.fbValid = true) →
    exec i s = .next t → step s = .fault .surfaceLost) ∧
  (∀ (s t : State) (r : BusRequest) (q : List BusRequest) (rest : List Turn),
    s.turns = .hostSurfLost :: rest → s.hostQ = r :: q → s.surfReady = true → commandWrites (decodeBus r.req r.data) s = none →
    step { s with turns := .host :: rest } = .next t →
    (t.running → step s = .fault .surfaceLost) ∧ (¬ t.running → step s = .next { t with surfReady := false })) ∧
  (∀ s : State, step s = .fault .surfaceLost →
    s.turns.head? = some (.surfReady false) ∨ s.turns.head? = some .hostSurfLost)

/-- R214: when the sink accepts a frame in parts, each with progress, it has received exactly the frame's bytes in order, and the walk starts, whatever the
other agents do between the sink's turns (R240). -/
def Obligations.TeeDeliversTheWholeFrame : Prop :=
  ∀ (s : State) (counts : List Word) (q : List (BitVec 34)) (sched rest : List Turn), s.Inv → s.phase = .teeing → s.teeOff = 0 →
    (∀ n ∈ counts, 0 < n.toNat) → (counts.map BitVec.toNat).sum = s.frameBytes →
    s.sinkQ = counts.map accResponse ++ q → interleaves (List.replicate counts.length .sink) sched = true →
    s.turns = sched ++ rest →
    ∃ t bytes, run sched.length s = .next t ∧ t.phase = .decoding ∧ t.teeActive = true ∧ t.walkI = 0 ∧ t.walkJ = 0 ∧
      t.fb = s.fb ∧ t.surf = s.surf ∧ t.issued = s.issued ∧ t.inQ = s.inQ ∧ t.sinkQ = q ∧ t.turns = rest ∧
      t.sinkBytes = s.sinkBytes ++ bytes ∧ bytes.length = s.frameBytes ∧
      ∀ k, k < s.frameBytes → s.fb.read k = bytes[k]?

/-- R203, R186, R187, R211, R240: with teeing off, the bytes of one frame and the walk's turns, in any interleaving with the host, an external reader and the
turns of agents that must wait, paint the frame on the surface in raster order, count one decode and return to FILLING with FILL_LEVEL = 0. -/
def Obligations.StreamingDecodesOneFrame : Prop :=
  ∀ (s : State) (bytes : List Byte) (q : List (BitVec 10)) (sched rest : List Turn), s.Inv → s.phase = .filling → s.fillLevel = 0 →
    s.teeActive = false → bytes.length = s.frameBytes → s.inQ = bytes.map byteTransfer ++ q →
    interleaves (frameTurns s) sched = true → s.turns = sched ++ rest →
    ∃ t ws, run sched.length s = .next t ∧ t.turns = rest ∧ t.inQ = q ∧ t.phase = .filling ∧ t.fillLevel = 0 ∧
      t.fbValid = true ∧ t.teeActive = false ∧ t.decodeCount = s.decodeCount + 1 ∧ t.params = s.params ∧ sameConfig s t ∧
      (∀ k, k < s.frameBytes → t.fb.read k = bytes[k]?) ∧
      (∀ i j, i < s.fw → j < s.fh → pixelHolds s t.surf i j (walkPixel t i j)) ∧
      (∀ a, (∀ i j, i < s.fw → j < s.fh → outsidePixel s i j a) → t.surf.read a = s.surf.read a) ∧
      t.issued = s.issued ++ ws ∧ ws.length = s.fw * s.fh ∧ t.countedWrites = t.issued.length ∧
      ∀ i j, i < s.fw → j < s.fh → ws[j * s.fw + i]? = some (pixelWriteOf s i j (walkPixel t i j))

/-- R213, R240: from IDLE with a configuration that passes and no tee, START, N whole frames, a tail of t < FRAME_BYTES bytes and the end of the stream, in any
interleaving with the host's other transactions, an external reader and the turns of agents that must wait, give exactly N decodes and end in
TERMINATED with EXIT_OK, FILL_LEVEL = t, and FB_VALID = 0 when t > 0. -/
def Obligations.RunDecodesExactlyTheWholeFrames : Prop :=
  ∀ (s : State) (frames : List (List Byte)) (tail : List Byte) (hq : List BusRequest) (q : List (BitVec 10)) (sched rest : List Turn),
    s.Inv → s.phase = .idle → s.cfgCause = .noCause → s.teeEn = false →
    (∀ f ∈ frames, f.length = s.frameBytes) → tail.length < s.frameBytes →
    s.hostQ = ⟨0x630, 5⟩ :: hq →
    s.inQ = (frames.flatten ++ tail).map byteTransfer ++ 0x100 :: q →
    interleaves ((frames.map fun _ => frameTurns s).flatten ++ List.replicate tail.length .producer) sched = true →
    s.turns = .host :: (sched ++ .producer :: rest) →
    ∃ t, run (sched.length + 2) s = .next t ∧ t.turns = rest ∧ t.inQ = q ∧
      t.phase = .terminated ∧ t.exitOk = true ∧ t.termCause = false ∧
      t.decodeCount = s.decodeCount + BitVec.ofNat 32 frames.length ∧ t.fillLevel.toNat = tail.length ∧
      t.fbValid = (decide (tail = []) && decide (frames ≠ []))

/-! ## Encoding -/

/-- R91, R93, R94, R97, R98: decoding the encoding of an instruction gives it back, with every operand at every value; a REGWR that carries a command's
word is the command. -/
def Obligations.DecodeInvertsEncode : Prop :=
  ∀ i : Instr, i.canonical = true → decodeTransfer (encode i) = .ok i

/-- R91, R97: no bit of a register write or of an IN_BYTE or SINK_ACC is dropped, and decoding never answers an instruction that is not canonical. -/
def Obligations.EncodeInvertsDecode : Prop :=
  (∀ (req : BitVec 11) (data : Word), (decodeBus req data).canonical = true ∧
    encode (decodeBus req data) = .bus req (if req.getLsbD 10 then data else 0)) ∧
  (∀ (w : BitVec 10) (d : Byte), decodeInput w = .inByte d → encode (.inByte d) = .input w) ∧
  (∀ (w : BitVec 34) (n : Word), decodeSink w = .ok (.sinkAcc n) → encode (.sinkAcc n) = .sink w)

/-- R97: ERR takes precedence over EOS, and EOS over DATA; the ignored bits do not matter. -/
def Obligations.InputDecodePrecedence : Prop :=
  ∀ w : BitVec 10, decodeInput w =
    if 512 ≤ w.toNat then .inErr else if 256 ≤ w.toNat then .inEos else .inByte (BitVec.ofNat 8 w.toNat)

/-- R98: the sink's status decides; COUNT is ignored by SINK_FAIL and SINK_CLOSED, and ST = 3 is rejected. -/
def Obligations.SinkDecodeByStatus : Prop :=
  ∀ w : BitVec 34,
    (w.toNat < 2 ^ 32 → decodeSink w = .ok (.sinkAcc (BitVec.ofNat 32 w.toNat))) ∧
    (2 ^ 32 ≤ w.toNat → w.toNat < 2 * 2 ^ 32 → decodeSink w = .ok .sinkFail) ∧
    (2 * 2 ^ 32 ≤ w.toNat → w.toNat < 3 * 2 ^ 32 → decodeSink w = .ok .sinkClosed) ∧
    (3 * 2 ^ 32 ≤ w.toNat → decodeSink w = .error .sinkReserved)

/-- Words written out from the rows of the opcode table decode to their instructions. -/
def Obligations.SpecWordsDecode : Prop :=
  decodeBus 0x204 0 = .regrd 2 0x04 ∧ decodeBus 0x610 0x120 = .regwr 2 0x10 0x120 ∧ decodeBus 0x13C 0 = .regrd 1 0x3C ∧
  decodeBus 0x630 1 = .cvt ∧ decodeBus 0x630 2 = .wrpix ∧ decodeBus 0x630 3 = .fill ∧ decodeBus 0x630 4 = .decode ∧
  decodeBus 0x630 5 = .start ∧ decodeBus 0x630 0x14 = .regwr 2 0x30 0x14 ∧
  decodeInput 0x0EB = .inByte 0xEB ∧ decodeInput 0x1AB = .inEos ∧ decodeInput 0x3FF = .inErr ∧
  decodeSink 0x00000000A = .ok (.sinkAcc 10) ∧ decodeSink 0x100000000 = .ok .sinkFail ∧ decodeSink 0x200000000 = .ok .sinkClosed

/-! ## The whole machine -/

/-- A step runs the decoded transaction of the agent whose turn it is (R74, R90, R202, R206), with that turn and that transaction used up. Around a host
transaction the step only notes, for a reader that synchronises through a poll, what the poll orders: a read of STATUS or DECODE_COUNT the writes of the
complete commands (R74, R75, R266), a read of DECODE_COUNT or of a STATUS that shows DONE those of the counted decodes too (R75; the model's own field,
log entry 19). -/
def Obligations.StepRunsTheDecodedTransaction : Prop :=
  ∀ (s : State) (i : Instr) (rest : List Turn),
    (∀ r q, s.turns = .host :: rest → s.hostQ = r :: q → decodeTransfer (.bus r.req r.data) = .ok i →
      (pollsFrames i s → step s = exec i { s with
        turns := rest, hostQ := q, syncedWrites := max s.syncedWrites (max s.commandedWrites s.countedWrites) }) ∧
      (i = .regrd 2 0x3C → ¬ pollsFrames i s → step s = exec i { s with
        turns := rest, hostQ := q, syncedWrites := max s.syncedWrites s.commandedWrites }) ∧
      (i ≠ .regrd 2 0x3C → i ≠ .regrd 2 0x44 → step s = exec i { s with turns := rest, hostQ := q })) ∧
    (∀ w q, s.turns = .producer :: rest → s.inQ = w :: q → s.phase = .filling → decodeTransfer (.input w) = .ok i →
      step s = exec i { s with turns := rest, inQ := q }) ∧
    (∀ w q, s.turns = .sink :: rest → s.sinkQ = w :: q → s.phase = .teeing → decodeTransfer (.sink w) = .ok i →
      step s = exec i { s with turns := rest, sinkQ := q })

/-- R261: what reset leaves, register by register as the host reads them, and the outputs. -/
def Obligations.ResetValues : Prop :=
  (∀ off, off < 256 → readTable State.reset off = if off = 0x04 then 0x01E00280 else 0) ∧
  State.reset.phase = .idle ∧ State.reset.done = false ∧ State.reset.exitOk = false ∧
  (∀ a, Memory.read State.reset.fb a = none)

/-- R260, R261, R264: reset in any state gives every register its reset value and leaves the surface as it is, the writes issued to it among the rest. By R263 what
the sink has accepted and the input transfers not yet taken stay where they are. The model's choice: that surf_ready keeps its level (log entry 7, DESIGN
CHOICE), that the accepted bytes stand in sinkBytes (log entry 9, DESIGN CHOICE), that the queues and the remaining turns stay (log entry 2, DESIGN
CHOICE), and that a reader keeps what it has seen (log entries 18 and 19, DEDUCED). -/
def Obligations.ResetFromAnyState : Prop :=
  ∀ (s : State) (rest : List Turn), s.turns = .reset :: rest →
    ∃ t, step s = .next t ∧ (∀ off, off < 256 → readTable t off = if off = 0x04 then 0x01E00280 else 0) ∧ t.phase = .idle ∧
      t.done = false ∧ t.exitOk = false ∧ (∀ a, t.fb.read a = none) ∧ t.surf = s.surf ∧ t.issued = s.issued ∧ t.params = s.params ∧
      t.commandedWrites = s.commandedWrites ∧ t.syncedWrites = s.syncedWrites ∧ t.readerView = s.readerView ∧ t.surfReady = s.surfReady ∧
      t.sinkBytes = s.sinkBytes ∧ t.inQ = s.inQ ∧ t.hostQ = s.hostQ ∧ t.sinkQ = s.sinkQ ∧ t.turns = rest

/-- R263: a reset in the middle of a surface-writing command keeps the writes already performed, each whole, and issues no other. The model's readings: the
interrupted transaction is used up and not performed again (log entry 12, DEDUCED), and an external reader then sees a prefix of the writes kept (R72; log
entry 18, DEDUCED). -/
def Obligations.ResetDuringCommandKeepsAPrefix : Prop :=
  ∀ (s : State) (n : Nat) (r : BusRequest) (q : List BusRequest) (ws : List SurfWrite) (rest : List Turn),
    s.turns = .resetDuring n :: rest → s.hostQ = r :: q → commandWrites (decodeBus r.req r.data) s = some (.ok ws) →
    ∃ t, step s = .next t ∧ t.phase = .idle ∧ t.fb = [] ∧ t.hostQ = q ∧ t.surf = applyWrites s.params.endian s.surf (ws.take n) ∧
      t.issued = s.issued ++ ws.take n ∧ (s.Inv → t.surf ∈ t.readerViews)

/-- R72, R71, R62: at any moment an external reader sees the surface after a prefix of the issued writes, each whole, and each prefix can be what it sees; one
that has synchronised through a poll of the host sees a prefix that has the writes the poll orders before the look (R75), and the
software that wrote CMD one that has the writes of its complete commands (R266). A step never takes an issued
write back or changes the order, and the surface itself is what all of them make of it. The environment chooses the prefix (Turn.readSurface,
Turn.readAfterPoll, Turn.readAfterCommand; log entries 18 and 19, DEDUCED). -/
def Obligations.ReaderSeesAPrefixOfTheIssuedWrites : Prop :=
  (∀ (s : State) (m : Memory), m ∈ s.readerViews ↔
    ∃ k, k ≤ s.issued.length ∧ m = applyWrites s.params.endian [] (s.issued.take k)) ∧
  (∀ (s : State) (n : Nat) (rest : List Turn), s.turns = .readSurface n :: rest →
    ∃ m ∈ s.readerViews, step s = .next { s with turns := rest, readerView := some m }) ∧
  (∀ (s : State) (m : Memory) (rest : List Turn), m ∈ s.readerViews →
    ∃ n, step { s with turns := .readSurface n :: rest } = .next { s with turns := rest, readerView := some m }) ∧
  (∀ (s : State) (n : Nat) (rest : List Turn), s.Inv → s.turns = .readAfterPoll n :: rest →
    ∃ k, s.syncedWrites ≤ k ∧ k ≤ s.issued.length ∧ step s = .next { s with
      turns := rest, readerView := some (applyWrites s.params.endian [] (s.issued.take k)) }) ∧
  (∀ (s : State) (n : Nat) (rest : List Turn), s.Inv → s.turns = .readAfterCommand n :: rest →
    ∃ k, s.commandedWrites ≤ k ∧ k ≤ s.issued.length ∧ step s = .next { s with
      turns := rest, readerView := some (applyWrites s.params.endian [] (s.issued.take k)) }) ∧
  (∀ s : State, s.Inv → s.surf ∈ s.readerViews) ∧
  (∀ s t : State, step s = .next t →
    ∃ ws, t.issued = s.issued ++ ws ∧ t.surf = applyWrites s.params.endian s.surf ws ∧ s.syncedWrites ≤ t.syncedWrites)

/-- R75, R74, R266, R268: what polling orders (log entry 19, DEDUCED). A poll of STATUS or DECODE_COUNT lets a reader that synchronises through it see every write of
the commands complete before it, and, when it reads DECODE_COUNT or a STATUS that shows DONE, every write of the decodes counted. So after a WRPIX, FILL or
DECODE that its checks let run and a poll, the reader sees the surface as the command left it, and the software that wrote CMD sees it without a poll
(R266). After a DECODE and a poll it sees every pixel of the frame. In each case however few of the issued writes it would otherwise have seen. -/
def Obligations.PolledReaderSeesCommandsAndFrames : Prop :=
  (∀ (s : State) (n : Nat) (poll : BusRequest) (hq : List BusRequest) (rest : List Turn), s.Inv → isPollRequest poll →
    s.hostQ = poll :: hq → s.turns = .host :: .readAfterPoll n :: rest →
    ∃ t k, run 2 s = .next t ∧ t.turns = rest ∧ t.hostQ = hq ∧ s.commandedWrites ≤ k ∧ k ≤ s.issued.length ∧
      (poll.req = 0x244 ∨ s.phase = .terminated ∨ s.phase = .error → s.countedWrites ≤ k) ∧
      t.readerView = some (applyWrites s.params.endian [] (s.issued.take k))) ∧
  (∀ (s : State) (n : Nat) (command poll : BusRequest) (hq : List BusRequest) (ws : List SurfWrite) (rest : List Turn), s.Inv →
    commandWrites (decodeBus command.req command.data) s = some (.ok ws) → ws ≠ [] → isPollRequest poll →
    s.hostQ = command :: poll :: hq →
    (s.turns = .host :: .host :: .readAfterPoll n :: rest →
      ∃ t, run 3 s = .next t ∧ t.readerView = some t.surf ∧ t.surf = applyWrites s.params.endian s.surf ws ∧ t.hostQ = hq) ∧
    (s.turns = .host :: .readAfterCommand n :: rest →
      ∃ t, run 2 s = .next t ∧ t.readerView = some t.surf ∧ t.surf = applyWrites s.params.endian s.surf ws ∧ t.hostQ = poll :: hq)) ∧
  (∀ (s : State) (n : Nat) (poll : BusRequest) (hq : List BusRequest) (rest : List Turn),
    s.phase = .idle ∨ s.phase = .terminated → s.cfgCause = .noCause → s.fbValid = true → isPollRequest poll →
    s.hostQ = ⟨0x630, 4⟩ :: poll :: hq → s.turns = .host :: .host :: .readAfterPoll n :: rest →
    ∃ t m, run 3 s = .next t ∧ t.readerView = some m ∧ t.turns = rest ∧ t.hostQ = hq ∧
      (poll.req = 0x244 → t.lastResp = some (.read .okay (s.decodeCount + 1))) ∧
      ∀ i j, i < s.fw → j < s.fh → pixelHolds s m i j (walkPixel s i j))

/-- The invariant holds of the machine after reset. -/
def Obligations.ResetSatisfiesTheInvariant : Prop := State.reset.Inv

/-- Every step keeps the invariant: legal parameters, canonical memories with existing addresses only (R61, R65), reserved bits 0 (R123), a valid
configuration during a run (R122), the surface as the issued writes make it (R71), FB holding what FILL_LEVEL and FB_VALID say (R34, R37, R66), the tee's and the walk's positions inside the frame, and
consistent status fields (R41). -/
def Obligations.EveryStepKeepsTheInvariant : Prop :=
  ∀ s t : State, s.Inv → step s = .next t → t.Inv

/-- R7, R238: while the environment does its duties, no step of a reachable state faults or is refused. -/
def Obligations.NoFaultWhileDutiesAreMet : Prop :=
  ∀ s : State, s.Inv → s.Duties → s.StepsOn

/-- R64, R8: no step changes the implementation parameters; the byte order cannot be switched. -/
def Obligations.ParametersNeverChange : Prop :=
  ∀ s t : State, step s = .next t → t.params = s.params

/-- R122, R265: outside IDLE the configuration registers are constant up to a reset. -/
def Obligations.ConfigurationConstantUntilReset : Prop :=
  ∀ s t : State, step s = .next t → s.phase ≠ .idle → noReset s → sameConfig s t

/-- R200, R212: STATE changes only by the transitions of the table; TERMINATED and ERROR have no way out but reset. -/
def Obligations.StateFollowsTheTransitionTable : Prop :=
  ∀ s t : State, step s = .next t → noReset s → t.phase ≠ s.phase →
    (s.phase = .idle ∧ (t.phase = .filling ∧ s.cfgCause = .noCause ∨ t.phase = .error ∧ s.cfgCause ≠ .noCause)) ∨
    (s.phase = .filling ∧ (t.phase = .teeing ∧ s.teeActive = true ∨ t.phase = .decoding ∧ s.teeActive = false ∨
      t.phase = .terminated)) ∨
    (s.phase = .teeing ∧ t.phase = .decoding) ∨
    (s.phase = .decoding ∧ t.phase = .filling ∧ t.decodeCount = s.decodeCount + 1 ∧ t.fillLevel = 0)

/-- R66, R267: FB and the producer's transfers do not change while a frame is teed or walked, up to a reset. -/
def Obligations.FrameBufferHeldDuringTeeAndWalk : Prop :=
  ∀ s t : State, step s = .next t → noReset s → s.phase = .teeing ∨ s.phase = .decoding → t.fb = s.fb ∧ t.inQ = s.inQ

/-- R62, R234: during a run only a decode step writes the surface; in ERROR nothing does. -/
def Obligations.OnlyTheWalkWritesTheSurfaceDuringARun : Prop :=
  ∀ s t : State, step s = .next t → s.phase ≠ .idle → s.phase ≠ .terminated →
    (t.surf = s.surf ∧ t.issued = s.issued) ∨ (s.phase = .decoding ∧ s.turns.head? = some .walk)
end

