-- ==== Sys2Proof/Laws/Memory.lean ====
section
/-! SUPPORT. The laws of the memories: a read after a write, what a write leaves alone, and the canonical form, which every memory operation keeps. -/

namespace Sys2Proof.Machine

@[simp] theorem Memory.read_nil (a : Nat) : Memory.read [] a = none := rfl

theorem Memory.read_cons (b : Nat) (v : Byte) (m : Memory) (a : Nat) :
    Memory.read ((b, v) :: m) a = if a = b then some v else Memory.read m a := rfl

/-- A byte reads back as it was written. -/
@[simp] theorem Memory.read_write_self (m : Memory) (a : Nat) (v : Byte) : (m.write a v).read a = some v := by
  induction m with
  | nil => simp [Memory.write, Memory.read]
  | cons c m ih =>
    obtain ⟨b, w⟩ := c
    simp only [Memory.write]
    split
    · simp [Memory.read]
    · split
      · simp [Memory.read]
      · simp [Memory.read, *]

/-- A write leaves every other byte alone. -/
theorem Memory.read_write_ne (m : Memory) {a k : Nat} (v : Byte) (h : k ≠ a) : (m.write a v).read k = m.read k := by
  induction m with
  | nil => simp [Memory.write, Memory.read, h]
  | cons c m ih =>
    obtain ⟨b, w⟩ := c
    simp only [Memory.write]
    split
    · simp [Memory.read, h]
    · split
      · subst_vars
        simp [Memory.read, h]
      · simp [Memory.read, ih]

theorem Memory.read_write (m : Memory) (a k : Nat) (v : Byte) :
    (m.write a v).read k = if k = a then some v else m.read k := by
  split
  · subst_vars; simp
  · exact Memory.read_write_ne m v ‹_›

/-- What a memory lists after a write: the written byte and bytes it listed before. -/
theorem Memory.mem_write {m : Memory} {a : Nat} {v : Byte} {c : Host.Cell} (h : c ∈ m.write a v) : c = (a, v) ∨ c ∈ m := by
  induction m with
  | nil => simpa [Memory.write] using h
  | cons d m ih =>
    obtain ⟨b, w⟩ := d
    simp only [Memory.write] at h
    split at h
    · simpa using h
    · split at h
      · rcases List.mem_cons.mp h with h | h
        · exact .inl h
        · exact .inr (by simp [h])
      · rcases List.mem_cons.mp h with h | h
        · exact .inr (by simp [h])
        · rcases ih h with h | h
          · exact .inl h
          · exact .inr (by simp [h])

/-- The canonical form, as a fact about the head: every later address is larger, and the tail is canonical. -/
theorem Memory.wf_cons (a : Nat) (v : Byte) (m : Memory) :
    Memory.wf ((a, v) :: m) = true ↔ (∀ c ∈ m, a < c.1) ∧ Memory.wf m = true := by
  induction m generalizing a v with
  | nil => simp [Memory.wf]
  | cons d m ih =>
    obtain ⟨b, w⟩ := d
    simp only [Memory.wf, Bool.and_eq_true, decide_eq_true_eq]
    constructor
    · rintro ⟨hab, hw⟩
      refine ⟨fun c hc => ?_, hw⟩
      rcases List.mem_cons.mp hc with rfl | hc
      · exact hab
      · exact Nat.lt_trans hab (((ih b w).mp hw).1 c hc)
    · rintro ⟨hall, hw⟩
      exact ⟨hall (b, w) (by simp), hw⟩

/-- A write keeps the canonical form. -/
theorem Memory.wf_write {m : Memory} (h : Memory.wf m = true) (a : Nat) (v : Byte) : Memory.wf (m.write a v) = true := by
  induction m with
  | nil => rfl
  | cons d m ih =>
    obtain ⟨b, w⟩ := d
    obtain ⟨hall, hm⟩ := (Memory.wf_cons b w m).mp h
    simp only [Memory.write]
    split
    · rename_i hlt
      refine (Memory.wf_cons a v _).mpr ⟨fun c hc => ?_, h⟩
      rcases List.mem_cons.mp hc with rfl | hc
      · exact hlt
      · exact Nat.lt_trans hlt (hall c hc)
    · split
      · subst_vars
        exact (Memory.wf_cons _ v m).mpr ⟨hall, hm⟩
      · refine (Memory.wf_cons b w _).mpr ⟨fun c hc => ?_, ih hm⟩
        rcases Memory.mem_write hc with rfl | hc
        · simp only; omega
        · exact hall c hc

/-- A byte is held exactly where it is listed. -/
theorem Memory.read_isSome_of_mem {m : Memory} {c : Host.Cell} (h : c ∈ m) : (m.read c.1).isSome = true := by
  induction m with
  | nil => cases h
  | cons d m ih =>
    obtain ⟨b, w⟩ := d
    rw [Memory.read_cons]
    split
    · rfl
    · rcases List.mem_cons.mp h with rfl | h
      · simp_all
      · exact ih h

theorem Memory.mem_of_read {m : Memory} {a : Nat} {v : Byte} (h : m.read a = some v) : (a, v) ∈ m := by
  induction m with
  | nil => simp at h
  | cons d m ih =>
    obtain ⟨b, w⟩ := d
    rw [Memory.read_cons] at h
    split at h
    · simp_all
    · simp [ih h]

/-- Two canonical memories that read alike are equal. -/
theorem Memory.ext_of_wf {m n : Memory} (hm : Memory.wf m = true) (hn : Memory.wf n = true)
    (h : ∀ a, m.read a = n.read a) : m = n := by
  induction m generalizing n with
  | nil =>
    cases n with
    | nil => rfl
    | cons d n =>
      have := h d.1
      simp [Memory.read] at this
  | cons c m ih =>
    obtain ⟨a, v⟩ := c
    cases n with
    | nil =>
      have := h a
      simp [Memory.read] at this
    | cons d n =>
      obtain ⟨b, w⟩ := d
      obtain ⟨hallm, hwm⟩ := (Memory.wf_cons a v m).mp hm
      obtain ⟨halln, hwn⟩ := (Memory.wf_cons b w n).mp hn
      have hmem : ∀ {x y : Nat} {p : Byte} {q : Memory}, (∀ c ∈ q, y < c.1) → q.read x = some p → y < x :=
        fun hq hr => hq _ (Memory.mem_of_read hr)
      have hab : a = b := by
        by_contra hne
        have h1 := h a
        have h2 := h b
        rw [Memory.read_cons, if_pos rfl, Memory.read_cons, if_neg hne] at h1
        rw [Memory.read_cons, if_neg (Ne.symm hne), Memory.read_cons, if_pos rfl] at h2
        have := hmem halln h1.symm
        have := hmem hallm h2
        omega
      subst hab
      have hv := h a
      simp [Memory.read] at hv
      subst hv
      have : m = n := by
        refine ih hwm hwn fun k => ?_
        have hk := h k
        rw [Memory.read_cons, Memory.read_cons] at hk
        by_cases hka : k = a
        · subst hka
          have hnone : ∀ {q : Memory}, (∀ c ∈ q, k < c.1) → q.read k = none := by
            intro q hq
            by_contra hne
            obtain ⟨p, hp⟩ := Option.ne_none_iff_exists'.mp hne
            exact Nat.lt_irrefl _ (hmem hq hp)
          rw [hnone hallm, hnone halln]
        · simpa [hka] using hk
      rw [this]

/-! ### Runs of bytes -/

@[simp] theorem Memory.writeBytes_nil (m : Memory) (a : Nat) : m.writeBytes a [] = m := rfl

/-- Bytes outside the stored run are left alone. -/
theorem Memory.read_writeBytes_outside (bs : List Byte) (m : Memory) (a k : Nat) (h : k < a ∨ a + bs.length ≤ k) :
    (m.writeBytes a bs).read k = m.read k := by
  induction bs generalizing m a with
  | nil => rfl
  | cons b bs ih =>
    simp only [List.length_cons] at h
    rw [Memory.writeBytes, ih _ _ (by omega), Memory.read_write_ne _ _ (by omega)]

/-- The stored run reads back byte by byte. -/
theorem Memory.read_writeBytes_inside (bs : List Byte) (m : Memory) (a k : Nat) (h : k < bs.length) :
    (m.writeBytes a bs).read (a + k) = some bs[k] := by
  induction bs generalizing m a k with
  | nil => simp at h
  | cons b bs ih =>
    rw [Memory.writeBytes]
    cases k with
    | zero => rw [Memory.read_writeBytes_outside _ _ _ _ (by omega)]; simp
    | succ k =>
      have := ih (m.write a b) (a + 1) k (by simpa using h)
      simpa [Nat.add_assoc, Nat.add_comm, Nat.add_left_comm] using this

theorem Memory.wf_writeBytes (bs : List Byte) {m : Memory} (h : Memory.wf m = true) (a : Nat) :
    Memory.wf (m.writeBytes a bs) = true := by
  induction bs generalizing m a with
  | nil => exact h
  | cons b bs ih => exact ih (Memory.wf_write h a b) (a + 1)

theorem Memory.mem_writeBytes {bs : List Byte} {m : Memory} {a : Nat} {c : Host.Cell} (h : c ∈ m.writeBytes a bs) :
    c ∈ m ∨ (a ≤ c.1 ∧ c.1 < a + bs.length) := by
  induction bs generalizing m a with
  | nil => exact .inl h
  | cons b bs ih =>
    rcases ih h with h | h
    · rcases Memory.mem_write h with rfl | h
      · exact .inr (by simp)
      · exact .inl h
    · simp only [List.length_cons]
      exact .inr (by omega)

/-! ### Surface writes -/

@[simp] theorem byteImage_length (e : Endian) (n : Nat) (v : Word) : (byteImage e n v).length = n := by
  cases e <;> simp [byteImage]

/-- R64, LITTLE: the byte at off + k is v[8k+7 : 8k]. -/
theorem byteImage_little (n : Nat) (v : Word) (k : Nat) (h : k < n) :
    (byteImage .little n v)[k]'(by simpa using h) = v.extractLsb' (8 * k) 8 := by
  simp [byteImage]

/-- R64, BIG: the most significant byte comes first. -/
theorem byteImage_big (n : Nat) (v : Word) (k : Nat) (h : k < n) :
    (byteImage .big n v)[k]'(by simpa using h) = v.extractLsb' (8 * (n - 1 - k)) 8 := by
  simp [byteImage]

theorem SurfWrite.read_apply_outside (e : Endian) (m : Memory) (w : SurfWrite) (k : Nat)
    (h : k < w.off ∨ w.off + w.width ≤ k) : (w.apply e m).read k = m.read k :=
  Memory.read_writeBytes_outside _ _ _ _ (by simpa using h)

theorem SurfWrite.read_apply_inside (e : Endian) (m : Memory) (w : SurfWrite) (k : Nat) (h : k < w.width) :
    (w.apply e m).read (w.off + k) = some ((byteImage e w.width w.value)[k]'(by simpa using h)) :=
  Memory.read_writeBytes_inside _ _ _ _ (by simpa using h)

@[simp] theorem applyWrites_nil (e : Endian) (m : Memory) : applyWrites e m [] = m := rfl

@[simp] theorem applyWrites_cons (e : Endian) (m : Memory) (w : SurfWrite) (ws : List SurfWrite) :
    applyWrites e m (w :: ws) = applyWrites e (w.apply e m) ws := rfl

theorem applyWrites_append (e : Endian) (m : Memory) (ws vs : List SurfWrite) :
    applyWrites e m (ws ++ vs) = applyWrites e (applyWrites e m ws) vs := by
  induction ws generalizing m with
  | nil => rfl
  | cons w ws ih => simp [ih]

/-- A byte that no write of the list reaches is left alone. -/
theorem read_applyWrites_outside (e : Endian) (ws : List SurfWrite) (m : Memory) (k : Nat)
    (h : ∀ w ∈ ws, k < w.off ∨ w.off + w.width ≤ k) : (applyWrites e m ws).read k = m.read k := by
  induction ws generalizing m with
  | nil => rfl
  | cons w ws ih =>
    rw [applyWrites_cons, ih _ fun v hv => h v (by simp [hv]),
      SurfWrite.read_apply_outside _ _ _ _ (h w (by simp))]

/-- Surface writes keep the canonical form. -/
theorem wf_applyWrites (e : Endian) (ws : List SurfWrite) {m : Memory} (h : Memory.wf m = true) :
    Memory.wf (applyWrites e m ws) = true := by
  induction ws generalizing m with
  | nil => exact h
  | cons w ws ih => exact ih (Memory.wf_writeBytes _ h _)

/-- What a surface lists after writes: what it listed, and bytes of one of the writes. -/
theorem mem_applyWrites {e : Endian} {ws : List SurfWrite} {m : Memory} {c : Host.Cell} (h : c ∈ applyWrites e m ws) :
    c ∈ m ∨ ∃ w ∈ ws, w.off ≤ c.1 ∧ c.1 < w.off + w.width := by
  induction ws generalizing m with
  | nil => exact .inl h
  | cons w ws ih =>
    rcases ih h with h | ⟨v, hv, hr⟩
    · rcases Memory.mem_writeBytes h with h | h
      · exact .inl h
      · exact .inr ⟨w, by simp, by simpa using h⟩
    · exact .inr ⟨v, by simp [hv], hr⟩

/-- The reset state's memories are canonical. -/
theorem State.reset_memory_wf : Memory.wf State.reset.fb = true ∧ Memory.wf State.reset.surf = true := ⟨rfl, rfl⟩

end Sys2Proof.Machine
end

