-- ==== Sys2Proof/Laws/State.lean ====
section
/-! SUPPORT. What each named update of State leaves in each field: one lemma a field and update, so that no proof unfolds a record update. -/

namespace Sys2Proof.Machine

/-! ### `State.respond` -/

@[simp] theorem State.respond_params (s : State) (r : BusResponse) : (s.respond r).params = s.params := rfl
@[simp] theorem State.respond_ctrl (s : State) (r : BusResponse) : (s.respond r).ctrl = s.ctrl := rfl
@[simp] theorem State.respond_frameGeom (s : State) (r : BusResponse) : (s.respond r).frameGeom = s.frameGeom := rfl
@[simp] theorem State.respond_surfGeom (s : State) (r : BusResponse) : (s.respond r).surfGeom = s.surfGeom := rfl
@[simp] theorem State.respond_surfStride (s : State) (r : BusResponse) : (s.respond r).surfStride = s.surfStride := rfl
@[simp] theorem State.respond_surfBpp (s : State) (r : BusResponse) : (s.respond r).surfBpp = s.surfBpp := rfl
@[simp] theorem State.respond_chanLayout (s : State) (r : BusResponse) : (s.respond r).chanLayout = s.chanLayout := rfl
@[simp] theorem State.respond_pixfmt (s : State) (r : BusResponse) : (s.respond r).pixfmt = s.pixfmt := rfl
@[simp] theorem State.respond_arg0 (s : State) (r : BusResponse) : (s.respond r).arg0 = s.arg0 := rfl
@[simp] theorem State.respond_arg1 (s : State) (r : BusResponse) : (s.respond r).arg1 = s.arg1 := rfl
@[simp] theorem State.respond_arg2 (s : State) (r : BusResponse) : (s.respond r).arg2 = s.arg2 := rfl
@[simp] theorem State.respond_arg3 (s : State) (r : BusResponse) : (s.respond r).arg3 = s.arg3 := rfl
@[simp] theorem State.respond_resRgb (s : State) (r : BusResponse) : (s.respond r).resRgb = s.resRgb := rfl
@[simp] theorem State.respond_resPix (s : State) (r : BusResponse) : (s.respond r).resPix = s.resPix := rfl
@[simp] theorem State.respond_phase (s : State) (r : BusResponse) : (s.respond r).phase = s.phase := rfl
@[simp] theorem State.respond_teeActive (s : State) (r : BusResponse) : (s.respond r).teeActive = s.teeActive := rfl
@[simp] theorem State.respond_fbValid (s : State) (r : BusResponse) : (s.respond r).fbValid = s.fbValid := rfl
@[simp] theorem State.respond_termCause (s : State) (r : BusResponse) : (s.respond r).termCause = s.termCause := rfl
@[simp] theorem State.respond_cfgErr (s : State) (r : BusResponse) : (s.respond r).cfgErr = s.cfgErr := rfl
@[simp] theorem State.respond_cmdErrCode (s : State) (r : BusResponse) : (s.respond r).cmdErrCode = s.cmdErrCode := rfl
@[simp] theorem State.respond_cmdErrCause (s : State) (r : BusResponse) : (s.respond r).cmdErrCause = s.cmdErrCause := rfl
@[simp] theorem State.respond_decodeCount (s : State) (r : BusResponse) : (s.respond r).decodeCount = s.decodeCount := rfl
@[simp] theorem State.respond_fillLevel (s : State) (r : BusResponse) : (s.respond r).fillLevel = s.fillLevel := rfl
@[simp] theorem State.respond_walkI (s : State) (r : BusResponse) : (s.respond r).walkI = s.walkI := rfl
@[simp] theorem State.respond_walkJ (s : State) (r : BusResponse) : (s.respond r).walkJ = s.walkJ := rfl
@[simp] theorem State.respond_teeOff (s : State) (r : BusResponse) : (s.respond r).teeOff = s.teeOff := rfl
@[simp] theorem State.respond_teeRetries (s : State) (r : BusResponse) : (s.respond r).teeRetries = s.teeRetries := rfl
@[simp] theorem State.respond_fb (s : State) (r : BusResponse) : (s.respond r).fb = s.fb := rfl
@[simp] theorem State.respond_surf (s : State) (r : BusResponse) : (s.respond r).surf = s.surf := rfl
@[simp] theorem State.respond_issued (s : State) (r : BusResponse) : (s.respond r).issued = s.issued := rfl
@[simp] theorem State.respond_commandedWrites (s : State) (r : BusResponse) : (s.respond r).commandedWrites = s.commandedWrites := rfl
@[simp] theorem State.respond_countedWrites (s : State) (r : BusResponse) : (s.respond r).countedWrites = s.countedWrites := rfl
@[simp] theorem State.respond_syncedWrites (s : State) (r : BusResponse) : (s.respond r).syncedWrites = s.syncedWrites := rfl
@[simp] theorem State.respond_readerView (s : State) (r : BusResponse) : (s.respond r).readerView = s.readerView := rfl
@[simp] theorem State.respond_surfReady (s : State) (r : BusResponse) : (s.respond r).surfReady = s.surfReady := rfl
@[simp] theorem State.respond_lastResp (s : State) (r : BusResponse) : (s.respond r).lastResp = some r := rfl
@[simp] theorem State.respond_sinkBytes (s : State) (r : BusResponse) : (s.respond r).sinkBytes = s.sinkBytes := rfl
@[simp] theorem State.respond_hostQ (s : State) (r : BusResponse) : (s.respond r).hostQ = s.hostQ := rfl
@[simp] theorem State.respond_inQ (s : State) (r : BusResponse) : (s.respond r).inQ = s.inQ := rfl
@[simp] theorem State.respond_sinkQ (s : State) (r : BusResponse) : (s.respond r).sinkQ = s.sinkQ := rfl
@[simp] theorem State.respond_turns (s : State) (r : BusResponse) : (s.respond r).turns = s.turns := rfl
@[simp] theorem State.respond_resets (s : State) (r : BusResponse) : (s.respond r).resets = s.resets := rfl

/-! ### `State.writeSurface` -/

@[simp] theorem State.writeSurface_params (s : State) (ws : List SurfWrite) : (s.writeSurface ws).params = s.params := rfl
@[simp] theorem State.writeSurface_ctrl (s : State) (ws : List SurfWrite) : (s.writeSurface ws).ctrl = s.ctrl := rfl
@[simp] theorem State.writeSurface_frameGeom (s : State) (ws : List SurfWrite) : (s.writeSurface ws).frameGeom = s.frameGeom := rfl
@[simp] theorem State.writeSurface_surfGeom (s : State) (ws : List SurfWrite) : (s.writeSurface ws).surfGeom = s.surfGeom := rfl
@[simp] theorem State.writeSurface_surfStride (s : State) (ws : List SurfWrite) : (s.writeSurface ws).surfStride = s.surfStride := rfl
@[simp] theorem State.writeSurface_surfBpp (s : State) (ws : List SurfWrite) : (s.writeSurface ws).surfBpp = s.surfBpp := rfl
@[simp] theorem State.writeSurface_chanLayout (s : State) (ws : List SurfWrite) : (s.writeSurface ws).chanLayout = s.chanLayout := rfl
@[simp] theorem State.writeSurface_pixfmt (s : State) (ws : List SurfWrite) : (s.writeSurface ws).pixfmt = s.pixfmt := rfl
@[simp] theorem State.writeSurface_arg0 (s : State) (ws : List SurfWrite) : (s.writeSurface ws).arg0 = s.arg0 := rfl
@[simp] theorem State.writeSurface_arg1 (s : State) (ws : List SurfWrite) : (s.writeSurface ws).arg1 = s.arg1 := rfl
@[simp] theorem State.writeSurface_arg2 (s : State) (ws : List SurfWrite) : (s.writeSurface ws).arg2 = s.arg2 := rfl
@[simp] theorem State.writeSurface_arg3 (s : State) (ws : List SurfWrite) : (s.writeSurface ws).arg3 = s.arg3 := rfl
@[simp] theorem State.writeSurface_resRgb (s : State) (ws : List SurfWrite) : (s.writeSurface ws).resRgb = s.resRgb := rfl
@[simp] theorem State.writeSurface_resPix (s : State) (ws : List SurfWrite) : (s.writeSurface ws).resPix = s.resPix := rfl
@[simp] theorem State.writeSurface_phase (s : State) (ws : List SurfWrite) : (s.writeSurface ws).phase = s.phase := rfl
@[simp] theorem State.writeSurface_teeActive (s : State) (ws : List SurfWrite) : (s.writeSurface ws).teeActive = s.teeActive := rfl
@[simp] theorem State.writeSurface_fbValid (s : State) (ws : List SurfWrite) : (s.writeSurface ws).fbValid = s.fbValid := rfl
@[simp] theorem State.writeSurface_termCause (s : State) (ws : List SurfWrite) : (s.writeSurface ws).termCause = s.termCause := rfl
@[simp] theorem State.writeSurface_cfgErr (s : State) (ws : List SurfWrite) : (s.writeSurface ws).cfgErr = s.cfgErr := rfl
@[simp] theorem State.writeSurface_cmdErrCode (s : State) (ws : List SurfWrite) : (s.writeSurface ws).cmdErrCode = s.cmdErrCode := rfl
@[simp] theorem State.writeSurface_cmdErrCause (s : State) (ws : List SurfWrite) : (s.writeSurface ws).cmdErrCause = s.cmdErrCause := rfl
@[simp] theorem State.writeSurface_decodeCount (s : State) (ws : List SurfWrite) : (s.writeSurface ws).decodeCount = s.decodeCount := rfl
@[simp] theorem State.writeSurface_fillLevel (s : State) (ws : List SurfWrite) : (s.writeSurface ws).fillLevel = s.fillLevel := rfl
@[simp] theorem State.writeSurface_walkI (s : State) (ws : List SurfWrite) : (s.writeSurface ws).walkI = s.walkI := rfl
@[simp] theorem State.writeSurface_walkJ (s : State) (ws : List SurfWrite) : (s.writeSurface ws).walkJ = s.walkJ := rfl
@[simp] theorem State.writeSurface_teeOff (s : State) (ws : List SurfWrite) : (s.writeSurface ws).teeOff = s.teeOff := rfl
@[simp] theorem State.writeSurface_teeRetries (s : State) (ws : List SurfWrite) : (s.writeSurface ws).teeRetries = s.teeRetries := rfl
@[simp] theorem State.writeSurface_fb (s : State) (ws : List SurfWrite) : (s.writeSurface ws).fb = s.fb := rfl
@[simp] theorem State.writeSurface_surf (s : State) (ws : List SurfWrite) : (s.writeSurface ws).surf = applyWrites s.params.endian s.surf ws := rfl
@[simp] theorem State.writeSurface_issued (s : State) (ws : List SurfWrite) : (s.writeSurface ws).issued = s.issued ++ ws := rfl
@[simp] theorem State.writeSurface_commandedWrites (s : State) (ws : List SurfWrite) : (s.writeSurface ws).commandedWrites = s.commandedWrites := rfl
@[simp] theorem State.writeSurface_countedWrites (s : State) (ws : List SurfWrite) : (s.writeSurface ws).countedWrites = s.countedWrites := rfl
@[simp] theorem State.writeSurface_syncedWrites (s : State) (ws : List SurfWrite) : (s.writeSurface ws).syncedWrites = s.syncedWrites := rfl
@[simp] theorem State.writeSurface_readerView (s : State) (ws : List SurfWrite) : (s.writeSurface ws).readerView = s.readerView := rfl
@[simp] theorem State.writeSurface_surfReady (s : State) (ws : List SurfWrite) : (s.writeSurface ws).surfReady = s.surfReady := rfl
@[simp] theorem State.writeSurface_lastResp (s : State) (ws : List SurfWrite) : (s.writeSurface ws).lastResp = s.lastResp := rfl
@[simp] theorem State.writeSurface_sinkBytes (s : State) (ws : List SurfWrite) : (s.writeSurface ws).sinkBytes = s.sinkBytes := rfl
@[simp] theorem State.writeSurface_hostQ (s : State) (ws : List SurfWrite) : (s.writeSurface ws).hostQ = s.hostQ := rfl
@[simp] theorem State.writeSurface_inQ (s : State) (ws : List SurfWrite) : (s.writeSurface ws).inQ = s.inQ := rfl
@[simp] theorem State.writeSurface_sinkQ (s : State) (ws : List SurfWrite) : (s.writeSurface ws).sinkQ = s.sinkQ := rfl
@[simp] theorem State.writeSurface_turns (s : State) (ws : List SurfWrite) : (s.writeSurface ws).turns = s.turns := rfl
@[simp] theorem State.writeSurface_resets (s : State) (ws : List SurfWrite) : (s.writeSurface ws).resets = s.resets := rfl

/-! ### `State.enterDecoding` -/

@[simp] theorem State.enterDecoding_params (s : State) : (s.enterDecoding).params = s.params := rfl
@[simp] theorem State.enterDecoding_ctrl (s : State) : (s.enterDecoding).ctrl = s.ctrl := rfl
@[simp] theorem State.enterDecoding_frameGeom (s : State) : (s.enterDecoding).frameGeom = s.frameGeom := rfl
@[simp] theorem State.enterDecoding_surfGeom (s : State) : (s.enterDecoding).surfGeom = s.surfGeom := rfl
@[simp] theorem State.enterDecoding_surfStride (s : State) : (s.enterDecoding).surfStride = s.surfStride := rfl
@[simp] theorem State.enterDecoding_surfBpp (s : State) : (s.enterDecoding).surfBpp = s.surfBpp := rfl
@[simp] theorem State.enterDecoding_chanLayout (s : State) : (s.enterDecoding).chanLayout = s.chanLayout := rfl
@[simp] theorem State.enterDecoding_pixfmt (s : State) : (s.enterDecoding).pixfmt = s.pixfmt := rfl
@[simp] theorem State.enterDecoding_arg0 (s : State) : (s.enterDecoding).arg0 = s.arg0 := rfl
@[simp] theorem State.enterDecoding_arg1 (s : State) : (s.enterDecoding).arg1 = s.arg1 := rfl
@[simp] theorem State.enterDecoding_arg2 (s : State) : (s.enterDecoding).arg2 = s.arg2 := rfl
@[simp] theorem State.enterDecoding_arg3 (s : State) : (s.enterDecoding).arg3 = s.arg3 := rfl
@[simp] theorem State.enterDecoding_resRgb (s : State) : (s.enterDecoding).resRgb = s.resRgb := rfl
@[simp] theorem State.enterDecoding_resPix (s : State) : (s.enterDecoding).resPix = s.resPix := rfl
@[simp] theorem State.enterDecoding_phase (s : State) : (s.enterDecoding).phase = .decoding := rfl
@[simp] theorem State.enterDecoding_teeActive (s : State) : (s.enterDecoding).teeActive = s.teeActive := rfl
@[simp] theorem State.enterDecoding_fbValid (s : State) : (s.enterDecoding).fbValid = s.fbValid := rfl
@[simp] theorem State.enterDecoding_termCause (s : State) : (s.enterDecoding).termCause = s.termCause := rfl
@[simp] theorem State.enterDecoding_cfgErr (s : State) : (s.enterDecoding).cfgErr = s.cfgErr := rfl
@[simp] theorem State.enterDecoding_cmdErrCode (s : State) : (s.enterDecoding).cmdErrCode = s.cmdErrCode := rfl
@[simp] theorem State.enterDecoding_cmdErrCause (s : State) : (s.enterDecoding).cmdErrCause = s.cmdErrCause := rfl
@[simp] theorem State.enterDecoding_decodeCount (s : State) : (s.enterDecoding).decodeCount = s.decodeCount := rfl
@[simp] theorem State.enterDecoding_fillLevel (s : State) : (s.enterDecoding).fillLevel = s.fillLevel := rfl
@[simp] theorem State.enterDecoding_walkI (s : State) : (s.enterDecoding).walkI = 0 := rfl
@[simp] theorem State.enterDecoding_walkJ (s : State) : (s.enterDecoding).walkJ = 0 := rfl
@[simp] theorem State.enterDecoding_teeOff (s : State) : (s.enterDecoding).teeOff = s.teeOff := rfl
@[simp] theorem State.enterDecoding_teeRetries (s : State) : (s.enterDecoding).teeRetries = s.teeRetries := rfl
@[simp] theorem State.enterDecoding_fb (s : State) : (s.enterDecoding).fb = s.fb := rfl
@[simp] theorem State.enterDecoding_surf (s : State) : (s.enterDecoding).surf = s.surf := rfl
@[simp] theorem State.enterDecoding_issued (s : State) : (s.enterDecoding).issued = s.issued := rfl
@[simp] theorem State.enterDecoding_commandedWrites (s : State) : (s.enterDecoding).commandedWrites = s.commandedWrites := rfl
@[simp] theorem State.enterDecoding_countedWrites (s : State) : (s.enterDecoding).countedWrites = s.countedWrites := rfl
@[simp] theorem State.enterDecoding_syncedWrites (s : State) : (s.enterDecoding).syncedWrites = s.syncedWrites := rfl
@[simp] theorem State.enterDecoding_readerView (s : State) : (s.enterDecoding).readerView = s.readerView := rfl
@[simp] theorem State.enterDecoding_surfReady (s : State) : (s.enterDecoding).surfReady = s.surfReady := rfl
@[simp] theorem State.enterDecoding_lastResp (s : State) : (s.enterDecoding).lastResp = s.lastResp := rfl
@[simp] theorem State.enterDecoding_sinkBytes (s : State) : (s.enterDecoding).sinkBytes = s.sinkBytes := rfl
@[simp] theorem State.enterDecoding_hostQ (s : State) : (s.enterDecoding).hostQ = s.hostQ := rfl
@[simp] theorem State.enterDecoding_inQ (s : State) : (s.enterDecoding).inQ = s.inQ := rfl
@[simp] theorem State.enterDecoding_sinkQ (s : State) : (s.enterDecoding).sinkQ = s.sinkQ := rfl
@[simp] theorem State.enterDecoding_turns (s : State) : (s.enterDecoding).turns = s.turns := rfl
@[simp] theorem State.enterDecoding_resets (s : State) : (s.enterDecoding).resets = s.resets := rfl

/-! ### `State.countDecode` -/

@[simp] theorem State.countDecode_params (s : State) : (s.countDecode).params = s.params := rfl
@[simp] theorem State.countDecode_ctrl (s : State) : (s.countDecode).ctrl = s.ctrl := rfl
@[simp] theorem State.countDecode_frameGeom (s : State) : (s.countDecode).frameGeom = s.frameGeom := rfl
@[simp] theorem State.countDecode_surfGeom (s : State) : (s.countDecode).surfGeom = s.surfGeom := rfl
@[simp] theorem State.countDecode_surfStride (s : State) : (s.countDecode).surfStride = s.surfStride := rfl
@[simp] theorem State.countDecode_surfBpp (s : State) : (s.countDecode).surfBpp = s.surfBpp := rfl
@[simp] theorem State.countDecode_chanLayout (s : State) : (s.countDecode).chanLayout = s.chanLayout := rfl
@[simp] theorem State.countDecode_pixfmt (s : State) : (s.countDecode).pixfmt = s.pixfmt := rfl
@[simp] theorem State.countDecode_arg0 (s : State) : (s.countDecode).arg0 = s.arg0 := rfl
@[simp] theorem State.countDecode_arg1 (s : State) : (s.countDecode).arg1 = s.arg1 := rfl
@[simp] theorem State.countDecode_arg2 (s : State) : (s.countDecode).arg2 = s.arg2 := rfl
@[simp] theorem State.countDecode_arg3 (s : State) : (s.countDecode).arg3 = s.arg3 := rfl
@[simp] theorem State.countDecode_resRgb (s : State) : (s.countDecode).resRgb = s.resRgb := rfl
@[simp] theorem State.countDecode_resPix (s : State) : (s.countDecode).resPix = s.resPix := rfl
@[simp] theorem State.countDecode_phase (s : State) : (s.countDecode).phase = s.phase := rfl
@[simp] theorem State.countDecode_teeActive (s : State) : (s.countDecode).teeActive = s.teeActive := rfl
@[simp] theorem State.countDecode_fbValid (s : State) : (s.countDecode).fbValid = s.fbValid := rfl
@[simp] theorem State.countDecode_termCause (s : State) : (s.countDecode).termCause = s.termCause := rfl
@[simp] theorem State.countDecode_cfgErr (s : State) : (s.countDecode).cfgErr = s.cfgErr := rfl
@[simp] theorem State.countDecode_cmdErrCode (s : State) : (s.countDecode).cmdErrCode = s.cmdErrCode := rfl
@[simp] theorem State.countDecode_cmdErrCause (s : State) : (s.countDecode).cmdErrCause = s.cmdErrCause := rfl
@[simp] theorem State.countDecode_decodeCount (s : State) : (s.countDecode).decodeCount = s.decodeCount + 1 := rfl
@[simp] theorem State.countDecode_fillLevel (s : State) : (s.countDecode).fillLevel = s.fillLevel := rfl
@[simp] theorem State.countDecode_walkI (s : State) : (s.countDecode).walkI = s.walkI := rfl
@[simp] theorem State.countDecode_walkJ (s : State) : (s.countDecode).walkJ = s.walkJ := rfl
@[simp] theorem State.countDecode_teeOff (s : State) : (s.countDecode).teeOff = s.teeOff := rfl
@[simp] theorem State.countDecode_teeRetries (s : State) : (s.countDecode).teeRetries = s.teeRetries := rfl
@[simp] theorem State.countDecode_fb (s : State) : (s.countDecode).fb = s.fb := rfl
@[simp] theorem State.countDecode_surf (s : State) : (s.countDecode).surf = s.surf := rfl
@[simp] theorem State.countDecode_issued (s : State) : (s.countDecode).issued = s.issued := rfl
@[simp] theorem State.countDecode_commandedWrites (s : State) : (s.countDecode).commandedWrites = s.commandedWrites := rfl
@[simp] theorem State.countDecode_countedWrites (s : State) : (s.countDecode).countedWrites = s.issued.length := rfl
@[simp] theorem State.countDecode_syncedWrites (s : State) : (s.countDecode).syncedWrites = s.syncedWrites := rfl
@[simp] theorem State.countDecode_readerView (s : State) : (s.countDecode).readerView = s.readerView := rfl
@[simp] theorem State.countDecode_surfReady (s : State) : (s.countDecode).surfReady = s.surfReady := rfl
@[simp] theorem State.countDecode_lastResp (s : State) : (s.countDecode).lastResp = s.lastResp := rfl
@[simp] theorem State.countDecode_sinkBytes (s : State) : (s.countDecode).sinkBytes = s.sinkBytes := rfl
@[simp] theorem State.countDecode_hostQ (s : State) : (s.countDecode).hostQ = s.hostQ := rfl
@[simp] theorem State.countDecode_inQ (s : State) : (s.countDecode).inQ = s.inQ := rfl
@[simp] theorem State.countDecode_sinkQ (s : State) : (s.countDecode).sinkQ = s.sinkQ := rfl
@[simp] theorem State.countDecode_turns (s : State) : (s.countDecode).turns = s.turns := rfl
@[simp] theorem State.countDecode_resets (s : State) : (s.countDecode).resets = s.resets := rfl

/-! ### `State.completeWalk` -/

@[simp] theorem State.completeWalk_params (s : State) : (s.completeWalk).params = s.params := rfl
@[simp] theorem State.completeWalk_ctrl (s : State) : (s.completeWalk).ctrl = s.ctrl := rfl
@[simp] theorem State.completeWalk_frameGeom (s : State) : (s.completeWalk).frameGeom = s.frameGeom := rfl
@[simp] theorem State.completeWalk_surfGeom (s : State) : (s.completeWalk).surfGeom = s.surfGeom := rfl
@[simp] theorem State.completeWalk_surfStride (s : State) : (s.completeWalk).surfStride = s.surfStride := rfl
@[simp] theorem State.completeWalk_surfBpp (s : State) : (s.completeWalk).surfBpp = s.surfBpp := rfl
@[simp] theorem State.completeWalk_chanLayout (s : State) : (s.completeWalk).chanLayout = s.chanLayout := rfl
@[simp] theorem State.completeWalk_pixfmt (s : State) : (s.completeWalk).pixfmt = s.pixfmt := rfl
@[simp] theorem State.completeWalk_arg0 (s : State) : (s.completeWalk).arg0 = s.arg0 := rfl
@[simp] theorem State.completeWalk_arg1 (s : State) : (s.completeWalk).arg1 = s.arg1 := rfl
@[simp] theorem State.completeWalk_arg2 (s : State) : (s.completeWalk).arg2 = s.arg2 := rfl
@[simp] theorem State.completeWalk_arg3 (s : State) : (s.completeWalk).arg3 = s.arg3 := rfl
@[simp] theorem State.completeWalk_resRgb (s : State) : (s.completeWalk).resRgb = s.resRgb := rfl
@[simp] theorem State.completeWalk_resPix (s : State) : (s.completeWalk).resPix = s.resPix := rfl
@[simp] theorem State.completeWalk_phase (s : State) : (s.completeWalk).phase = .filling := rfl
@[simp] theorem State.completeWalk_teeActive (s : State) : (s.completeWalk).teeActive = s.teeActive := rfl
@[simp] theorem State.completeWalk_fbValid (s : State) : (s.completeWalk).fbValid = s.fbValid := rfl
@[simp] theorem State.completeWalk_termCause (s : State) : (s.completeWalk).termCause = s.termCause := rfl
@[simp] theorem State.completeWalk_cfgErr (s : State) : (s.completeWalk).cfgErr = s.cfgErr := rfl
@[simp] theorem State.completeWalk_cmdErrCode (s : State) : (s.completeWalk).cmdErrCode = s.cmdErrCode := rfl
@[simp] theorem State.completeWalk_cmdErrCause (s : State) : (s.completeWalk).cmdErrCause = s.cmdErrCause := rfl
@[simp] theorem State.completeWalk_decodeCount (s : State) : (s.completeWalk).decodeCount = s.decodeCount + 1 := rfl
@[simp] theorem State.completeWalk_fillLevel (s : State) : (s.completeWalk).fillLevel = 0 := rfl
@[simp] theorem State.completeWalk_walkI (s : State) : (s.completeWalk).walkI = s.walkI := rfl
@[simp] theorem State.completeWalk_walkJ (s : State) : (s.completeWalk).walkJ = s.walkJ := rfl
@[simp] theorem State.completeWalk_teeOff (s : State) : (s.completeWalk).teeOff = s.teeOff := rfl
@[simp] theorem State.completeWalk_teeRetries (s : State) : (s.completeWalk).teeRetries = s.teeRetries := rfl
@[simp] theorem State.completeWalk_fb (s : State) : (s.completeWalk).fb = s.fb := rfl
@[simp] theorem State.completeWalk_surf (s : State) : (s.completeWalk).surf = s.surf := rfl
@[simp] theorem State.completeWalk_issued (s : State) : (s.completeWalk).issued = s.issued := rfl
@[simp] theorem State.completeWalk_commandedWrites (s : State) : (s.completeWalk).commandedWrites = s.commandedWrites := rfl
@[simp] theorem State.completeWalk_countedWrites (s : State) : (s.completeWalk).countedWrites = s.issued.length := rfl
@[simp] theorem State.completeWalk_syncedWrites (s : State) : (s.completeWalk).syncedWrites = s.syncedWrites := rfl
@[simp] theorem State.completeWalk_readerView (s : State) : (s.completeWalk).readerView = s.readerView := rfl
@[simp] theorem State.completeWalk_surfReady (s : State) : (s.completeWalk).surfReady = s.surfReady := rfl
@[simp] theorem State.completeWalk_lastResp (s : State) : (s.completeWalk).lastResp = s.lastResp := rfl
@[simp] theorem State.completeWalk_sinkBytes (s : State) : (s.completeWalk).sinkBytes = s.sinkBytes := rfl
@[simp] theorem State.completeWalk_hostQ (s : State) : (s.completeWalk).hostQ = s.hostQ := rfl
@[simp] theorem State.completeWalk_inQ (s : State) : (s.completeWalk).inQ = s.inQ := rfl
@[simp] theorem State.completeWalk_sinkQ (s : State) : (s.completeWalk).sinkQ = s.sinkQ := rfl
@[simp] theorem State.completeWalk_turns (s : State) : (s.completeWalk).turns = s.turns := rfl
@[simp] theorem State.completeWalk_resets (s : State) : (s.completeWalk).resets = s.resets := rfl

/-! ### `State.startRun` -/

@[simp] theorem State.startRun_params (s : State) : (s.startRun).params = s.params := rfl
@[simp] theorem State.startRun_ctrl (s : State) : (s.startRun).ctrl = s.ctrl := rfl
@[simp] theorem State.startRun_frameGeom (s : State) : (s.startRun).frameGeom = s.frameGeom := rfl
@[simp] theorem State.startRun_surfGeom (s : State) : (s.startRun).surfGeom = s.surfGeom := rfl
@[simp] theorem State.startRun_surfStride (s : State) : (s.startRun).surfStride = s.surfStride := rfl
@[simp] theorem State.startRun_surfBpp (s : State) : (s.startRun).surfBpp = s.surfBpp := rfl
@[simp] theorem State.startRun_chanLayout (s : State) : (s.startRun).chanLayout = s.chanLayout := rfl
@[simp] theorem State.startRun_pixfmt (s : State) : (s.startRun).pixfmt = s.pixfmt := rfl
@[simp] theorem State.startRun_arg0 (s : State) : (s.startRun).arg0 = s.arg0 := rfl
@[simp] theorem State.startRun_arg1 (s : State) : (s.startRun).arg1 = s.arg1 := rfl
@[simp] theorem State.startRun_arg2 (s : State) : (s.startRun).arg2 = s.arg2 := rfl
@[simp] theorem State.startRun_arg3 (s : State) : (s.startRun).arg3 = s.arg3 := rfl
@[simp] theorem State.startRun_resRgb (s : State) : (s.startRun).resRgb = s.resRgb := rfl
@[simp] theorem State.startRun_resPix (s : State) : (s.startRun).resPix = s.resPix := rfl
@[simp] theorem State.startRun_phase (s : State) : (s.startRun).phase = .filling := rfl
@[simp] theorem State.startRun_teeActive (s : State) : (s.startRun).teeActive = s.teeEn := rfl
@[simp] theorem State.startRun_fbValid (s : State) : (s.startRun).fbValid = s.fbValid := rfl
@[simp] theorem State.startRun_termCause (s : State) : (s.startRun).termCause = false := rfl
@[simp] theorem State.startRun_cfgErr (s : State) : (s.startRun).cfgErr = .noCause := rfl
@[simp] theorem State.startRun_cmdErrCode (s : State) : (s.startRun).cmdErrCode = s.cmdErrCode := rfl
@[simp] theorem State.startRun_cmdErrCause (s : State) : (s.startRun).cmdErrCause = s.cmdErrCause := rfl
@[simp] theorem State.startRun_decodeCount (s : State) : (s.startRun).decodeCount = s.decodeCount := rfl
@[simp] theorem State.startRun_fillLevel (s : State) : (s.startRun).fillLevel = 0 := rfl
@[simp] theorem State.startRun_walkI (s : State) : (s.startRun).walkI = s.walkI := rfl
@[simp] theorem State.startRun_walkJ (s : State) : (s.startRun).walkJ = s.walkJ := rfl
@[simp] theorem State.startRun_teeOff (s : State) : (s.startRun).teeOff = s.teeOff := rfl
@[simp] theorem State.startRun_teeRetries (s : State) : (s.startRun).teeRetries = s.teeRetries := rfl
@[simp] theorem State.startRun_fb (s : State) : (s.startRun).fb = s.fb := rfl
@[simp] theorem State.startRun_surf (s : State) : (s.startRun).surf = s.surf := rfl
@[simp] theorem State.startRun_issued (s : State) : (s.startRun).issued = s.issued := rfl
@[simp] theorem State.startRun_commandedWrites (s : State) : (s.startRun).commandedWrites = s.commandedWrites := rfl
@[simp] theorem State.startRun_countedWrites (s : State) : (s.startRun).countedWrites = s.countedWrites := rfl
@[simp] theorem State.startRun_syncedWrites (s : State) : (s.startRun).syncedWrites = s.syncedWrites := rfl
@[simp] theorem State.startRun_readerView (s : State) : (s.startRun).readerView = s.readerView := rfl
@[simp] theorem State.startRun_surfReady (s : State) : (s.startRun).surfReady = s.surfReady := rfl
@[simp] theorem State.startRun_lastResp (s : State) : (s.startRun).lastResp = s.lastResp := rfl
@[simp] theorem State.startRun_sinkBytes (s : State) : (s.startRun).sinkBytes = s.sinkBytes := rfl
@[simp] theorem State.startRun_hostQ (s : State) : (s.startRun).hostQ = s.hostQ := rfl
@[simp] theorem State.startRun_inQ (s : State) : (s.startRun).inQ = s.inQ := rfl
@[simp] theorem State.startRun_sinkQ (s : State) : (s.startRun).sinkQ = s.sinkQ := rfl
@[simp] theorem State.startRun_turns (s : State) : (s.startRun).turns = s.turns := rfl
@[simp] theorem State.startRun_resets (s : State) : (s.startRun).resets = s.resets := rfl

/-! ### `State.appendByte` -/

@[simp] theorem State.appendByte_params (s : State) (d : Byte) : (s.appendByte d).params = s.params := rfl
@[simp] theorem State.appendByte_ctrl (s : State) (d : Byte) : (s.appendByte d).ctrl = s.ctrl := rfl
@[simp] theorem State.appendByte_frameGeom (s : State) (d : Byte) : (s.appendByte d).frameGeom = s.frameGeom := rfl
@[simp] theorem State.appendByte_surfGeom (s : State) (d : Byte) : (s.appendByte d).surfGeom = s.surfGeom := rfl
@[simp] theorem State.appendByte_surfStride (s : State) (d : Byte) : (s.appendByte d).surfStride = s.surfStride := rfl
@[simp] theorem State.appendByte_surfBpp (s : State) (d : Byte) : (s.appendByte d).surfBpp = s.surfBpp := rfl
@[simp] theorem State.appendByte_chanLayout (s : State) (d : Byte) : (s.appendByte d).chanLayout = s.chanLayout := rfl
@[simp] theorem State.appendByte_pixfmt (s : State) (d : Byte) : (s.appendByte d).pixfmt = s.pixfmt := rfl
@[simp] theorem State.appendByte_arg0 (s : State) (d : Byte) : (s.appendByte d).arg0 = s.arg0 := rfl
@[simp] theorem State.appendByte_arg1 (s : State) (d : Byte) : (s.appendByte d).arg1 = s.arg1 := rfl
@[simp] theorem State.appendByte_arg2 (s : State) (d : Byte) : (s.appendByte d).arg2 = s.arg2 := rfl
@[simp] theorem State.appendByte_arg3 (s : State) (d : Byte) : (s.appendByte d).arg3 = s.arg3 := rfl
@[simp] theorem State.appendByte_resRgb (s : State) (d : Byte) : (s.appendByte d).resRgb = s.resRgb := rfl
@[simp] theorem State.appendByte_resPix (s : State) (d : Byte) : (s.appendByte d).resPix = s.resPix := rfl
@[simp] theorem State.appendByte_phase (s : State) (d : Byte) : (s.appendByte d).phase = s.phase := rfl
@[simp] theorem State.appendByte_teeActive (s : State) (d : Byte) : (s.appendByte d).teeActive = s.teeActive := rfl
@[simp] theorem State.appendByte_fbValid (s : State) (d : Byte) : (s.appendByte d).fbValid = if s.fillLevel = 0 then false else s.fbValid := rfl
@[simp] theorem State.appendByte_termCause (s : State) (d : Byte) : (s.appendByte d).termCause = s.termCause := rfl
@[simp] theorem State.appendByte_cfgErr (s : State) (d : Byte) : (s.appendByte d).cfgErr = s.cfgErr := rfl
@[simp] theorem State.appendByte_cmdErrCode (s : State) (d : Byte) : (s.appendByte d).cmdErrCode = s.cmdErrCode := rfl
@[simp] theorem State.appendByte_cmdErrCause (s : State) (d : Byte) : (s.appendByte d).cmdErrCause = s.cmdErrCause := rfl
@[simp] theorem State.appendByte_decodeCount (s : State) (d : Byte) : (s.appendByte d).decodeCount = s.decodeCount := rfl
@[simp] theorem State.appendByte_fillLevel (s : State) (d : Byte) : (s.appendByte d).fillLevel = s.fillLevel + 1 := rfl
@[simp] theorem State.appendByte_walkI (s : State) (d : Byte) : (s.appendByte d).walkI = s.walkI := rfl
@[simp] theorem State.appendByte_walkJ (s : State) (d : Byte) : (s.appendByte d).walkJ = s.walkJ := rfl
@[simp] theorem State.appendByte_teeOff (s : State) (d : Byte) : (s.appendByte d).teeOff = s.teeOff := rfl
@[simp] theorem State.appendByte_teeRetries (s : State) (d : Byte) : (s.appendByte d).teeRetries = s.teeRetries := rfl
@[simp] theorem State.appendByte_fb (s : State) (d : Byte) : (s.appendByte d).fb = s.fb.write s.fillLevel.toNat d := rfl
@[simp] theorem State.appendByte_surf (s : State) (d : Byte) : (s.appendByte d).surf = s.surf := rfl
@[simp] theorem State.appendByte_issued (s : State) (d : Byte) : (s.appendByte d).issued = s.issued := rfl
@[simp] theorem State.appendByte_commandedWrites (s : State) (d : Byte) : (s.appendByte d).commandedWrites = s.commandedWrites := rfl
@[simp] theorem State.appendByte_countedWrites (s : State) (d : Byte) : (s.appendByte d).countedWrites = s.countedWrites := rfl
@[simp] theorem State.appendByte_syncedWrites (s : State) (d : Byte) : (s.appendByte d).syncedWrites = s.syncedWrites := rfl
@[simp] theorem State.appendByte_readerView (s : State) (d : Byte) : (s.appendByte d).readerView = s.readerView := rfl
@[simp] theorem State.appendByte_surfReady (s : State) (d : Byte) : (s.appendByte d).surfReady = s.surfReady := rfl
@[simp] theorem State.appendByte_lastResp (s : State) (d : Byte) : (s.appendByte d).lastResp = s.lastResp := rfl
@[simp] theorem State.appendByte_sinkBytes (s : State) (d : Byte) : (s.appendByte d).sinkBytes = s.sinkBytes := rfl
@[simp] theorem State.appendByte_hostQ (s : State) (d : Byte) : (s.appendByte d).hostQ = s.hostQ := rfl
@[simp] theorem State.appendByte_inQ (s : State) (d : Byte) : (s.appendByte d).inQ = s.inQ := rfl
@[simp] theorem State.appendByte_sinkQ (s : State) (d : Byte) : (s.appendByte d).sinkQ = s.sinkQ := rfl
@[simp] theorem State.appendByte_turns (s : State) (d : Byte) : (s.appendByte d).turns = s.turns := rfl
@[simp] theorem State.appendByte_resets (s : State) (d : Byte) : (s.appendByte d).resets = s.resets := rfl

/-! ### `State.abandonTee` -/

@[simp] theorem State.abandonTee_params (s : State) : (s.abandonTee).params = s.params := rfl
@[simp] theorem State.abandonTee_ctrl (s : State) : (s.abandonTee).ctrl = s.ctrl := rfl
@[simp] theorem State.abandonTee_frameGeom (s : State) : (s.abandonTee).frameGeom = s.frameGeom := rfl
@[simp] theorem State.abandonTee_surfGeom (s : State) : (s.abandonTee).surfGeom = s.surfGeom := rfl
@[simp] theorem State.abandonTee_surfStride (s : State) : (s.abandonTee).surfStride = s.surfStride := rfl
@[simp] theorem State.abandonTee_surfBpp (s : State) : (s.abandonTee).surfBpp = s.surfBpp := rfl
@[simp] theorem State.abandonTee_chanLayout (s : State) : (s.abandonTee).chanLayout = s.chanLayout := rfl
@[simp] theorem State.abandonTee_pixfmt (s : State) : (s.abandonTee).pixfmt = s.pixfmt := rfl
@[simp] theorem State.abandonTee_arg0 (s : State) : (s.abandonTee).arg0 = s.arg0 := rfl
@[simp] theorem State.abandonTee_arg1 (s : State) : (s.abandonTee).arg1 = s.arg1 := rfl
@[simp] theorem State.abandonTee_arg2 (s : State) : (s.abandonTee).arg2 = s.arg2 := rfl
@[simp] theorem State.abandonTee_arg3 (s : State) : (s.abandonTee).arg3 = s.arg3 := rfl
@[simp] theorem State.abandonTee_resRgb (s : State) : (s.abandonTee).resRgb = s.resRgb := rfl
@[simp] theorem State.abandonTee_resPix (s : State) : (s.abandonTee).resPix = s.resPix := rfl
@[simp] theorem State.abandonTee_phase (s : State) : (s.abandonTee).phase = .decoding := rfl
@[simp] theorem State.abandonTee_teeActive (s : State) : (s.abandonTee).teeActive = false := rfl
@[simp] theorem State.abandonTee_fbValid (s : State) : (s.abandonTee).fbValid = s.fbValid := rfl
@[simp] theorem State.abandonTee_termCause (s : State) : (s.abandonTee).termCause = s.termCause := rfl
@[simp] theorem State.abandonTee_cfgErr (s : State) : (s.abandonTee).cfgErr = s.cfgErr := rfl
@[simp] theorem State.abandonTee_cmdErrCode (s : State) : (s.abandonTee).cmdErrCode = s.cmdErrCode := rfl
@[simp] theorem State.abandonTee_cmdErrCause (s : State) : (s.abandonTee).cmdErrCause = s.cmdErrCause := rfl
@[simp] theorem State.abandonTee_decodeCount (s : State) : (s.abandonTee).decodeCount = s.decodeCount := rfl
@[simp] theorem State.abandonTee_fillLevel (s : State) : (s.abandonTee).fillLevel = s.fillLevel := rfl
@[simp] theorem State.abandonTee_walkI (s : State) : (s.abandonTee).walkI = 0 := rfl
@[simp] theorem State.abandonTee_walkJ (s : State) : (s.abandonTee).walkJ = 0 := rfl
@[simp] theorem State.abandonTee_teeOff (s : State) : (s.abandonTee).teeOff = s.teeOff := rfl
@[simp] theorem State.abandonTee_teeRetries (s : State) : (s.abandonTee).teeRetries = s.teeRetries := rfl
@[simp] theorem State.abandonTee_fb (s : State) : (s.abandonTee).fb = s.fb := rfl
@[simp] theorem State.abandonTee_surf (s : State) : (s.abandonTee).surf = s.surf := rfl
@[simp] theorem State.abandonTee_issued (s : State) : (s.abandonTee).issued = s.issued := rfl
@[simp] theorem State.abandonTee_commandedWrites (s : State) : (s.abandonTee).commandedWrites = s.commandedWrites := rfl
@[simp] theorem State.abandonTee_countedWrites (s : State) : (s.abandonTee).countedWrites = s.countedWrites := rfl
@[simp] theorem State.abandonTee_syncedWrites (s : State) : (s.abandonTee).syncedWrites = s.syncedWrites := rfl
@[simp] theorem State.abandonTee_readerView (s : State) : (s.abandonTee).readerView = s.readerView := rfl
@[simp] theorem State.abandonTee_surfReady (s : State) : (s.abandonTee).surfReady = s.surfReady := rfl
@[simp] theorem State.abandonTee_lastResp (s : State) : (s.abandonTee).lastResp = s.lastResp := rfl
@[simp] theorem State.abandonTee_sinkBytes (s : State) : (s.abandonTee).sinkBytes = s.sinkBytes := rfl
@[simp] theorem State.abandonTee_hostQ (s : State) : (s.abandonTee).hostQ = s.hostQ := rfl
@[simp] theorem State.abandonTee_inQ (s : State) : (s.abandonTee).inQ = s.inQ := rfl
@[simp] theorem State.abandonTee_sinkQ (s : State) : (s.abandonTee).sinkQ = s.sinkQ := rfl
@[simp] theorem State.abandonTee_turns (s : State) : (s.abandonTee).turns = s.turns := rfl
@[simp] theorem State.abandonTee_resets (s : State) : (s.abandonTee).resets = s.resets := rfl

/-! ### `State.resetEvent`: the reset values of R261, and what reset does not touch -/

@[simp] theorem State.resetEvent_params (s : State) : s.resetEvent.params = s.params := rfl
@[simp] theorem State.resetEvent_ctrl (s : State) : s.resetEvent.ctrl = State.reset.ctrl := rfl
@[simp] theorem State.resetEvent_frameGeom (s : State) : s.resetEvent.frameGeom = State.reset.frameGeom := rfl
@[simp] theorem State.resetEvent_surfGeom (s : State) : s.resetEvent.surfGeom = State.reset.surfGeom := rfl
@[simp] theorem State.resetEvent_surfStride (s : State) : s.resetEvent.surfStride = State.reset.surfStride := rfl
@[simp] theorem State.resetEvent_surfBpp (s : State) : s.resetEvent.surfBpp = State.reset.surfBpp := rfl
@[simp] theorem State.resetEvent_chanLayout (s : State) : s.resetEvent.chanLayout = State.reset.chanLayout := rfl
@[simp] theorem State.resetEvent_pixfmt (s : State) : s.resetEvent.pixfmt = State.reset.pixfmt := rfl
@[simp] theorem State.resetEvent_arg0 (s : State) : s.resetEvent.arg0 = State.reset.arg0 := rfl
@[simp] theorem State.resetEvent_arg1 (s : State) : s.resetEvent.arg1 = State.reset.arg1 := rfl
@[simp] theorem State.resetEvent_arg2 (s : State) : s.resetEvent.arg2 = State.reset.arg2 := rfl
@[simp] theorem State.resetEvent_arg3 (s : State) : s.resetEvent.arg3 = State.reset.arg3 := rfl
@[simp] theorem State.resetEvent_resRgb (s : State) : s.resetEvent.resRgb = State.reset.resRgb := rfl
@[simp] theorem State.resetEvent_resPix (s : State) : s.resetEvent.resPix = State.reset.resPix := rfl
@[simp] theorem State.resetEvent_phase (s : State) : s.resetEvent.phase = State.reset.phase := rfl
@[simp] theorem State.resetEvent_teeActive (s : State) : s.resetEvent.teeActive = State.reset.teeActive := rfl
@[simp] theorem State.resetEvent_fbValid (s : State) : s.resetEvent.fbValid = State.reset.fbValid := rfl
@[simp] theorem State.resetEvent_termCause (s : State) : s.resetEvent.termCause = State.reset.termCause := rfl
@[simp] theorem State.resetEvent_cfgErr (s : State) : s.resetEvent.cfgErr = State.reset.cfgErr := rfl
@[simp] theorem State.resetEvent_cmdErrCode (s : State) : s.resetEvent.cmdErrCode = State.reset.cmdErrCode := rfl
@[simp] theorem State.resetEvent_cmdErrCause (s : State) : s.resetEvent.cmdErrCause = State.reset.cmdErrCause := rfl
@[simp] theorem State.resetEvent_decodeCount (s : State) : s.resetEvent.decodeCount = State.reset.decodeCount := rfl
@[simp] theorem State.resetEvent_fillLevel (s : State) : s.resetEvent.fillLevel = State.reset.fillLevel := rfl
@[simp] theorem State.resetEvent_walkI (s : State) : s.resetEvent.walkI = State.reset.walkI := rfl
@[simp] theorem State.resetEvent_walkJ (s : State) : s.resetEvent.walkJ = State.reset.walkJ := rfl
@[simp] theorem State.resetEvent_teeOff (s : State) : s.resetEvent.teeOff = State.reset.teeOff := rfl
@[simp] theorem State.resetEvent_teeRetries (s : State) : s.resetEvent.teeRetries = State.reset.teeRetries := rfl
@[simp] theorem State.resetEvent_fb (s : State) : s.resetEvent.fb = State.reset.fb := rfl
@[simp] theorem State.resetEvent_surf (s : State) : s.resetEvent.surf = s.surf := rfl
@[simp] theorem State.resetEvent_issued (s : State) : s.resetEvent.issued = s.issued := rfl
@[simp] theorem State.resetEvent_commandedWrites (s : State) : s.resetEvent.commandedWrites = s.commandedWrites := rfl
@[simp] theorem State.resetEvent_countedWrites (s : State) : s.resetEvent.countedWrites = 0 := rfl
@[simp] theorem State.resetEvent_syncedWrites (s : State) : s.resetEvent.syncedWrites = s.syncedWrites := rfl
@[simp] theorem State.resetEvent_readerView (s : State) : s.resetEvent.readerView = s.readerView := rfl
@[simp] theorem State.resetEvent_surfReady (s : State) : s.resetEvent.surfReady = s.surfReady := rfl
@[simp] theorem State.resetEvent_lastResp (s : State) : s.resetEvent.lastResp = State.reset.lastResp := rfl
@[simp] theorem State.resetEvent_sinkBytes (s : State) : s.resetEvent.sinkBytes = s.sinkBytes := rfl
@[simp] theorem State.resetEvent_hostQ (s : State) : s.resetEvent.hostQ = s.hostQ := rfl
@[simp] theorem State.resetEvent_inQ (s : State) : s.resetEvent.inQ = s.inQ := rfl
@[simp] theorem State.resetEvent_sinkQ (s : State) : s.resetEvent.sinkQ = s.sinkQ := rfl
@[simp] theorem State.resetEvent_turns (s : State) : s.resetEvent.turns = s.turns := rfl
@[simp] theorem State.resetEvent_resets (s : State) : s.resetEvent.resets = s.resets + 1 := rfl

/-! ### `State.readSurface` -/

@[simp] theorem State.readSurface_params (s : State) (n : Nat) : (s.readSurface n).params = s.params := rfl
@[simp] theorem State.readSurface_ctrl (s : State) (n : Nat) : (s.readSurface n).ctrl = s.ctrl := rfl
@[simp] theorem State.readSurface_frameGeom (s : State) (n : Nat) : (s.readSurface n).frameGeom = s.frameGeom := rfl
@[simp] theorem State.readSurface_surfGeom (s : State) (n : Nat) : (s.readSurface n).surfGeom = s.surfGeom := rfl
@[simp] theorem State.readSurface_surfStride (s : State) (n : Nat) : (s.readSurface n).surfStride = s.surfStride := rfl
@[simp] theorem State.readSurface_surfBpp (s : State) (n : Nat) : (s.readSurface n).surfBpp = s.surfBpp := rfl
@[simp] theorem State.readSurface_chanLayout (s : State) (n : Nat) : (s.readSurface n).chanLayout = s.chanLayout := rfl
@[simp] theorem State.readSurface_pixfmt (s : State) (n : Nat) : (s.readSurface n).pixfmt = s.pixfmt := rfl
@[simp] theorem State.readSurface_arg0 (s : State) (n : Nat) : (s.readSurface n).arg0 = s.arg0 := rfl
@[simp] theorem State.readSurface_arg1 (s : State) (n : Nat) : (s.readSurface n).arg1 = s.arg1 := rfl
@[simp] theorem State.readSurface_arg2 (s : State) (n : Nat) : (s.readSurface n).arg2 = s.arg2 := rfl
@[simp] theorem State.readSurface_arg3 (s : State) (n : Nat) : (s.readSurface n).arg3 = s.arg3 := rfl
@[simp] theorem State.readSurface_resRgb (s : State) (n : Nat) : (s.readSurface n).resRgb = s.resRgb := rfl
@[simp] theorem State.readSurface_resPix (s : State) (n : Nat) : (s.readSurface n).resPix = s.resPix := rfl
@[simp] theorem State.readSurface_phase (s : State) (n : Nat) : (s.readSurface n).phase = s.phase := rfl
@[simp] theorem State.readSurface_teeActive (s : State) (n : Nat) : (s.readSurface n).teeActive = s.teeActive := rfl
@[simp] theorem State.readSurface_fbValid (s : State) (n : Nat) : (s.readSurface n).fbValid = s.fbValid := rfl
@[simp] theorem State.readSurface_termCause (s : State) (n : Nat) : (s.readSurface n).termCause = s.termCause := rfl
@[simp] theorem State.readSurface_cfgErr (s : State) (n : Nat) : (s.readSurface n).cfgErr = s.cfgErr := rfl
@[simp] theorem State.readSurface_cmdErrCode (s : State) (n : Nat) : (s.readSurface n).cmdErrCode = s.cmdErrCode := rfl
@[simp] theorem State.readSurface_cmdErrCause (s : State) (n : Nat) : (s.readSurface n).cmdErrCause = s.cmdErrCause := rfl
@[simp] theorem State.readSurface_decodeCount (s : State) (n : Nat) : (s.readSurface n).decodeCount = s.decodeCount := rfl
@[simp] theorem State.readSurface_fillLevel (s : State) (n : Nat) : (s.readSurface n).fillLevel = s.fillLevel := rfl
@[simp] theorem State.readSurface_walkI (s : State) (n : Nat) : (s.readSurface n).walkI = s.walkI := rfl
@[simp] theorem State.readSurface_walkJ (s : State) (n : Nat) : (s.readSurface n).walkJ = s.walkJ := rfl
@[simp] theorem State.readSurface_teeOff (s : State) (n : Nat) : (s.readSurface n).teeOff = s.teeOff := rfl
@[simp] theorem State.readSurface_teeRetries (s : State) (n : Nat) : (s.readSurface n).teeRetries = s.teeRetries := rfl
@[simp] theorem State.readSurface_fb (s : State) (n : Nat) : (s.readSurface n).fb = s.fb := rfl
@[simp] theorem State.readSurface_surf (s : State) (n : Nat) : (s.readSurface n).surf = s.surf := rfl
@[simp] theorem State.readSurface_issued (s : State) (n : Nat) : (s.readSurface n).issued = s.issued := rfl
@[simp] theorem State.readSurface_commandedWrites (s : State) (n : Nat) : (s.readSurface n).commandedWrites = s.commandedWrites := rfl
@[simp] theorem State.readSurface_countedWrites (s : State) (n : Nat) : (s.readSurface n).countedWrites = s.countedWrites := rfl
@[simp] theorem State.readSurface_syncedWrites (s : State) (n : Nat) : (s.readSurface n).syncedWrites = s.syncedWrites := rfl
@[simp] theorem State.readSurface_readerView (s : State) (n : Nat) : (s.readSurface n).readerView = some (s.prefixView n) := rfl
@[simp] theorem State.readSurface_surfReady (s : State) (n : Nat) : (s.readSurface n).surfReady = s.surfReady := rfl
@[simp] theorem State.readSurface_lastResp (s : State) (n : Nat) : (s.readSurface n).lastResp = s.lastResp := rfl
@[simp] theorem State.readSurface_sinkBytes (s : State) (n : Nat) : (s.readSurface n).sinkBytes = s.sinkBytes := rfl
@[simp] theorem State.readSurface_hostQ (s : State) (n : Nat) : (s.readSurface n).hostQ = s.hostQ := rfl
@[simp] theorem State.readSurface_inQ (s : State) (n : Nat) : (s.readSurface n).inQ = s.inQ := rfl
@[simp] theorem State.readSurface_sinkQ (s : State) (n : Nat) : (s.readSurface n).sinkQ = s.sinkQ := rfl
@[simp] theorem State.readSurface_turns (s : State) (n : Nat) : (s.readSurface n).turns = s.turns := rfl
@[simp] theorem State.readSurface_resets (s : State) (n : Nat) : (s.readSurface n).resets = s.resets := rfl

/-! ### `State.readAfterPoll` -/

@[simp] theorem State.readAfterPoll_params (s : State) (n : Nat) : (s.readAfterPoll n).params = s.params := rfl
@[simp] theorem State.readAfterPoll_ctrl (s : State) (n : Nat) : (s.readAfterPoll n).ctrl = s.ctrl := rfl
@[simp] theorem State.readAfterPoll_frameGeom (s : State) (n : Nat) : (s.readAfterPoll n).frameGeom = s.frameGeom := rfl
@[simp] theorem State.readAfterPoll_surfGeom (s : State) (n : Nat) : (s.readAfterPoll n).surfGeom = s.surfGeom := rfl
@[simp] theorem State.readAfterPoll_surfStride (s : State) (n : Nat) : (s.readAfterPoll n).surfStride = s.surfStride := rfl
@[simp] theorem State.readAfterPoll_surfBpp (s : State) (n : Nat) : (s.readAfterPoll n).surfBpp = s.surfBpp := rfl
@[simp] theorem State.readAfterPoll_chanLayout (s : State) (n : Nat) : (s.readAfterPoll n).chanLayout = s.chanLayout := rfl
@[simp] theorem State.readAfterPoll_pixfmt (s : State) (n : Nat) : (s.readAfterPoll n).pixfmt = s.pixfmt := rfl
@[simp] theorem State.readAfterPoll_arg0 (s : State) (n : Nat) : (s.readAfterPoll n).arg0 = s.arg0 := rfl
@[simp] theorem State.readAfterPoll_arg1 (s : State) (n : Nat) : (s.readAfterPoll n).arg1 = s.arg1 := rfl
@[simp] theorem State.readAfterPoll_arg2 (s : State) (n : Nat) : (s.readAfterPoll n).arg2 = s.arg2 := rfl
@[simp] theorem State.readAfterPoll_arg3 (s : State) (n : Nat) : (s.readAfterPoll n).arg3 = s.arg3 := rfl
@[simp] theorem State.readAfterPoll_resRgb (s : State) (n : Nat) : (s.readAfterPoll n).resRgb = s.resRgb := rfl
@[simp] theorem State.readAfterPoll_resPix (s : State) (n : Nat) : (s.readAfterPoll n).resPix = s.resPix := rfl
@[simp] theorem State.readAfterPoll_phase (s : State) (n : Nat) : (s.readAfterPoll n).phase = s.phase := rfl
@[simp] theorem State.readAfterPoll_teeActive (s : State) (n : Nat) : (s.readAfterPoll n).teeActive = s.teeActive := rfl
@[simp] theorem State.readAfterPoll_fbValid (s : State) (n : Nat) : (s.readAfterPoll n).fbValid = s.fbValid := rfl
@[simp] theorem State.readAfterPoll_termCause (s : State) (n : Nat) : (s.readAfterPoll n).termCause = s.termCause := rfl
@[simp] theorem State.readAfterPoll_cfgErr (s : State) (n : Nat) : (s.readAfterPoll n).cfgErr = s.cfgErr := rfl
@[simp] theorem State.readAfterPoll_cmdErrCode (s : State) (n : Nat) : (s.readAfterPoll n).cmdErrCode = s.cmdErrCode := rfl
@[simp] theorem State.readAfterPoll_cmdErrCause (s : State) (n : Nat) : (s.readAfterPoll n).cmdErrCause = s.cmdErrCause := rfl
@[simp] theorem State.readAfterPoll_decodeCount (s : State) (n : Nat) : (s.readAfterPoll n).decodeCount = s.decodeCount := rfl
@[simp] theorem State.readAfterPoll_fillLevel (s : State) (n : Nat) : (s.readAfterPoll n).fillLevel = s.fillLevel := rfl
@[simp] theorem State.readAfterPoll_walkI (s : State) (n : Nat) : (s.readAfterPoll n).walkI = s.walkI := rfl
@[simp] theorem State.readAfterPoll_walkJ (s : State) (n : Nat) : (s.readAfterPoll n).walkJ = s.walkJ := rfl
@[simp] theorem State.readAfterPoll_teeOff (s : State) (n : Nat) : (s.readAfterPoll n).teeOff = s.teeOff := rfl
@[simp] theorem State.readAfterPoll_teeRetries (s : State) (n : Nat) : (s.readAfterPoll n).teeRetries = s.teeRetries := rfl
@[simp] theorem State.readAfterPoll_fb (s : State) (n : Nat) : (s.readAfterPoll n).fb = s.fb := rfl
@[simp] theorem State.readAfterPoll_surf (s : State) (n : Nat) : (s.readAfterPoll n).surf = s.surf := rfl
@[simp] theorem State.readAfterPoll_issued (s : State) (n : Nat) : (s.readAfterPoll n).issued = s.issued := rfl
@[simp] theorem State.readAfterPoll_commandedWrites (s : State) (n : Nat) : (s.readAfterPoll n).commandedWrites = s.commandedWrites := rfl
@[simp] theorem State.readAfterPoll_countedWrites (s : State) (n : Nat) : (s.readAfterPoll n).countedWrites = s.countedWrites := rfl
@[simp] theorem State.readAfterPoll_syncedWrites (s : State) (n : Nat) : (s.readAfterPoll n).syncedWrites = s.syncedWrites := rfl
@[simp] theorem State.readAfterPoll_readerView (s : State) (n : Nat) : (s.readAfterPoll n).readerView = some (s.prefixView (max n s.syncedWrites)) := rfl
@[simp] theorem State.readAfterPoll_surfReady (s : State) (n : Nat) : (s.readAfterPoll n).surfReady = s.surfReady := rfl
@[simp] theorem State.readAfterPoll_lastResp (s : State) (n : Nat) : (s.readAfterPoll n).lastResp = s.lastResp := rfl
@[simp] theorem State.readAfterPoll_sinkBytes (s : State) (n : Nat) : (s.readAfterPoll n).sinkBytes = s.sinkBytes := rfl
@[simp] theorem State.readAfterPoll_hostQ (s : State) (n : Nat) : (s.readAfterPoll n).hostQ = s.hostQ := rfl
@[simp] theorem State.readAfterPoll_inQ (s : State) (n : Nat) : (s.readAfterPoll n).inQ = s.inQ := rfl
@[simp] theorem State.readAfterPoll_sinkQ (s : State) (n : Nat) : (s.readAfterPoll n).sinkQ = s.sinkQ := rfl
@[simp] theorem State.readAfterPoll_turns (s : State) (n : Nat) : (s.readAfterPoll n).turns = s.turns := rfl
@[simp] theorem State.readAfterPoll_resets (s : State) (n : Nat) : (s.readAfterPoll n).resets = s.resets := rfl

/-! ### `State.readAfterCommand` -/

@[simp] theorem State.readAfterCommand_params (s : State) (n : Nat) : (s.readAfterCommand n).params = s.params := rfl
@[simp] theorem State.readAfterCommand_ctrl (s : State) (n : Nat) : (s.readAfterCommand n).ctrl = s.ctrl := rfl
@[simp] theorem State.readAfterCommand_frameGeom (s : State) (n : Nat) : (s.readAfterCommand n).frameGeom = s.frameGeom := rfl
@[simp] theorem State.readAfterCommand_surfGeom (s : State) (n : Nat) : (s.readAfterCommand n).surfGeom = s.surfGeom := rfl
@[simp] theorem State.readAfterCommand_surfStride (s : State) (n : Nat) : (s.readAfterCommand n).surfStride = s.surfStride := rfl
@[simp] theorem State.readAfterCommand_surfBpp (s : State) (n : Nat) : (s.readAfterCommand n).surfBpp = s.surfBpp := rfl
@[simp] theorem State.readAfterCommand_chanLayout (s : State) (n : Nat) : (s.readAfterCommand n).chanLayout = s.chanLayout := rfl
@[simp] theorem State.readAfterCommand_pixfmt (s : State) (n : Nat) : (s.readAfterCommand n).pixfmt = s.pixfmt := rfl
@[simp] theorem State.readAfterCommand_arg0 (s : State) (n : Nat) : (s.readAfterCommand n).arg0 = s.arg0 := rfl
@[simp] theorem State.readAfterCommand_arg1 (s : State) (n : Nat) : (s.readAfterCommand n).arg1 = s.arg1 := rfl
@[simp] theorem State.readAfterCommand_arg2 (s : State) (n : Nat) : (s.readAfterCommand n).arg2 = s.arg2 := rfl
@[simp] theorem State.readAfterCommand_arg3 (s : State) (n : Nat) : (s.readAfterCommand n).arg3 = s.arg3 := rfl
@[simp] theorem State.readAfterCommand_resRgb (s : State) (n : Nat) : (s.readAfterCommand n).resRgb = s.resRgb := rfl
@[simp] theorem State.readAfterCommand_resPix (s : State) (n : Nat) : (s.readAfterCommand n).resPix = s.resPix := rfl
@[simp] theorem State.readAfterCommand_phase (s : State) (n : Nat) : (s.readAfterCommand n).phase = s.phase := rfl
@[simp] theorem State.readAfterCommand_teeActive (s : State) (n : Nat) : (s.readAfterCommand n).teeActive = s.teeActive := rfl
@[simp] theorem State.readAfterCommand_fbValid (s : State) (n : Nat) : (s.readAfterCommand n).fbValid = s.fbValid := rfl
@[simp] theorem State.readAfterCommand_termCause (s : State) (n : Nat) : (s.readAfterCommand n).termCause = s.termCause := rfl
@[simp] theorem State.readAfterCommand_cfgErr (s : State) (n : Nat) : (s.readAfterCommand n).cfgErr = s.cfgErr := rfl
@[simp] theorem State.readAfterCommand_cmdErrCode (s : State) (n : Nat) : (s.readAfterCommand n).cmdErrCode = s.cmdErrCode := rfl
@[simp] theorem State.readAfterCommand_cmdErrCause (s : State) (n : Nat) : (s.readAfterCommand n).cmdErrCause = s.cmdErrCause := rfl
@[simp] theorem State.readAfterCommand_decodeCount (s : State) (n : Nat) : (s.readAfterCommand n).decodeCount = s.decodeCount := rfl
@[simp] theorem State.readAfterCommand_fillLevel (s : State) (n : Nat) : (s.readAfterCommand n).fillLevel = s.fillLevel := rfl
@[simp] theorem State.readAfterCommand_walkI (s : State) (n : Nat) : (s.readAfterCommand n).walkI = s.walkI := rfl
@[simp] theorem State.readAfterCommand_walkJ (s : State) (n : Nat) : (s.readAfterCommand n).walkJ = s.walkJ := rfl
@[simp] theorem State.readAfterCommand_teeOff (s : State) (n : Nat) : (s.readAfterCommand n).teeOff = s.teeOff := rfl
@[simp] theorem State.readAfterCommand_teeRetries (s : State) (n : Nat) : (s.readAfterCommand n).teeRetries = s.teeRetries := rfl
@[simp] theorem State.readAfterCommand_fb (s : State) (n : Nat) : (s.readAfterCommand n).fb = s.fb := rfl
@[simp] theorem State.readAfterCommand_surf (s : State) (n : Nat) : (s.readAfterCommand n).surf = s.surf := rfl
@[simp] theorem State.readAfterCommand_issued (s : State) (n : Nat) : (s.readAfterCommand n).issued = s.issued := rfl
@[simp] theorem State.readAfterCommand_commandedWrites (s : State) (n : Nat) : (s.readAfterCommand n).commandedWrites = s.commandedWrites := rfl
@[simp] theorem State.readAfterCommand_countedWrites (s : State) (n : Nat) : (s.readAfterCommand n).countedWrites = s.countedWrites := rfl
@[simp] theorem State.readAfterCommand_syncedWrites (s : State) (n : Nat) : (s.readAfterCommand n).syncedWrites = s.syncedWrites := rfl
@[simp] theorem State.readAfterCommand_readerView (s : State) (n : Nat) : (s.readAfterCommand n).readerView = some (s.prefixView (max n s.commandedWrites)) := rfl
@[simp] theorem State.readAfterCommand_surfReady (s : State) (n : Nat) : (s.readAfterCommand n).surfReady = s.surfReady := rfl
@[simp] theorem State.readAfterCommand_lastResp (s : State) (n : Nat) : (s.readAfterCommand n).lastResp = s.lastResp := rfl
@[simp] theorem State.readAfterCommand_sinkBytes (s : State) (n : Nat) : (s.readAfterCommand n).sinkBytes = s.sinkBytes := rfl
@[simp] theorem State.readAfterCommand_hostQ (s : State) (n : Nat) : (s.readAfterCommand n).hostQ = s.hostQ := rfl
@[simp] theorem State.readAfterCommand_inQ (s : State) (n : Nat) : (s.readAfterCommand n).inQ = s.inQ := rfl
@[simp] theorem State.readAfterCommand_sinkQ (s : State) (n : Nat) : (s.readAfterCommand n).sinkQ = s.sinkQ := rfl
@[simp] theorem State.readAfterCommand_turns (s : State) (n : Nat) : (s.readAfterCommand n).turns = s.turns := rfl
@[simp] theorem State.readAfterCommand_resets (s : State) (n : Nat) : (s.readAfterCommand n).resets = s.resets := rfl

/-! ### `State.syncReader` -/

@[simp] theorem State.syncReader_params (s : State) (n : Nat) : (s.syncReader n).params = s.params := rfl
@[simp] theorem State.syncReader_ctrl (s : State) (n : Nat) : (s.syncReader n).ctrl = s.ctrl := rfl
@[simp] theorem State.syncReader_frameGeom (s : State) (n : Nat) : (s.syncReader n).frameGeom = s.frameGeom := rfl
@[simp] theorem State.syncReader_surfGeom (s : State) (n : Nat) : (s.syncReader n).surfGeom = s.surfGeom := rfl
@[simp] theorem State.syncReader_surfStride (s : State) (n : Nat) : (s.syncReader n).surfStride = s.surfStride := rfl
@[simp] theorem State.syncReader_surfBpp (s : State) (n : Nat) : (s.syncReader n).surfBpp = s.surfBpp := rfl
@[simp] theorem State.syncReader_chanLayout (s : State) (n : Nat) : (s.syncReader n).chanLayout = s.chanLayout := rfl
@[simp] theorem State.syncReader_pixfmt (s : State) (n : Nat) : (s.syncReader n).pixfmt = s.pixfmt := rfl
@[simp] theorem State.syncReader_arg0 (s : State) (n : Nat) : (s.syncReader n).arg0 = s.arg0 := rfl
@[simp] theorem State.syncReader_arg1 (s : State) (n : Nat) : (s.syncReader n).arg1 = s.arg1 := rfl
@[simp] theorem State.syncReader_arg2 (s : State) (n : Nat) : (s.syncReader n).arg2 = s.arg2 := rfl
@[simp] theorem State.syncReader_arg3 (s : State) (n : Nat) : (s.syncReader n).arg3 = s.arg3 := rfl
@[simp] theorem State.syncReader_resRgb (s : State) (n : Nat) : (s.syncReader n).resRgb = s.resRgb := rfl
@[simp] theorem State.syncReader_resPix (s : State) (n : Nat) : (s.syncReader n).resPix = s.resPix := rfl
@[simp] theorem State.syncReader_phase (s : State) (n : Nat) : (s.syncReader n).phase = s.phase := rfl
@[simp] theorem State.syncReader_teeActive (s : State) (n : Nat) : (s.syncReader n).teeActive = s.teeActive := rfl
@[simp] theorem State.syncReader_fbValid (s : State) (n : Nat) : (s.syncReader n).fbValid = s.fbValid := rfl
@[simp] theorem State.syncReader_termCause (s : State) (n : Nat) : (s.syncReader n).termCause = s.termCause := rfl
@[simp] theorem State.syncReader_cfgErr (s : State) (n : Nat) : (s.syncReader n).cfgErr = s.cfgErr := rfl
@[simp] theorem State.syncReader_cmdErrCode (s : State) (n : Nat) : (s.syncReader n).cmdErrCode = s.cmdErrCode := rfl
@[simp] theorem State.syncReader_cmdErrCause (s : State) (n : Nat) : (s.syncReader n).cmdErrCause = s.cmdErrCause := rfl
@[simp] theorem State.syncReader_decodeCount (s : State) (n : Nat) : (s.syncReader n).decodeCount = s.decodeCount := rfl
@[simp] theorem State.syncReader_fillLevel (s : State) (n : Nat) : (s.syncReader n).fillLevel = s.fillLevel := rfl
@[simp] theorem State.syncReader_walkI (s : State) (n : Nat) : (s.syncReader n).walkI = s.walkI := rfl
@[simp] theorem State.syncReader_walkJ (s : State) (n : Nat) : (s.syncReader n).walkJ = s.walkJ := rfl
@[simp] theorem State.syncReader_teeOff (s : State) (n : Nat) : (s.syncReader n).teeOff = s.teeOff := rfl
@[simp] theorem State.syncReader_teeRetries (s : State) (n : Nat) : (s.syncReader n).teeRetries = s.teeRetries := rfl
@[simp] theorem State.syncReader_fb (s : State) (n : Nat) : (s.syncReader n).fb = s.fb := rfl
@[simp] theorem State.syncReader_surf (s : State) (n : Nat) : (s.syncReader n).surf = s.surf := rfl
@[simp] theorem State.syncReader_issued (s : State) (n : Nat) : (s.syncReader n).issued = s.issued := rfl
@[simp] theorem State.syncReader_countedWrites (s : State) (n : Nat) : (s.syncReader n).countedWrites = s.countedWrites := rfl
@[simp] theorem State.syncReader_commandedWrites (s : State) (n : Nat) : (s.syncReader n).commandedWrites = s.commandedWrites := rfl
@[simp] theorem State.syncReader_syncedWrites (s : State) (n : Nat) : (s.syncReader n).syncedWrites = max s.syncedWrites n := rfl
@[simp] theorem State.syncReader_readerView (s : State) (n : Nat) : (s.syncReader n).readerView = s.readerView := rfl
@[simp] theorem State.syncReader_surfReady (s : State) (n : Nat) : (s.syncReader n).surfReady = s.surfReady := rfl
@[simp] theorem State.syncReader_lastResp (s : State) (n : Nat) : (s.syncReader n).lastResp = s.lastResp := rfl
@[simp] theorem State.syncReader_sinkBytes (s : State) (n : Nat) : (s.syncReader n).sinkBytes = s.sinkBytes := rfl
@[simp] theorem State.syncReader_hostQ (s : State) (n : Nat) : (s.syncReader n).hostQ = s.hostQ := rfl
@[simp] theorem State.syncReader_inQ (s : State) (n : Nat) : (s.syncReader n).inQ = s.inQ := rfl
@[simp] theorem State.syncReader_sinkQ (s : State) (n : Nat) : (s.syncReader n).sinkQ = s.sinkQ := rfl
@[simp] theorem State.syncReader_turns (s : State) (n : Nat) : (s.syncReader n).turns = s.turns := rfl
@[simp] theorem State.syncReader_resets (s : State) (n : Nat) : (s.syncReader n).resets = s.resets := rfl

/-! ### `State.completeCommand` -/

@[simp] theorem State.completeCommand_params (s : State) (ws : List SurfWrite) : (s.completeCommand ws).params = s.params := rfl
@[simp] theorem State.completeCommand_ctrl (s : State) (ws : List SurfWrite) : (s.completeCommand ws).ctrl = s.ctrl := rfl
@[simp] theorem State.completeCommand_frameGeom (s : State) (ws : List SurfWrite) : (s.completeCommand ws).frameGeom = s.frameGeom := rfl
@[simp] theorem State.completeCommand_surfGeom (s : State) (ws : List SurfWrite) : (s.completeCommand ws).surfGeom = s.surfGeom := rfl
@[simp] theorem State.completeCommand_surfStride (s : State) (ws : List SurfWrite) : (s.completeCommand ws).surfStride = s.surfStride := rfl
@[simp] theorem State.completeCommand_surfBpp (s : State) (ws : List SurfWrite) : (s.completeCommand ws).surfBpp = s.surfBpp := rfl
@[simp] theorem State.completeCommand_chanLayout (s : State) (ws : List SurfWrite) : (s.completeCommand ws).chanLayout = s.chanLayout := rfl
@[simp] theorem State.completeCommand_pixfmt (s : State) (ws : List SurfWrite) : (s.completeCommand ws).pixfmt = s.pixfmt := rfl
@[simp] theorem State.completeCommand_arg0 (s : State) (ws : List SurfWrite) : (s.completeCommand ws).arg0 = s.arg0 := rfl
@[simp] theorem State.completeCommand_arg1 (s : State) (ws : List SurfWrite) : (s.completeCommand ws).arg1 = s.arg1 := rfl
@[simp] theorem State.completeCommand_arg2 (s : State) (ws : List SurfWrite) : (s.completeCommand ws).arg2 = s.arg2 := rfl
@[simp] theorem State.completeCommand_arg3 (s : State) (ws : List SurfWrite) : (s.completeCommand ws).arg3 = s.arg3 := rfl
@[simp] theorem State.completeCommand_resRgb (s : State) (ws : List SurfWrite) : (s.completeCommand ws).resRgb = s.resRgb := rfl
@[simp] theorem State.completeCommand_resPix (s : State) (ws : List SurfWrite) : (s.completeCommand ws).resPix = s.resPix := rfl
@[simp] theorem State.completeCommand_phase (s : State) (ws : List SurfWrite) : (s.completeCommand ws).phase = s.phase := rfl
@[simp] theorem State.completeCommand_teeActive (s : State) (ws : List SurfWrite) : (s.completeCommand ws).teeActive = s.teeActive := rfl
@[simp] theorem State.completeCommand_fbValid (s : State) (ws : List SurfWrite) : (s.completeCommand ws).fbValid = s.fbValid := rfl
@[simp] theorem State.completeCommand_termCause (s : State) (ws : List SurfWrite) : (s.completeCommand ws).termCause = s.termCause := rfl
@[simp] theorem State.completeCommand_cfgErr (s : State) (ws : List SurfWrite) : (s.completeCommand ws).cfgErr = s.cfgErr := rfl
@[simp] theorem State.completeCommand_cmdErrCode (s : State) (ws : List SurfWrite) : (s.completeCommand ws).cmdErrCode = s.cmdErrCode := rfl
@[simp] theorem State.completeCommand_cmdErrCause (s : State) (ws : List SurfWrite) : (s.completeCommand ws).cmdErrCause = s.cmdErrCause := rfl
@[simp] theorem State.completeCommand_decodeCount (s : State) (ws : List SurfWrite) : (s.completeCommand ws).decodeCount = s.decodeCount := rfl
@[simp] theorem State.completeCommand_fillLevel (s : State) (ws : List SurfWrite) : (s.completeCommand ws).fillLevel = s.fillLevel := rfl
@[simp] theorem State.completeCommand_walkI (s : State) (ws : List SurfWrite) : (s.completeCommand ws).walkI = s.walkI := rfl
@[simp] theorem State.completeCommand_walkJ (s : State) (ws : List SurfWrite) : (s.completeCommand ws).walkJ = s.walkJ := rfl
@[simp] theorem State.completeCommand_teeOff (s : State) (ws : List SurfWrite) : (s.completeCommand ws).teeOff = s.teeOff := rfl
@[simp] theorem State.completeCommand_teeRetries (s : State) (ws : List SurfWrite) : (s.completeCommand ws).teeRetries = s.teeRetries := rfl
@[simp] theorem State.completeCommand_fb (s : State) (ws : List SurfWrite) : (s.completeCommand ws).fb = s.fb := rfl
@[simp] theorem State.completeCommand_surf (s : State) (ws : List SurfWrite) : (s.completeCommand ws).surf = s.surf := rfl
@[simp] theorem State.completeCommand_issued (s : State) (ws : List SurfWrite) : (s.completeCommand ws).issued = s.issued := rfl
@[simp] theorem State.completeCommand_countedWrites (s : State) (ws : List SurfWrite) : (s.completeCommand ws).countedWrites = s.countedWrites := rfl
@[simp] theorem State.completeCommand_commandedWrites (s : State) (ws : List SurfWrite) : (s.completeCommand ws).commandedWrites = if ws = [] then s.commandedWrites else s.issued.length := rfl
@[simp] theorem State.completeCommand_syncedWrites (s : State) (ws : List SurfWrite) : (s.completeCommand ws).syncedWrites = s.syncedWrites := rfl
@[simp] theorem State.completeCommand_readerView (s : State) (ws : List SurfWrite) : (s.completeCommand ws).readerView = s.readerView := rfl
@[simp] theorem State.completeCommand_surfReady (s : State) (ws : List SurfWrite) : (s.completeCommand ws).surfReady = s.surfReady := rfl
@[simp] theorem State.completeCommand_lastResp (s : State) (ws : List SurfWrite) : (s.completeCommand ws).lastResp = s.lastResp := rfl
@[simp] theorem State.completeCommand_sinkBytes (s : State) (ws : List SurfWrite) : (s.completeCommand ws).sinkBytes = s.sinkBytes := rfl
@[simp] theorem State.completeCommand_hostQ (s : State) (ws : List SurfWrite) : (s.completeCommand ws).hostQ = s.hostQ := rfl
@[simp] theorem State.completeCommand_inQ (s : State) (ws : List SurfWrite) : (s.completeCommand ws).inQ = s.inQ := rfl
@[simp] theorem State.completeCommand_sinkQ (s : State) (ws : List SurfWrite) : (s.completeCommand ws).sinkQ = s.sinkQ := rfl
@[simp] theorem State.completeCommand_turns (s : State) (ws : List SurfWrite) : (s.completeCommand ws).turns = s.turns := rfl
@[simp] theorem State.completeCommand_resets (s : State) (ws : List SurfWrite) : (s.completeCommand ws).resets = s.resets := rfl

/-! ### `State.takeRequest` -/

@[simp] theorem State.takeRequest_params (s : State) (i : Instr) (q : List BusRequest) : (s.takeRequest i q).params = s.params := rfl
@[simp] theorem State.takeRequest_ctrl (s : State) (i : Instr) (q : List BusRequest) : (s.takeRequest i q).ctrl = s.ctrl := rfl
@[simp] theorem State.takeRequest_frameGeom (s : State) (i : Instr) (q : List BusRequest) : (s.takeRequest i q).frameGeom = s.frameGeom := rfl
@[simp] theorem State.takeRequest_surfGeom (s : State) (i : Instr) (q : List BusRequest) : (s.takeRequest i q).surfGeom = s.surfGeom := rfl
@[simp] theorem State.takeRequest_surfStride (s : State) (i : Instr) (q : List BusRequest) : (s.takeRequest i q).surfStride = s.surfStride := rfl
@[simp] theorem State.takeRequest_surfBpp (s : State) (i : Instr) (q : List BusRequest) : (s.takeRequest i q).surfBpp = s.surfBpp := rfl
@[simp] theorem State.takeRequest_chanLayout (s : State) (i : Instr) (q : List BusRequest) : (s.takeRequest i q).chanLayout = s.chanLayout := rfl
@[simp] theorem State.takeRequest_pixfmt (s : State) (i : Instr) (q : List BusRequest) : (s.takeRequest i q).pixfmt = s.pixfmt := rfl
@[simp] theorem State.takeRequest_arg0 (s : State) (i : Instr) (q : List BusRequest) : (s.takeRequest i q).arg0 = s.arg0 := rfl
@[simp] theorem State.takeRequest_arg1 (s : State) (i : Instr) (q : List BusRequest) : (s.takeRequest i q).arg1 = s.arg1 := rfl
@[simp] theorem State.takeRequest_arg2 (s : State) (i : Instr) (q : List BusRequest) : (s.takeRequest i q).arg2 = s.arg2 := rfl
@[simp] theorem State.takeRequest_arg3 (s : State) (i : Instr) (q : List BusRequest) : (s.takeRequest i q).arg3 = s.arg3 := rfl
@[simp] theorem State.takeRequest_resRgb (s : State) (i : Instr) (q : List BusRequest) : (s.takeRequest i q).resRgb = s.resRgb := rfl
@[simp] theorem State.takeRequest_resPix (s : State) (i : Instr) (q : List BusRequest) : (s.takeRequest i q).resPix = s.resPix := rfl
@[simp] theorem State.takeRequest_phase (s : State) (i : Instr) (q : List BusRequest) : (s.takeRequest i q).phase = s.phase := rfl
@[simp] theorem State.takeRequest_teeActive (s : State) (i : Instr) (q : List BusRequest) : (s.takeRequest i q).teeActive = s.teeActive := rfl
@[simp] theorem State.takeRequest_fbValid (s : State) (i : Instr) (q : List BusRequest) : (s.takeRequest i q).fbValid = s.fbValid := rfl
@[simp] theorem State.takeRequest_termCause (s : State) (i : Instr) (q : List BusRequest) : (s.takeRequest i q).termCause = s.termCause := rfl
@[simp] theorem State.takeRequest_cfgErr (s : State) (i : Instr) (q : List BusRequest) : (s.takeRequest i q).cfgErr = s.cfgErr := rfl
@[simp] theorem State.takeRequest_cmdErrCode (s : State) (i : Instr) (q : List BusRequest) : (s.takeRequest i q).cmdErrCode = s.cmdErrCode := rfl
@[simp] theorem State.takeRequest_cmdErrCause (s : State) (i : Instr) (q : List BusRequest) : (s.takeRequest i q).cmdErrCause = s.cmdErrCause := rfl
@[simp] theorem State.takeRequest_decodeCount (s : State) (i : Instr) (q : List BusRequest) : (s.takeRequest i q).decodeCount = s.decodeCount := rfl
@[simp] theorem State.takeRequest_fillLevel (s : State) (i : Instr) (q : List BusRequest) : (s.takeRequest i q).fillLevel = s.fillLevel := rfl
@[simp] theorem State.takeRequest_walkI (s : State) (i : Instr) (q : List BusRequest) : (s.takeRequest i q).walkI = s.walkI := rfl
@[simp] theorem State.takeRequest_walkJ (s : State) (i : Instr) (q : List BusRequest) : (s.takeRequest i q).walkJ = s.walkJ := rfl
@[simp] theorem State.takeRequest_teeOff (s : State) (i : Instr) (q : List BusRequest) : (s.takeRequest i q).teeOff = s.teeOff := rfl
@[simp] theorem State.takeRequest_teeRetries (s : State) (i : Instr) (q : List BusRequest) : (s.takeRequest i q).teeRetries = s.teeRetries := rfl
@[simp] theorem State.takeRequest_fb (s : State) (i : Instr) (q : List BusRequest) : (s.takeRequest i q).fb = s.fb := rfl
@[simp] theorem State.takeRequest_surf (s : State) (i : Instr) (q : List BusRequest) : (s.takeRequest i q).surf = s.surf := rfl
@[simp] theorem State.takeRequest_issued (s : State) (i : Instr) (q : List BusRequest) : (s.takeRequest i q).issued = s.issued := rfl
@[simp] theorem State.takeRequest_countedWrites (s : State) (i : Instr) (q : List BusRequest) : (s.takeRequest i q).countedWrites = s.countedWrites := rfl
@[simp] theorem State.takeRequest_commandedWrites (s : State) (i : Instr) (q : List BusRequest) : (s.takeRequest i q).commandedWrites = s.commandedWrites := rfl
@[simp] theorem State.takeRequest_syncedWrites (s : State) (i : Instr) (q : List BusRequest) : (s.takeRequest i q).syncedWrites = max s.syncedWrites (pollOrders i s) := rfl
@[simp] theorem State.takeRequest_readerView (s : State) (i : Instr) (q : List BusRequest) : (s.takeRequest i q).readerView = s.readerView := rfl
@[simp] theorem State.takeRequest_surfReady (s : State) (i : Instr) (q : List BusRequest) : (s.takeRequest i q).surfReady = s.surfReady := rfl
@[simp] theorem State.takeRequest_lastResp (s : State) (i : Instr) (q : List BusRequest) : (s.takeRequest i q).lastResp = s.lastResp := rfl
@[simp] theorem State.takeRequest_sinkBytes (s : State) (i : Instr) (q : List BusRequest) : (s.takeRequest i q).sinkBytes = s.sinkBytes := rfl
@[simp] theorem State.takeRequest_hostQ (s : State) (i : Instr) (q : List BusRequest) : (s.takeRequest i q).hostQ = q := rfl
@[simp] theorem State.takeRequest_inQ (s : State) (i : Instr) (q : List BusRequest) : (s.takeRequest i q).inQ = s.inQ := rfl
@[simp] theorem State.takeRequest_sinkQ (s : State) (i : Instr) (q : List BusRequest) : (s.takeRequest i q).sinkQ = s.sinkQ := rfl
@[simp] theorem State.takeRequest_turns (s : State) (i : Instr) (q : List BusRequest) : (s.takeRequest i q).turns = s.turns := rfl
@[simp] theorem State.takeRequest_resets (s : State) (i : Instr) (q : List BusRequest) : (s.takeRequest i q).resets = s.resets := rfl

/-! ### `State.raiseCmdError`: the fields it never changes -/

@[simp] theorem State.raiseCmdError_params (s : State) (c : CmdErrCode) (k : CfgCause) : (s.raiseCmdError c k).params = s.params := by
  unfold State.raiseCmdError; split <;> rfl
@[simp] theorem State.raiseCmdError_ctrl (s : State) (c : CmdErrCode) (k : CfgCause) : (s.raiseCmdError c k).ctrl = s.ctrl := by
  unfold State.raiseCmdError; split <;> rfl
@[simp] theorem State.raiseCmdError_frameGeom (s : State) (c : CmdErrCode) (k : CfgCause) : (s.raiseCmdError c k).frameGeom = s.frameGeom := by
  unfold State.raiseCmdError; split <;> rfl
@[simp] theorem State.raiseCmdError_surfGeom (s : State) (c : CmdErrCode) (k : CfgCause) : (s.raiseCmdError c k).surfGeom = s.surfGeom := by
  unfold State.raiseCmdError; split <;> rfl
@[simp] theorem State.raiseCmdError_surfStride (s : State) (c : CmdErrCode) (k : CfgCause) : (s.raiseCmdError c k).surfStride = s.surfStride := by
  unfold State.raiseCmdError; split <;> rfl
@[simp] theorem State.raiseCmdError_surfBpp (s : State) (c : CmdErrCode) (k : CfgCause) : (s.raiseCmdError c k).surfBpp = s.surfBpp := by
  unfold State.raiseCmdError; split <;> rfl
@[simp] theorem State.raiseCmdError_chanLayout (s : State) (c : CmdErrCode) (k : CfgCause) : (s.raiseCmdError c k).chanLayout = s.chanLayout := by
  unfold State.raiseCmdError; split <;> rfl
@[simp] theorem State.raiseCmdError_pixfmt (s : State) (c : CmdErrCode) (k : CfgCause) : (s.raiseCmdError c k).pixfmt = s.pixfmt := by
  unfold State.raiseCmdError; split <;> rfl
@[simp] theorem State.raiseCmdError_arg0 (s : State) (c : CmdErrCode) (k : CfgCause) : (s.raiseCmdError c k).arg0 = s.arg0 := by
  unfold State.raiseCmdError; split <;> rfl
@[simp] theorem State.raiseCmdError_arg1 (s : State) (c : CmdErrCode) (k : CfgCause) : (s.raiseCmdError c k).arg1 = s.arg1 := by
  unfold State.raiseCmdError; split <;> rfl
@[simp] theorem State.raiseCmdError_arg2 (s : State) (c : CmdErrCode) (k : CfgCause) : (s.raiseCmdError c k).arg2 = s.arg2 := by
  unfold State.raiseCmdError; split <;> rfl
@[simp] theorem State.raiseCmdError_arg3 (s : State) (c : CmdErrCode) (k : CfgCause) : (s.raiseCmdError c k).arg3 = s.arg3 := by
  unfold State.raiseCmdError; split <;> rfl
@[simp] theorem State.raiseCmdError_resRgb (s : State) (c : CmdErrCode) (k : CfgCause) : (s.raiseCmdError c k).resRgb = s.resRgb := by
  unfold State.raiseCmdError; split <;> rfl
@[simp] theorem State.raiseCmdError_resPix (s : State) (c : CmdErrCode) (k : CfgCause) : (s.raiseCmdError c k).resPix = s.resPix := by
  unfold State.raiseCmdError; split <;> rfl
@[simp] theorem State.raiseCmdError_phase (s : State) (c : CmdErrCode) (k : CfgCause) : (s.raiseCmdError c k).phase = s.phase := by
  unfold State.raiseCmdError; split <;> rfl
@[simp] theorem State.raiseCmdError_teeActive (s : State) (c : CmdErrCode) (k : CfgCause) : (s.raiseCmdError c k).teeActive = s.teeActive := by
  unfold State.raiseCmdError; split <;> rfl
@[simp] theorem State.raiseCmdError_fbValid (s : State) (c : CmdErrCode) (k : CfgCause) : (s.raiseCmdError c k).fbValid = s.fbValid := by
  unfold State.raiseCmdError; split <;> rfl
@[simp] theorem State.raiseCmdError_termCause (s : State) (c : CmdErrCode) (k : CfgCause) : (s.raiseCmdError c k).termCause = s.termCause := by
  unfold State.raiseCmdError; split <;> rfl
@[simp] theorem State.raiseCmdError_cfgErr (s : State) (c : CmdErrCode) (k : CfgCause) : (s.raiseCmdError c k).cfgErr = s.cfgErr := by
  unfold State.raiseCmdError; split <;> rfl
@[simp] theorem State.raiseCmdError_decodeCount (s : State) (c : CmdErrCode) (k : CfgCause) : (s.raiseCmdError c k).decodeCount = s.decodeCount := by
  unfold State.raiseCmdError; split <;> rfl
@[simp] theorem State.raiseCmdError_fillLevel (s : State) (c : CmdErrCode) (k : CfgCause) : (s.raiseCmdError c k).fillLevel = s.fillLevel := by
  unfold State.raiseCmdError; split <;> rfl
@[simp] theorem State.raiseCmdError_walkI (s : State) (c : CmdErrCode) (k : CfgCause) : (s.raiseCmdError c k).walkI = s.walkI := by
  unfold State.raiseCmdError; split <;> rfl
@[simp] theorem State.raiseCmdError_walkJ (s : State) (c : CmdErrCode) (k : CfgCause) : (s.raiseCmdError c k).walkJ = s.walkJ := by
  unfold State.raiseCmdError; split <;> rfl
@[simp] theorem State.raiseCmdError_teeOff (s : State) (c : CmdErrCode) (k : CfgCause) : (s.raiseCmdError c k).teeOff = s.teeOff := by
  unfold State.raiseCmdError; split <;> rfl
@[simp] theorem State.raiseCmdError_teeRetries (s : State) (c : CmdErrCode) (k : CfgCause) : (s.raiseCmdError c k).teeRetries = s.teeRetries := by
  unfold State.raiseCmdError; split <;> rfl
@[simp] theorem State.raiseCmdError_fb (s : State) (c : CmdErrCode) (k : CfgCause) : (s.raiseCmdError c k).fb = s.fb := by
  unfold State.raiseCmdError; split <;> rfl
@[simp] theorem State.raiseCmdError_surf (s : State) (c : CmdErrCode) (k : CfgCause) : (s.raiseCmdError c k).surf = s.surf := by
  unfold State.raiseCmdError; split <;> rfl
@[simp] theorem State.raiseCmdError_issued (s : State) (c : CmdErrCode) (k : CfgCause) : (s.raiseCmdError c k).issued = s.issued := by
  unfold State.raiseCmdError; split <;> rfl
@[simp] theorem State.raiseCmdError_commandedWrites (s : State) (c : CmdErrCode) (k : CfgCause) : (s.raiseCmdError c k).commandedWrites = s.commandedWrites := by
  unfold State.raiseCmdError; split <;> rfl
@[simp] theorem State.raiseCmdError_countedWrites (s : State) (c : CmdErrCode) (k : CfgCause) : (s.raiseCmdError c k).countedWrites = s.countedWrites := by
  unfold State.raiseCmdError; split <;> rfl
@[simp] theorem State.raiseCmdError_syncedWrites (s : State) (c : CmdErrCode) (k : CfgCause) : (s.raiseCmdError c k).syncedWrites = s.syncedWrites := by
  unfold State.raiseCmdError; split <;> rfl
@[simp] theorem State.raiseCmdError_readerView (s : State) (c : CmdErrCode) (k : CfgCause) : (s.raiseCmdError c k).readerView = s.readerView := by
  unfold State.raiseCmdError; split <;> rfl
@[simp] theorem State.raiseCmdError_surfReady (s : State) (c : CmdErrCode) (k : CfgCause) : (s.raiseCmdError c k).surfReady = s.surfReady := by
  unfold State.raiseCmdError; split <;> rfl
@[simp] theorem State.raiseCmdError_lastResp (s : State) (c : CmdErrCode) (k : CfgCause) : (s.raiseCmdError c k).lastResp = s.lastResp := by
  unfold State.raiseCmdError; split <;> rfl
@[simp] theorem State.raiseCmdError_sinkBytes (s : State) (c : CmdErrCode) (k : CfgCause) : (s.raiseCmdError c k).sinkBytes = s.sinkBytes := by
  unfold State.raiseCmdError; split <;> rfl
@[simp] theorem State.raiseCmdError_hostQ (s : State) (c : CmdErrCode) (k : CfgCause) : (s.raiseCmdError c k).hostQ = s.hostQ := by
  unfold State.raiseCmdError; split <;> rfl
@[simp] theorem State.raiseCmdError_inQ (s : State) (c : CmdErrCode) (k : CfgCause) : (s.raiseCmdError c k).inQ = s.inQ := by
  unfold State.raiseCmdError; split <;> rfl
@[simp] theorem State.raiseCmdError_sinkQ (s : State) (c : CmdErrCode) (k : CfgCause) : (s.raiseCmdError c k).sinkQ = s.sinkQ := by
  unfold State.raiseCmdError; split <;> rfl
@[simp] theorem State.raiseCmdError_turns (s : State) (c : CmdErrCode) (k : CfgCause) : (s.raiseCmdError c k).turns = s.turns := by
  unfold State.raiseCmdError; split <;> rfl
@[simp] theorem State.raiseCmdError_resets (s : State) (c : CmdErrCode) (k : CfgCause) : (s.raiseCmdError c k).resets = s.resets := by
  unfold State.raiseCmdError; split <;> rfl

/-! ### `State.advanceWalk`: the fields it never changes -/

@[simp] theorem State.advanceWalk_params (s : State) : (s.advanceWalk).params = s.params := by
  unfold State.advanceWalk; split <;> (try split) <;> rfl
@[simp] theorem State.advanceWalk_ctrl (s : State) : (s.advanceWalk).ctrl = s.ctrl := by
  unfold State.advanceWalk; split <;> (try split) <;> rfl
@[simp] theorem State.advanceWalk_frameGeom (s : State) : (s.advanceWalk).frameGeom = s.frameGeom := by
  unfold State.advanceWalk; split <;> (try split) <;> rfl
@[simp] theorem State.advanceWalk_surfGeom (s : State) : (s.advanceWalk).surfGeom = s.surfGeom := by
  unfold State.advanceWalk; split <;> (try split) <;> rfl
@[simp] theorem State.advanceWalk_surfStride (s : State) : (s.advanceWalk).surfStride = s.surfStride := by
  unfold State.advanceWalk; split <;> (try split) <;> rfl
@[simp] theorem State.advanceWalk_surfBpp (s : State) : (s.advanceWalk).surfBpp = s.surfBpp := by
  unfold State.advanceWalk; split <;> (try split) <;> rfl
@[simp] theorem State.advanceWalk_chanLayout (s : State) : (s.advanceWalk).chanLayout = s.chanLayout := by
  unfold State.advanceWalk; split <;> (try split) <;> rfl
@[simp] theorem State.advanceWalk_pixfmt (s : State) : (s.advanceWalk).pixfmt = s.pixfmt := by
  unfold State.advanceWalk; split <;> (try split) <;> rfl
@[simp] theorem State.advanceWalk_arg0 (s : State) : (s.advanceWalk).arg0 = s.arg0 := by
  unfold State.advanceWalk; split <;> (try split) <;> rfl
@[simp] theorem State.advanceWalk_arg1 (s : State) : (s.advanceWalk).arg1 = s.arg1 := by
  unfold State.advanceWalk; split <;> (try split) <;> rfl
@[simp] theorem State.advanceWalk_arg2 (s : State) : (s.advanceWalk).arg2 = s.arg2 := by
  unfold State.advanceWalk; split <;> (try split) <;> rfl
@[simp] theorem State.advanceWalk_arg3 (s : State) : (s.advanceWalk).arg3 = s.arg3 := by
  unfold State.advanceWalk; split <;> (try split) <;> rfl
@[simp] theorem State.advanceWalk_resRgb (s : State) : (s.advanceWalk).resRgb = s.resRgb := by
  unfold State.advanceWalk; split <;> (try split) <;> rfl
@[simp] theorem State.advanceWalk_resPix (s : State) : (s.advanceWalk).resPix = s.resPix := by
  unfold State.advanceWalk; split <;> (try split) <;> rfl
@[simp] theorem State.advanceWalk_teeActive (s : State) : (s.advanceWalk).teeActive = s.teeActive := by
  unfold State.advanceWalk; split <;> (try split) <;> rfl
@[simp] theorem State.advanceWalk_fbValid (s : State) : (s.advanceWalk).fbValid = s.fbValid := by
  unfold State.advanceWalk; split <;> (try split) <;> rfl
@[simp] theorem State.advanceWalk_termCause (s : State) : (s.advanceWalk).termCause = s.termCause := by
  unfold State.advanceWalk; split <;> (try split) <;> rfl
@[simp] theorem State.advanceWalk_cfgErr (s : State) : (s.advanceWalk).cfgErr = s.cfgErr := by
  unfold State.advanceWalk; split <;> (try split) <;> rfl
@[simp] theorem State.advanceWalk_cmdErrCode (s : State) : (s.advanceWalk).cmdErrCode = s.cmdErrCode := by
  unfold State.advanceWalk; split <;> (try split) <;> rfl
@[simp] theorem State.advanceWalk_cmdErrCause (s : State) : (s.advanceWalk).cmdErrCause = s.cmdErrCause := by
  unfold State.advanceWalk; split <;> (try split) <;> rfl
@[simp] theorem State.advanceWalk_teeOff (s : State) : (s.advanceWalk).teeOff = s.teeOff := by
  unfold State.advanceWalk; split <;> (try split) <;> rfl
@[simp] theorem State.advanceWalk_teeRetries (s : State) : (s.advanceWalk).teeRetries = s.teeRetries := by
  unfold State.advanceWalk; split <;> (try split) <;> rfl
@[simp] theorem State.advanceWalk_fb (s : State) : (s.advanceWalk).fb = s.fb := by
  unfold State.advanceWalk; split <;> (try split) <;> rfl
@[simp] theorem State.advanceWalk_surf (s : State) : (s.advanceWalk).surf = s.surf := by
  unfold State.advanceWalk; split <;> (try split) <;> rfl
@[simp] theorem State.advanceWalk_issued (s : State) : (s.advanceWalk).issued = s.issued := by
  unfold State.advanceWalk; split <;> (try split) <;> rfl
@[simp] theorem State.advanceWalk_commandedWrites (s : State) : (s.advanceWalk).commandedWrites = s.commandedWrites := by
  unfold State.advanceWalk; split <;> (try split) <;> rfl
@[simp] theorem State.advanceWalk_syncedWrites (s : State) : (s.advanceWalk).syncedWrites = s.syncedWrites := by
  unfold State.advanceWalk; split <;> (try split) <;> rfl
@[simp] theorem State.advanceWalk_readerView (s : State) : (s.advanceWalk).readerView = s.readerView := by
  unfold State.advanceWalk; split <;> (try split) <;> rfl
@[simp] theorem State.advanceWalk_surfReady (s : State) : (s.advanceWalk).surfReady = s.surfReady := by
  unfold State.advanceWalk; split <;> (try split) <;> rfl
@[simp] theorem State.advanceWalk_lastResp (s : State) : (s.advanceWalk).lastResp = s.lastResp := by
  unfold State.advanceWalk; split <;> (try split) <;> rfl
@[simp] theorem State.advanceWalk_sinkBytes (s : State) : (s.advanceWalk).sinkBytes = s.sinkBytes := by
  unfold State.advanceWalk; split <;> (try split) <;> rfl
@[simp] theorem State.advanceWalk_hostQ (s : State) : (s.advanceWalk).hostQ = s.hostQ := by
  unfold State.advanceWalk; split <;> (try split) <;> rfl
@[simp] theorem State.advanceWalk_inQ (s : State) : (s.advanceWalk).inQ = s.inQ := by
  unfold State.advanceWalk; split <;> (try split) <;> rfl
@[simp] theorem State.advanceWalk_sinkQ (s : State) : (s.advanceWalk).sinkQ = s.sinkQ := by
  unfold State.advanceWalk; split <;> (try split) <;> rfl
@[simp] theorem State.advanceWalk_turns (s : State) : (s.advanceWalk).turns = s.turns := by
  unfold State.advanceWalk; split <;> (try split) <;> rfl
@[simp] theorem State.advanceWalk_resets (s : State) : (s.advanceWalk).resets = s.resets := by
  unfold State.advanceWalk; split <;> (try split) <;> rfl

/-! ### `State.completeFrame`: the fields it never changes -/

@[simp] theorem State.completeFrame_params (s : State) : (s.completeFrame).params = s.params := by
  unfold State.completeFrame; split <;> rfl
@[simp] theorem State.completeFrame_ctrl (s : State) : (s.completeFrame).ctrl = s.ctrl := by
  unfold State.completeFrame; split <;> rfl
@[simp] theorem State.completeFrame_frameGeom (s : State) : (s.completeFrame).frameGeom = s.frameGeom := by
  unfold State.completeFrame; split <;> rfl
@[simp] theorem State.completeFrame_surfGeom (s : State) : (s.completeFrame).surfGeom = s.surfGeom := by
  unfold State.completeFrame; split <;> rfl
@[simp] theorem State.completeFrame_surfStride (s : State) : (s.completeFrame).surfStride = s.surfStride := by
  unfold State.completeFrame; split <;> rfl
@[simp] theorem State.completeFrame_surfBpp (s : State) : (s.completeFrame).surfBpp = s.surfBpp := by
  unfold State.completeFrame; split <;> rfl
@[simp] theorem State.completeFrame_chanLayout (s : State) : (s.completeFrame).chanLayout = s.chanLayout := by
  unfold State.completeFrame; split <;> rfl
@[simp] theorem State.completeFrame_pixfmt (s : State) : (s.completeFrame).pixfmt = s.pixfmt := by
  unfold State.completeFrame; split <;> rfl
@[simp] theorem State.completeFrame_arg0 (s : State) : (s.completeFrame).arg0 = s.arg0 := by
  unfold State.completeFrame; split <;> rfl
@[simp] theorem State.completeFrame_arg1 (s : State) : (s.completeFrame).arg1 = s.arg1 := by
  unfold State.completeFrame; split <;> rfl
@[simp] theorem State.completeFrame_arg2 (s : State) : (s.completeFrame).arg2 = s.arg2 := by
  unfold State.completeFrame; split <;> rfl
@[simp] theorem State.completeFrame_arg3 (s : State) : (s.completeFrame).arg3 = s.arg3 := by
  unfold State.completeFrame; split <;> rfl
@[simp] theorem State.completeFrame_resRgb (s : State) : (s.completeFrame).resRgb = s.resRgb := by
  unfold State.completeFrame; split <;> rfl
@[simp] theorem State.completeFrame_resPix (s : State) : (s.completeFrame).resPix = s.resPix := by
  unfold State.completeFrame; split <;> rfl
@[simp] theorem State.completeFrame_teeActive (s : State) : (s.completeFrame).teeActive = s.teeActive := by
  unfold State.completeFrame; split <;> rfl
@[simp] theorem State.completeFrame_termCause (s : State) : (s.completeFrame).termCause = s.termCause := by
  unfold State.completeFrame; split <;> rfl
@[simp] theorem State.completeFrame_cfgErr (s : State) : (s.completeFrame).cfgErr = s.cfgErr := by
  unfold State.completeFrame; split <;> rfl
@[simp] theorem State.completeFrame_cmdErrCode (s : State) : (s.completeFrame).cmdErrCode = s.cmdErrCode := by
  unfold State.completeFrame; split <;> rfl
@[simp] theorem State.completeFrame_cmdErrCause (s : State) : (s.completeFrame).cmdErrCause = s.cmdErrCause := by
  unfold State.completeFrame; split <;> rfl
@[simp] theorem State.completeFrame_decodeCount (s : State) : (s.completeFrame).decodeCount = s.decodeCount := by
  unfold State.completeFrame; split <;> rfl
@[simp] theorem State.completeFrame_fillLevel (s : State) : (s.completeFrame).fillLevel = s.fillLevel := by
  unfold State.completeFrame; split <;> rfl
@[simp] theorem State.completeFrame_fb (s : State) : (s.completeFrame).fb = s.fb := by
  unfold State.completeFrame; split <;> rfl
@[simp] theorem State.completeFrame_surf (s : State) : (s.completeFrame).surf = s.surf := by
  unfold State.completeFrame; split <;> rfl
@[simp] theorem State.completeFrame_issued (s : State) : (s.completeFrame).issued = s.issued := by
  unfold State.completeFrame; split <;> rfl
@[simp] theorem State.completeFrame_commandedWrites (s : State) : (s.completeFrame).commandedWrites = s.commandedWrites := by
  unfold State.completeFrame; split <;> rfl
@[simp] theorem State.completeFrame_countedWrites (s : State) : (s.completeFrame).countedWrites = s.countedWrites := by
  unfold State.completeFrame; split <;> rfl
@[simp] theorem State.completeFrame_syncedWrites (s : State) : (s.completeFrame).syncedWrites = s.syncedWrites := by
  unfold State.completeFrame; split <;> rfl
@[simp] theorem State.completeFrame_readerView (s : State) : (s.completeFrame).readerView = s.readerView := by
  unfold State.completeFrame; split <;> rfl
@[simp] theorem State.completeFrame_surfReady (s : State) : (s.completeFrame).surfReady = s.surfReady := by
  unfold State.completeFrame; split <;> rfl
@[simp] theorem State.completeFrame_lastResp (s : State) : (s.completeFrame).lastResp = s.lastResp := by
  unfold State.completeFrame; split <;> rfl
@[simp] theorem State.completeFrame_sinkBytes (s : State) : (s.completeFrame).sinkBytes = s.sinkBytes := by
  unfold State.completeFrame; split <;> rfl
@[simp] theorem State.completeFrame_hostQ (s : State) : (s.completeFrame).hostQ = s.hostQ := by
  unfold State.completeFrame; split <;> rfl
@[simp] theorem State.completeFrame_inQ (s : State) : (s.completeFrame).inQ = s.inQ := by
  unfold State.completeFrame; split <;> rfl
@[simp] theorem State.completeFrame_sinkQ (s : State) : (s.completeFrame).sinkQ = s.sinkQ := by
  unfold State.completeFrame; split <;> rfl
@[simp] theorem State.completeFrame_turns (s : State) : (s.completeFrame).turns = s.turns := by
  unfold State.completeFrame; split <;> rfl
@[simp] theorem State.completeFrame_resets (s : State) : (s.completeFrame).resets = s.resets := by
  unfold State.completeFrame; split <;> rfl

/-! ### `State.teeNoProgress`: the fields it never changes -/

@[simp] theorem State.teeNoProgress_params (s : State) : (s.teeNoProgress).params = s.params := by
  unfold State.teeNoProgress; split <;> rfl
@[simp] theorem State.teeNoProgress_ctrl (s : State) : (s.teeNoProgress).ctrl = s.ctrl := by
  unfold State.teeNoProgress; split <;> rfl
@[simp] theorem State.teeNoProgress_frameGeom (s : State) : (s.teeNoProgress).frameGeom = s.frameGeom := by
  unfold State.teeNoProgress; split <;> rfl
@[simp] theorem State.teeNoProgress_surfGeom (s : State) : (s.teeNoProgress).surfGeom = s.surfGeom := by
  unfold State.teeNoProgress; split <;> rfl
@[simp] theorem State.teeNoProgress_surfStride (s : State) : (s.teeNoProgress).surfStride = s.surfStride := by
  unfold State.teeNoProgress; split <;> rfl
@[simp] theorem State.teeNoProgress_surfBpp (s : State) : (s.teeNoProgress).surfBpp = s.surfBpp := by
  unfold State.teeNoProgress; split <;> rfl
@[simp] theorem State.teeNoProgress_chanLayout (s : State) : (s.teeNoProgress).chanLayout = s.chanLayout := by
  unfold State.teeNoProgress; split <;> rfl
@[simp] theorem State.teeNoProgress_pixfmt (s : State) : (s.teeNoProgress).pixfmt = s.pixfmt := by
  unfold State.teeNoProgress; split <;> rfl
@[simp] theorem State.teeNoProgress_arg0 (s : State) : (s.teeNoProgress).arg0 = s.arg0 := by
  unfold State.teeNoProgress; split <;> rfl
@[simp] theorem State.teeNoProgress_arg1 (s : State) : (s.teeNoProgress).arg1 = s.arg1 := by
  unfold State.teeNoProgress; split <;> rfl
@[simp] theorem State.teeNoProgress_arg2 (s : State) : (s.teeNoProgress).arg2 = s.arg2 := by
  unfold State.teeNoProgress; split <;> rfl
@[simp] theorem State.teeNoProgress_arg3 (s : State) : (s.teeNoProgress).arg3 = s.arg3 := by
  unfold State.teeNoProgress; split <;> rfl
@[simp] theorem State.teeNoProgress_resRgb (s : State) : (s.teeNoProgress).resRgb = s.resRgb := by
  unfold State.teeNoProgress; split <;> rfl
@[simp] theorem State.teeNoProgress_resPix (s : State) : (s.teeNoProgress).resPix = s.resPix := by
  unfold State.teeNoProgress; split <;> rfl
@[simp] theorem State.teeNoProgress_fbValid (s : State) : (s.teeNoProgress).fbValid = s.fbValid := by
  unfold State.teeNoProgress; split <;> rfl
@[simp] theorem State.teeNoProgress_termCause (s : State) : (s.teeNoProgress).termCause = s.termCause := by
  unfold State.teeNoProgress; split <;> rfl
@[simp] theorem State.teeNoProgress_cfgErr (s : State) : (s.teeNoProgress).cfgErr = s.cfgErr := by
  unfold State.teeNoProgress; split <;> rfl
@[simp] theorem State.teeNoProgress_cmdErrCode (s : State) : (s.teeNoProgress).cmdErrCode = s.cmdErrCode := by
  unfold State.teeNoProgress; split <;> rfl
@[simp] theorem State.teeNoProgress_cmdErrCause (s : State) : (s.teeNoProgress).cmdErrCause = s.cmdErrCause := by
  unfold State.teeNoProgress; split <;> rfl
@[simp] theorem State.teeNoProgress_decodeCount (s : State) : (s.teeNoProgress).decodeCount = s.decodeCount := by
  unfold State.teeNoProgress; split <;> rfl
@[simp] theorem State.teeNoProgress_fillLevel (s : State) : (s.teeNoProgress).fillLevel = s.fillLevel := by
  unfold State.teeNoProgress; split <;> rfl
@[simp] theorem State.teeNoProgress_teeOff (s : State) : (s.teeNoProgress).teeOff = s.teeOff := by
  unfold State.teeNoProgress; split <;> rfl
@[simp] theorem State.teeNoProgress_fb (s : State) : (s.teeNoProgress).fb = s.fb := by
  unfold State.teeNoProgress; split <;> rfl
@[simp] theorem State.teeNoProgress_surf (s : State) : (s.teeNoProgress).surf = s.surf := by
  unfold State.teeNoProgress; split <;> rfl
@[simp] theorem State.teeNoProgress_issued (s : State) : (s.teeNoProgress).issued = s.issued := by
  unfold State.teeNoProgress; split <;> rfl
@[simp] theorem State.teeNoProgress_commandedWrites (s : State) : (s.teeNoProgress).commandedWrites = s.commandedWrites := by
  unfold State.teeNoProgress; split <;> rfl
@[simp] theorem State.teeNoProgress_countedWrites (s : State) : (s.teeNoProgress).countedWrites = s.countedWrites := by
  unfold State.teeNoProgress; split <;> rfl
@[simp] theorem State.teeNoProgress_syncedWrites (s : State) : (s.teeNoProgress).syncedWrites = s.syncedWrites := by
  unfold State.teeNoProgress; split <;> rfl
@[simp] theorem State.teeNoProgress_readerView (s : State) : (s.teeNoProgress).readerView = s.readerView := by
  unfold State.teeNoProgress; split <;> rfl
@[simp] theorem State.teeNoProgress_surfReady (s : State) : (s.teeNoProgress).surfReady = s.surfReady := by
  unfold State.teeNoProgress; split <;> rfl
@[simp] theorem State.teeNoProgress_lastResp (s : State) : (s.teeNoProgress).lastResp = s.lastResp := by
  unfold State.teeNoProgress; split <;> rfl
@[simp] theorem State.teeNoProgress_sinkBytes (s : State) : (s.teeNoProgress).sinkBytes = s.sinkBytes := by
  unfold State.teeNoProgress; split <;> rfl
@[simp] theorem State.teeNoProgress_hostQ (s : State) : (s.teeNoProgress).hostQ = s.hostQ := by
  unfold State.teeNoProgress; split <;> rfl
@[simp] theorem State.teeNoProgress_inQ (s : State) : (s.teeNoProgress).inQ = s.inQ := by
  unfold State.teeNoProgress; split <;> rfl
@[simp] theorem State.teeNoProgress_sinkQ (s : State) : (s.teeNoProgress).sinkQ = s.sinkQ := by
  unfold State.teeNoProgress; split <;> rfl
@[simp] theorem State.teeNoProgress_turns (s : State) : (s.teeNoProgress).turns = s.turns := by
  unfold State.teeNoProgress; split <;> rfl
@[simp] theorem State.teeNoProgress_resets (s : State) : (s.teeNoProgress).resets = s.resets := by
  unfold State.teeNoProgress; split <;> rfl

/-! ### `State.teeProgress`: the fields it never changes -/

@[simp] theorem State.teeProgress_params (s : State) (c : Word) (bs : List Byte) : (s.teeProgress c bs).params = s.params := by
  simp only [State.teeProgress]; split <;> rfl
@[simp] theorem State.teeProgress_ctrl (s : State) (c : Word) (bs : List Byte) : (s.teeProgress c bs).ctrl = s.ctrl := by
  simp only [State.teeProgress]; split <;> rfl
@[simp] theorem State.teeProgress_frameGeom (s : State) (c : Word) (bs : List Byte) : (s.teeProgress c bs).frameGeom = s.frameGeom := by
  simp only [State.teeProgress]; split <;> rfl
@[simp] theorem State.teeProgress_surfGeom (s : State) (c : Word) (bs : List Byte) : (s.teeProgress c bs).surfGeom = s.surfGeom := by
  simp only [State.teeProgress]; split <;> rfl
@[simp] theorem State.teeProgress_surfStride (s : State) (c : Word) (bs : List Byte) : (s.teeProgress c bs).surfStride = s.surfStride := by
  simp only [State.teeProgress]; split <;> rfl
@[simp] theorem State.teeProgress_surfBpp (s : State) (c : Word) (bs : List Byte) : (s.teeProgress c bs).surfBpp = s.surfBpp := by
  simp only [State.teeProgress]; split <;> rfl
@[simp] theorem State.teeProgress_chanLayout (s : State) (c : Word) (bs : List Byte) : (s.teeProgress c bs).chanLayout = s.chanLayout := by
  simp only [State.teeProgress]; split <;> rfl
@[simp] theorem State.teeProgress_pixfmt (s : State) (c : Word) (bs : List Byte) : (s.teeProgress c bs).pixfmt = s.pixfmt := by
  simp only [State.teeProgress]; split <;> rfl
@[simp] theorem State.teeProgress_arg0 (s : State) (c : Word) (bs : List Byte) : (s.teeProgress c bs).arg0 = s.arg0 := by
  simp only [State.teeProgress]; split <;> rfl
@[simp] theorem State.teeProgress_arg1 (s : State) (c : Word) (bs : List Byte) : (s.teeProgress c bs).arg1 = s.arg1 := by
  simp only [State.teeProgress]; split <;> rfl
@[simp] theorem State.teeProgress_arg2 (s : State) (c : Word) (bs : List Byte) : (s.teeProgress c bs).arg2 = s.arg2 := by
  simp only [State.teeProgress]; split <;> rfl
@[simp] theorem State.teeProgress_arg3 (s : State) (c : Word) (bs : List Byte) : (s.teeProgress c bs).arg3 = s.arg3 := by
  simp only [State.teeProgress]; split <;> rfl
@[simp] theorem State.teeProgress_resRgb (s : State) (c : Word) (bs : List Byte) : (s.teeProgress c bs).resRgb = s.resRgb := by
  simp only [State.teeProgress]; split <;> rfl
@[simp] theorem State.teeProgress_resPix (s : State) (c : Word) (bs : List Byte) : (s.teeProgress c bs).resPix = s.resPix := by
  simp only [State.teeProgress]; split <;> rfl
@[simp] theorem State.teeProgress_teeActive (s : State) (c : Word) (bs : List Byte) : (s.teeProgress c bs).teeActive = s.teeActive := by
  simp only [State.teeProgress]; split <;> rfl
@[simp] theorem State.teeProgress_fbValid (s : State) (c : Word) (bs : List Byte) : (s.teeProgress c bs).fbValid = s.fbValid := by
  simp only [State.teeProgress]; split <;> rfl
@[simp] theorem State.teeProgress_termCause (s : State) (c : Word) (bs : List Byte) : (s.teeProgress c bs).termCause = s.termCause := by
  simp only [State.teeProgress]; split <;> rfl
@[simp] theorem State.teeProgress_cfgErr (s : State) (c : Word) (bs : List Byte) : (s.teeProgress c bs).cfgErr = s.cfgErr := by
  simp only [State.teeProgress]; split <;> rfl
@[simp] theorem State.teeProgress_cmdErrCode (s : State) (c : Word) (bs : List Byte) : (s.teeProgress c bs).cmdErrCode = s.cmdErrCode := by
  simp only [State.teeProgress]; split <;> rfl
@[simp] theorem State.teeProgress_cmdErrCause (s : State) (c : Word) (bs : List Byte) : (s.teeProgress c bs).cmdErrCause = s.cmdErrCause := by
  simp only [State.teeProgress]; split <;> rfl
@[simp] theorem State.teeProgress_decodeCount (s : State) (c : Word) (bs : List Byte) : (s.teeProgress c bs).decodeCount = s.decodeCount := by
  simp only [State.teeProgress]; split <;> rfl
@[simp] theorem State.teeProgress_fillLevel (s : State) (c : Word) (bs : List Byte) : (s.teeProgress c bs).fillLevel = s.fillLevel := by
  simp only [State.teeProgress]; split <;> rfl
@[simp] theorem State.teeProgress_fb (s : State) (c : Word) (bs : List Byte) : (s.teeProgress c bs).fb = s.fb := by
  simp only [State.teeProgress]; split <;> rfl
@[simp] theorem State.teeProgress_surf (s : State) (c : Word) (bs : List Byte) : (s.teeProgress c bs).surf = s.surf := by
  simp only [State.teeProgress]; split <;> rfl
@[simp] theorem State.teeProgress_issued (s : State) (c : Word) (bs : List Byte) : (s.teeProgress c bs).issued = s.issued := by
  simp only [State.teeProgress]; split <;> rfl
@[simp] theorem State.teeProgress_commandedWrites (s : State) (c : Word) (bs : List Byte) : (s.teeProgress c bs).commandedWrites = s.commandedWrites := by
  simp only [State.teeProgress]; split <;> rfl
@[simp] theorem State.teeProgress_countedWrites (s : State) (c : Word) (bs : List Byte) : (s.teeProgress c bs).countedWrites = s.countedWrites := by
  simp only [State.teeProgress]; split <;> rfl
@[simp] theorem State.teeProgress_syncedWrites (s : State) (c : Word) (bs : List Byte) : (s.teeProgress c bs).syncedWrites = s.syncedWrites := by
  simp only [State.teeProgress]; split <;> rfl
@[simp] theorem State.teeProgress_readerView (s : State) (c : Word) (bs : List Byte) : (s.teeProgress c bs).readerView = s.readerView := by
  simp only [State.teeProgress]; split <;> rfl
@[simp] theorem State.teeProgress_surfReady (s : State) (c : Word) (bs : List Byte) : (s.teeProgress c bs).surfReady = s.surfReady := by
  simp only [State.teeProgress]; split <;> rfl
@[simp] theorem State.teeProgress_lastResp (s : State) (c : Word) (bs : List Byte) : (s.teeProgress c bs).lastResp = s.lastResp := by
  simp only [State.teeProgress]; split <;> rfl
@[simp] theorem State.teeProgress_hostQ (s : State) (c : Word) (bs : List Byte) : (s.teeProgress c bs).hostQ = s.hostQ := by
  simp only [State.teeProgress]; split <;> rfl
@[simp] theorem State.teeProgress_inQ (s : State) (c : Word) (bs : List Byte) : (s.teeProgress c bs).inQ = s.inQ := by
  simp only [State.teeProgress]; split <;> rfl
@[simp] theorem State.teeProgress_sinkQ (s : State) (c : Word) (bs : List Byte) : (s.teeProgress c bs).sinkQ = s.sinkQ := by
  simp only [State.teeProgress]; split <;> rfl
@[simp] theorem State.teeProgress_turns (s : State) (c : Word) (bs : List Byte) : (s.teeProgress c bs).turns = s.turns := by
  simp only [State.teeProgress]; split <;> rfl
@[simp] theorem State.teeProgress_resets (s : State) (c : Word) (bs : List Byte) : (s.teeProgress c bs).resets = s.resets := by
  simp only [State.teeProgress]; split <;> rfl

/-! ### `State.storeReg`: the fields it never changes -/

@[simp] theorem State.storeReg_params (s : State) (r : Reg) (d : Word) : (s.storeReg r d).params = s.params := by
  cases r <;> rfl
@[simp] theorem State.storeReg_resRgb (s : State) (r : Reg) (d : Word) : (s.storeReg r d).resRgb = s.resRgb := by
  cases r <;> rfl
@[simp] theorem State.storeReg_resPix (s : State) (r : Reg) (d : Word) : (s.storeReg r d).resPix = s.resPix := by
  cases r <;> rfl
@[simp] theorem State.storeReg_phase (s : State) (r : Reg) (d : Word) : (s.storeReg r d).phase = s.phase := by
  cases r <;> rfl
@[simp] theorem State.storeReg_teeActive (s : State) (r : Reg) (d : Word) : (s.storeReg r d).teeActive = s.teeActive := by
  cases r <;> rfl
@[simp] theorem State.storeReg_fbValid (s : State) (r : Reg) (d : Word) : (s.storeReg r d).fbValid = s.fbValid := by
  cases r <;> rfl
@[simp] theorem State.storeReg_termCause (s : State) (r : Reg) (d : Word) : (s.storeReg r d).termCause = s.termCause := by
  cases r <;> rfl
@[simp] theorem State.storeReg_cfgErr (s : State) (r : Reg) (d : Word) : (s.storeReg r d).cfgErr = s.cfgErr := by
  cases r <;> rfl
@[simp] theorem State.storeReg_decodeCount (s : State) (r : Reg) (d : Word) : (s.storeReg r d).decodeCount = s.decodeCount := by
  cases r <;> rfl
@[simp] theorem State.storeReg_fillLevel (s : State) (r : Reg) (d : Word) : (s.storeReg r d).fillLevel = s.fillLevel := by
  cases r <;> rfl
@[simp] theorem State.storeReg_walkI (s : State) (r : Reg) (d : Word) : (s.storeReg r d).walkI = s.walkI := by
  cases r <;> rfl
@[simp] theorem State.storeReg_walkJ (s : State) (r : Reg) (d : Word) : (s.storeReg r d).walkJ = s.walkJ := by
  cases r <;> rfl
@[simp] theorem State.storeReg_teeOff (s : State) (r : Reg) (d : Word) : (s.storeReg r d).teeOff = s.teeOff := by
  cases r <;> rfl
@[simp] theorem State.storeReg_teeRetries (s : State) (r : Reg) (d : Word) : (s.storeReg r d).teeRetries = s.teeRetries := by
  cases r <;> rfl
@[simp] theorem State.storeReg_fb (s : State) (r : Reg) (d : Word) : (s.storeReg r d).fb = s.fb := by
  cases r <;> rfl
@[simp] theorem State.storeReg_surf (s : State) (r : Reg) (d : Word) : (s.storeReg r d).surf = s.surf := by
  cases r <;> rfl
@[simp] theorem State.storeReg_issued (s : State) (r : Reg) (d : Word) : (s.storeReg r d).issued = s.issued := by
  cases r <;> rfl
@[simp] theorem State.storeReg_commandedWrites (s : State) (r : Reg) (d : Word) : (s.storeReg r d).commandedWrites = s.commandedWrites := by
  cases r <;> rfl
@[simp] theorem State.storeReg_countedWrites (s : State) (r : Reg) (d : Word) : (s.storeReg r d).countedWrites = s.countedWrites := by
  cases r <;> rfl
@[simp] theorem State.storeReg_syncedWrites (s : State) (r : Reg) (d : Word) : (s.storeReg r d).syncedWrites = s.syncedWrites := by
  cases r <;> rfl
@[simp] theorem State.storeReg_readerView (s : State) (r : Reg) (d : Word) : (s.storeReg r d).readerView = s.readerView := by
  cases r <;> rfl
@[simp] theorem State.storeReg_surfReady (s : State) (r : Reg) (d : Word) : (s.storeReg r d).surfReady = s.surfReady := by
  cases r <;> rfl
@[simp] theorem State.storeReg_lastResp (s : State) (r : Reg) (d : Word) : (s.storeReg r d).lastResp = s.lastResp := by
  cases r <;> rfl
@[simp] theorem State.storeReg_sinkBytes (s : State) (r : Reg) (d : Word) : (s.storeReg r d).sinkBytes = s.sinkBytes := by
  cases r <;> rfl
@[simp] theorem State.storeReg_hostQ (s : State) (r : Reg) (d : Word) : (s.storeReg r d).hostQ = s.hostQ := by
  cases r <;> rfl
@[simp] theorem State.storeReg_inQ (s : State) (r : Reg) (d : Word) : (s.storeReg r d).inQ = s.inQ := by
  cases r <;> rfl
@[simp] theorem State.storeReg_sinkQ (s : State) (r : Reg) (d : Word) : (s.storeReg r d).sinkQ = s.sinkQ := by
  cases r <;> rfl
@[simp] theorem State.storeReg_turns (s : State) (r : Reg) (d : Word) : (s.storeReg r d).turns = s.turns := by
  cases r <;> rfl
@[simp] theorem State.storeReg_resets (s : State) (r : Reg) (d : Word) : (s.storeReg r d).resets = s.resets := by
  cases r <;> rfl

/-! ### `State.writeReg`: the fields it never changes -/

@[simp] theorem State.writeReg_params (s : State) (r : Reg) (d : Word) : (s.writeReg r d).params = s.params := by
  unfold State.writeReg; split <;> simp
@[simp] theorem State.writeReg_resRgb (s : State) (r : Reg) (d : Word) : (s.writeReg r d).resRgb = s.resRgb := by
  unfold State.writeReg; split <;> simp
@[simp] theorem State.writeReg_resPix (s : State) (r : Reg) (d : Word) : (s.writeReg r d).resPix = s.resPix := by
  unfold State.writeReg; split <;> simp
@[simp] theorem State.writeReg_phase (s : State) (r : Reg) (d : Word) : (s.writeReg r d).phase = s.phase := by
  unfold State.writeReg; split <;> simp
@[simp] theorem State.writeReg_teeActive (s : State) (r : Reg) (d : Word) : (s.writeReg r d).teeActive = s.teeActive := by
  unfold State.writeReg; split <;> simp
@[simp] theorem State.writeReg_fbValid (s : State) (r : Reg) (d : Word) : (s.writeReg r d).fbValid = s.fbValid := by
  unfold State.writeReg; split <;> simp
@[simp] theorem State.writeReg_termCause (s : State) (r : Reg) (d : Word) : (s.writeReg r d).termCause = s.termCause := by
  unfold State.writeReg; split <;> simp
@[simp] theorem State.writeReg_cfgErr (s : State) (r : Reg) (d : Word) : (s.writeReg r d).cfgErr = s.cfgErr := by
  unfold State.writeReg; split <;> simp
@[simp] theorem State.writeReg_decodeCount (s : State) (r : Reg) (d : Word) : (s.writeReg r d).decodeCount = s.decodeCount := by
  unfold State.writeReg; split <;> simp
@[simp] theorem State.writeReg_fillLevel (s : State) (r : Reg) (d : Word) : (s.writeReg r d).fillLevel = s.fillLevel := by
  unfold State.writeReg; split <;> simp
@[simp] theorem State.writeReg_walkI (s : State) (r : Reg) (d : Word) : (s.writeReg r d).walkI = s.walkI := by
  unfold State.writeReg; split <;> simp
@[simp] theorem State.writeReg_walkJ (s : State) (r : Reg) (d : Word) : (s.writeReg r d).walkJ = s.walkJ := by
  unfold State.writeReg; split <;> simp
@[simp] theorem State.writeReg_teeOff (s : State) (r : Reg) (d : Word) : (s.writeReg r d).teeOff = s.teeOff := by
  unfold State.writeReg; split <;> simp
@[simp] theorem State.writeReg_teeRetries (s : State) (r : Reg) (d : Word) : (s.writeReg r d).teeRetries = s.teeRetries := by
  unfold State.writeReg; split <;> simp
@[simp] theorem State.writeReg_fb (s : State) (r : Reg) (d : Word) : (s.writeReg r d).fb = s.fb := by
  unfold State.writeReg; split <;> simp
@[simp] theorem State.writeReg_surf (s : State) (r : Reg) (d : Word) : (s.writeReg r d).surf = s.surf := by
  unfold State.writeReg; split <;> simp
@[simp] theorem State.writeReg_issued (s : State) (r : Reg) (d : Word) : (s.writeReg r d).issued = s.issued := by
  unfold State.writeReg; split <;> simp
@[simp] theorem State.writeReg_commandedWrites (s : State) (r : Reg) (d : Word) : (s.writeReg r d).commandedWrites = s.commandedWrites := by
  unfold State.writeReg; split <;> simp
@[simp] theorem State.writeReg_countedWrites (s : State) (r : Reg) (d : Word) : (s.writeReg r d).countedWrites = s.countedWrites := by
  unfold State.writeReg; split <;> simp
@[simp] theorem State.writeReg_syncedWrites (s : State) (r : Reg) (d : Word) : (s.writeReg r d).syncedWrites = s.syncedWrites := by
  unfold State.writeReg; split <;> simp
@[simp] theorem State.writeReg_readerView (s : State) (r : Reg) (d : Word) : (s.writeReg r d).readerView = s.readerView := by
  unfold State.writeReg; split <;> simp
@[simp] theorem State.writeReg_surfReady (s : State) (r : Reg) (d : Word) : (s.writeReg r d).surfReady = s.surfReady := by
  unfold State.writeReg; split <;> simp
@[simp] theorem State.writeReg_lastResp (s : State) (r : Reg) (d : Word) : (s.writeReg r d).lastResp = s.lastResp := by
  unfold State.writeReg; split <;> simp
@[simp] theorem State.writeReg_sinkBytes (s : State) (r : Reg) (d : Word) : (s.writeReg r d).sinkBytes = s.sinkBytes := by
  unfold State.writeReg; split <;> simp
@[simp] theorem State.writeReg_hostQ (s : State) (r : Reg) (d : Word) : (s.writeReg r d).hostQ = s.hostQ := by
  unfold State.writeReg; split <;> simp
@[simp] theorem State.writeReg_inQ (s : State) (r : Reg) (d : Word) : (s.writeReg r d).inQ = s.inQ := by
  unfold State.writeReg; split <;> simp
@[simp] theorem State.writeReg_sinkQ (s : State) (r : Reg) (d : Word) : (s.writeReg r d).sinkQ = s.sinkQ := by
  unfold State.writeReg; split <;> simp
@[simp] theorem State.writeReg_turns (s : State) (r : Reg) (d : Word) : (s.writeReg r d).turns = s.turns := by
  unfold State.writeReg; split <;> simp
@[simp] theorem State.writeReg_resets (s : State) (r : Reg) (d : Word) : (s.writeReg r d).resets = s.resets := by
  unfold State.writeReg; split <;> simp

end Sys2Proof.Machine
end

