-- ==== Sys2Proof/Laws/Ops.lean ====
section
/-! SUPPORT. For each shared operation, what it can do, said once. -/

namespace Sys2Proof.Machine

/-! ### The command-error primitive and the ends of a transaction -/

/-- R236: the first error is kept. -/
theorem State.raiseCmdError_cases (s : State) (c : CmdErrCode) (k : CfgCause) :
    (s.cmdErrCode = .noError ∧ s.raiseCmdError c k = { s with cmdErrCode := c, cmdErrCause := k }) ∨
      (s.cmdErrCode ≠ .noError ∧ s.raiseCmdError c k = s) := by
  unfold State.raiseCmdError
  split
  · exact .inl ⟨‹_›, rfl⟩
  · exact .inr ⟨‹_›, rfl⟩

theorem finish_next {s t : State} (h : finish s = .next t) : t = s.respond (.written .okay) := by
  simpa [finish] using h.symm

theorem commandError_next {c : CmdErrCode} {k : CfgCause} {s t : State} (h : commandError c k s = .next t) :
    t = (s.raiseCmdError c k).respond (.written .okay) :=
  finish_next h

/-- A surface-writing command reports its checks' error, or its writes are accepted. -/
theorem surfaceCommand_next {err : Option (CmdErrCode × CfgCause)} {ws : Except Fault (List SurfWrite)} {done : State → State}
    {s t : State} (h : surfaceCommand err ws done s = .next t) :
    (∃ c k, err = some (c, k) ∧ t = (s.raiseCmdError c k).respond (.written .okay)) ∨
      (∃ l, err = none ∧ ws = .ok l ∧ t = (done ((s.writeSurface l).completeCommand l)).respond (.written .okay)) := by
  unfold surfaceCommand at h
  split at h
  · exact .inl ⟨_, _, rfl, commandError_next h⟩
  · split at h
    · cases h
    · exact .inr ⟨_, rfl, rfl, finish_next h⟩

/-- A surface-writing command faults only as its writes do, and it is never refused. -/
theorem surfaceCommand_fault {err : Option (CmdErrCode × CfgCause)} {ws : Except Fault (List SurfWrite)} {done : State → State}
    {s : State} {f : Fault} (h : surfaceCommand err ws done s = .fault f) : err = none ∧ ws = .error f := by
  unfold surfaceCommand at h
  split at h
  · simp [commandError, finish] at h
  · split at h
    · cases h; exact ⟨rfl, rfl⟩
    · simp [finish] at h

theorem lowerSurfReady_next {s t : State} (h : lowerSurfReady s = .next t) :
    t = { s with surfReady := false } ∧
      ¬(s.surfReady = true ∧ (s.phase = .filling ∨ s.phase = .teeing ∨ s.phase = .decoding)) := by
  unfold lowerSurfReady at h
  split at h
  · cases h
  · cases h; exact ⟨rfl, ‹_›⟩

/-! ### The writes issued, and what a reader sees of them -/

/-- A host transaction orders at most the writes of the complete commands and of the counted decodes (R75). -/
theorem pollOrders_le (i : Instr) (s : State) : pollOrders i s ≤ max s.commandedWrites s.countedWrites := by
  unfold pollOrders
  split <;> (try split) <;> (try split) <;> (try split) <;> omega

/-- A transaction that is no poll changes nothing but the queue. -/
theorem State.takeRequest_of_no_order {s : State} {i : Instr} (h : pollOrders i s = 0) (q : List BusRequest) :
    s.takeRequest i q = { s with hostQ := q } := by
  simp [State.takeRequest, State.syncReader, h]

/-- A reader that has seen every write sees what they all make of the surface. -/
theorem State.prefixView_of_le {s : State} {k : Nat} (h : s.issued.length ≤ k) :
    s.prefixView k = applyWrites s.params.endian [] s.issued := by
  rw [State.prefixView, List.take_of_length_le h]

/-- What a reader sees is in canonical form. -/
theorem State.wf_prefixView (s : State) (k : Nat) : Memory.wf (s.prefixView k) = true := wf_applyWrites _ _ rfl

/-! ### The frame buffer -/

/-- An FB read gives the byte FB holds, or the free value. -/
theorem fbRead_of_lt {s : State} {k : Nat} (h : k < s.params.fbCap) :
    fbRead s k = .ok ((s.fb.read k).getD (Config.fbUnspecified s.resets k)) := by
  unfold fbRead
  rw [if_pos h]
  cases s.fb.read k <;> rfl

theorem fbRead_ok {s : State} {k : Nat} {b : Byte} (h : fbRead s k = .ok b) :
    k < s.params.fbCap ∧ b = (s.fb.read k).getD (Config.fbUnspecified s.resets k) := by
  by_cases hk : k < s.params.fbCap
  · rw [fbRead_of_lt hk] at h
    cases h
    exact ⟨hk, rfl⟩
  · simp [fbRead, hk] at h

/-- A run of FB reads inside FB_CAP gives its bytes in order. -/
theorem fbReadBytes_of_le (s : State) (n a : Nat) (h : a + n ≤ s.params.fbCap) :
    fbReadBytes s a n =
      .ok ((List.range' a n).map fun k => (s.fb.read k).getD (Config.fbUnspecified s.resets k)) := by
  induction n generalizing a with
  | zero => rfl
  | succ n ih =>
    rw [fbReadBytes, fbRead_of_lt (by omega), ih (a + 1) (by omega)]
    rfl

/-! ### Pixels and their writes -/

theorem pixelWrite_ok {s : State} {x y : Nat} {color : Word} {w : SurfWrite} (h : pixelWrite s x y color = .ok w) :
    x < s.sw ∧ y < s.sh ∧ w = ⟨s.pixelOffset x y, s.bpb, color⟩ := by
  unfold pixelWrite at h
  split at h
  · cases h
  · cases h; exact ⟨by omega, by omega, rfl⟩

theorem pixelWrite_of_lt {s : State} {x y : Nat} (color : Word) (hx : x < s.sw) (hy : y < s.sh) :
    pixelWrite s x y color = .ok ⟨s.pixelOffset x y, s.bpb, color⟩ :=
  if_neg (by omega)

/-- A decoded pixel's write is the pixel's, of the packed conversion of its three samples. -/
theorem decodePixel_ok {s : State} {i j : Nat} {w : SurfWrite} (h : decodePixel s i j = .ok w) :
    ∃ y u v, fbRead s (s.lumaIndex i j) = .ok y ∧ fbRead s (s.uBase + s.chromaIndex i j) = .ok u ∧
      fbRead s (s.vBase + s.chromaIndex i j) = .ok v ∧ pixelWrite s i j (s.pack (convert y u v)) = .ok w := by
  unfold decodePixel at h
  split at h
  · cases h
  · split at h
    · cases h
    · split at h
      · cases h
      · exact ⟨_, _, _, ‹_›, ‹_›, ‹_›, h⟩

/-- Collecting succeeds exactly when every pixel does; the writes are the pixels', in order. -/
theorem collectWrites_eq_ok {f : Nat → Nat → Except Fault SurfWrite} {g : Nat → Nat → SurfWrite} (ps : List (Nat × Nat))
    (h : ∀ p ∈ ps, f p.1 p.2 = .ok (g p.1 p.2)) : collectWrites f ps = .ok (ps.map fun p => g p.1 p.2) := by
  induction ps with
  | nil => rfl
  | cons p ps ih =>
    obtain ⟨i, j⟩ := p
    rw [collectWrites, h (i, j) (by simp), ih fun p hp => h p (by simp [hp])]
    rfl

theorem collectWrites_ok {f : Nat → Nat → Except Fault SurfWrite} {ps : List (Nat × Nat)} {ws : List SurfWrite}
    (h : collectWrites f ps = .ok ws) : ∀ w ∈ ws, ∃ p ∈ ps, f p.1 p.2 = .ok w := by
  induction ps generalizing ws with
  | nil => cases h; simp
  | cons p ps ih =>
    obtain ⟨i, j⟩ := p
    unfold collectWrites at h
    split at h
    · cases h
    · split at h
      · cases h
      · cases h
        rintro v hv
        rcases List.mem_cons.mp hv with rfl | hv
        · exact ⟨(i, j), by simp, ‹_›⟩
        · obtain ⟨p, hp, hf⟩ := ih ‹_› v hv
          exact ⟨p, by simp [hp], hf⟩

theorem collectWrites_error {f : Nat → Nat → Except Fault SurfWrite} {ps : List (Nat × Nat)} {e : Fault}
    (h : collectWrites f ps = .error e) : ∃ p ∈ ps, f p.1 p.2 = .error e := by
  induction ps with
  | nil => cases h
  | cons p ps ih =>
    obtain ⟨i, j⟩ := p
    unfold collectWrites at h
    split at h
    · cases h; exact ⟨(i, j), by simp, ‹_›⟩
    · split at h
      · cases h
        obtain ⟨p, hp, hf⟩ := ih ‹_›
        exact ⟨p, by simp [hp], hf⟩
      · cases h

/-- The pixels of a rectangle. -/
theorem mem_rasterPixels {x y w h : Nat} {p : Nat × Nat} :
    p ∈ rasterPixels x y w h ↔ x ≤ p.1 ∧ p.1 < x + w ∧ y ≤ p.2 ∧ p.2 < y + h := by
  obtain ⟨i, j⟩ := p
  simp only [rasterPixels, List.mem_flatMap, List.mem_map, List.mem_range, Prod.mk.injEq]
  constructor
  · rintro ⟨dy, hdy, dx, hdx, rfl, rfl⟩
    omega
  · rintro ⟨h1, h2, h3, h4⟩
    exact ⟨j - y, by omega, i - x, by omega, by omega, by omega⟩

@[simp] theorem rasterPixels_length (x y w h : Nat) : (rasterPixels x y w h).length = w * h := by
  simp [rasterPixels, List.length_flatMap, Nat.mul_comm]

/-! ### The streaming loop -/

/-- The walk's next position, or the end of the walk. -/
theorem State.advanceWalk_cases (s : State) :
    (s.walkI + 1 ≠ s.frameGeom.extractLsb' 0 16 ∧ s.advanceWalk = { s with walkI := s.walkI + 1 }) ∨
    (s.walkI + 1 = s.frameGeom.extractLsb' 0 16 ∧ s.walkJ + 1 ≠ s.frameGeom.extractLsb' 16 16 ∧
      s.advanceWalk = { s with walkI := 0, walkJ := s.walkJ + 1 }) ∨
    (s.walkI + 1 = s.frameGeom.extractLsb' 0 16 ∧ s.walkJ + 1 = s.frameGeom.extractLsb' 16 16 ∧
      s.advanceWalk = State.completeWalk { s with walkI := 0, walkJ := s.walkJ + 1 }) := by
  unfold State.advanceWalk
  split
  · split
    · exact .inr (.inr ⟨‹_›, ‹_›, rfl⟩)
    · exact .inr (.inl ⟨‹_›, ‹_›, rfl⟩)
  · exact .inl ⟨‹_›, rfl⟩

theorem decodeStep_next {s t : State} (h : decodeStep s = .next t) :
    (s.phase ≠ .decoding ∧ t = s) ∨
      ∃ w, s.phase = .decoding ∧ decodePixel s s.walkI.toNat s.walkJ.toNat = .ok w ∧ t = (s.writeSurface [w]).advanceWalk := by
  unfold decodeStep at h
  split at h
  · split at h
    · cases h
    · cases h; exact .inr ⟨_, ‹_›, ‹_›, rfl⟩
  · cases h; exact .inl ⟨‹_›, rfl⟩

theorem State.completeFrame_cases (s : State) :
    (s.teeActive = true ∧
      s.completeFrame = { s with fbValid := true, teeOff := 0, teeRetries := 0, phase := .teeing }) ∨
    (s.teeActive = false ∧ s.completeFrame = { s with fbValid := true, walkI := 0, walkJ := 0, phase := .decoding }) := by
  unfold State.completeFrame
  split
  · exact .inl ⟨‹_›, rfl⟩
  · exact .inr ⟨by simpa using ‹¬s.teeActive = true›, rfl⟩

theorem execInByte_next {d : Byte} {s t : State} (h : execInByte d s = .next t) :
    (s.phase ≠ .filling ∧ t = s) ∨
    (s.phase = .filling ∧ s.fillLevel.toNat < s.params.fbCap ∧
      (((s.fillLevel + 1).toNat = s.frameBytes ∧ t = (s.appendByte d).completeFrame) ∨
        ((s.fillLevel + 1).toNat ≠ s.frameBytes ∧ t = s.appendByte d))) := by
  unfold execInByte at h
  split at h
  · split at h
    · cases h
      refine .inr ⟨‹_›, ‹_›, ?_⟩
      split
      · exact .inl ⟨‹_›, rfl⟩
      · exact .inr ⟨‹_›, rfl⟩
    · cases h
  · cases h; exact .inl ⟨‹_›, rfl⟩

theorem State.teeNoProgress_cases (s : State) :
    (s.teeRetries = s.params.teeRetryLimit ∧ s.teeNoProgress = s.abandonTee) ∨
    (s.teeRetries ≠ s.params.teeRetryLimit ∧ s.teeNoProgress = { s with teeRetries := s.teeRetries + 1 }) := by
  unfold State.teeNoProgress
  split
  · exact .inl ⟨‹_›, rfl⟩
  · exact .inr ⟨‹_›, rfl⟩

theorem State.teeProgress_cases (s : State) (count : Word) (bytes : List Byte) :
    ((s.teeOff + count).toNat = s.frameBytes ∧
      s.teeProgress count bytes =
        { s with teeOff := s.teeOff + count, teeRetries := 0, sinkBytes := s.sinkBytes ++ bytes, walkI := 0, walkJ := 0, phase := .decoding }) ∨
    ((s.teeOff + count).toNat ≠ s.frameBytes ∧
      s.teeProgress count bytes =
        { s with teeOff := s.teeOff + count, teeRetries := 0, sinkBytes := s.sinkBytes ++ bytes }) := by
  simp only [State.teeProgress]
  split
  · exact .inl ⟨‹_›, rfl⟩
  · exact .inr ⟨‹_›, rfl⟩

theorem execSinkAcc_next {count : Word} {s t : State} (h : execSinkAcc count s = .next t) :
    (s.phase ≠ .teeing ∧ t = s) ∨ (s.phase = .teeing ∧ count = 0 ∧ t = s.teeNoProgress) ∨
    (∃ bytes, s.phase = .teeing ∧ count ≠ 0 ∧ count.toNat ≤ s.offerLength ∧
      fbReadBytes s s.teeOff.toNat count.toNat = .ok bytes ∧ t = s.teeProgress count bytes) := by
  unfold execSinkAcc at h
  split at h
  · split at h
    · cases h; exact .inr (.inl ⟨‹_›, ‹_›, rfl⟩)
    · split at h
      · cases h
      · split at h
        · cases h
        · cases h; exact .inr (.inr ⟨_, ‹_›, ‹_›, by omega, ‹_›, rfl⟩)
  · cases h; exact .inl ⟨‹_›, rfl⟩

theorem execStart_next {s t : State} (h : execStart s = .next t) :
    (s.phase ≠ .idle ∧ t = (s.raiseCmdError .wrongState .noCause).respond (.written .okay)) ∨
    (s.phase = .idle ∧ s.cfgCause ≠ .noCause ∧
      t = State.respond { s with cfgErr := s.cfgCause, phase := .error } (.written .okay)) ∨
    (s.phase = .idle ∧ s.cfgCause = .noCause ∧ t = s.startRun.respond (.written .okay)) := by
  unfold execStart at h
  split at h
  · exact .inl ⟨‹_›, commandError_next h⟩
  · split at h
    · exact .inr (.inl ⟨by simp_all, ‹_›, finish_next h⟩)
    · exact .inr (.inr ⟨by simp_all, by simp_all, finish_next h⟩)

theorem execCvt_next {s t : State} (h : execCvt s = .next t) :
    (s.packCause ≠ .noCause ∧ t = (s.raiseCmdError .badConfig s.packCause).respond (.written .okay)) ∨
    (s.packCause = .noCause ∧
      t = State.respond { s with resRgb := pack32 s.cvtRgb, resPix := s.pack s.cvtRgb } (.written .okay)) := by
  unfold execCvt at h
  split at h
  · exact .inl ⟨‹_›, commandError_next h⟩
  · exact .inr ⟨by simp_all, finish_next h⟩

/-! ### Register access and the turns -/

theorem execRegrd_next {size : BitVec 2} {addr : BitVec 8} {s t : State} (h : execRegrd size addr s = .next t) :
    ∃ r, t = s.respond r := by
  unfold execRegrd at h
  split at h <;> (cases h; exact ⟨_, rfl⟩)

theorem runCommandWord_next {data : Word} {s t : State} (h : runCommandWord data s = .next t) :
    (∃ e, decodeCmd data = .error e ∧
      (t = (s.raiseCmdError .illegalOp .noCause).respond (.written .okay) ∨
        t = (s.raiseCmdError .reservedBits .noCause).respond (.written .okay))) ∨
    (∃ c, decodeCmd data = .ok c ∧ runCommand c s = .next t) := by
  unfold runCommandWord at h
  split at h
  · exact .inl ⟨_, ‹_›, .inl (commandError_next h)⟩
  · exact .inl ⟨_, ‹_›, .inr (commandError_next h)⟩
  · exact .inr ⟨_, ‹_›, h⟩

theorem execRegwr_next {size : BitVec 2} {addr : BitVec 8} {data : Word} {s t : State} (h : execRegwr size addr data s = .next t) :
    t = s.respond (.written .busErr) ∨ (∃ r, r ≠ .cmd ∧ t = (s.writeReg r data).respond (.written .okay)) ∨
      runCommandWord data s = .next t := by
  unfold execRegwr at h
  split at h
  · cases h; exact .inl rfl
  · split at h
    · exact .inr (.inr h)
    · exact .inr (.inl ⟨_, ‹_›, finish_next h⟩)

theorem State.writeReg_cases (s : State) (r : Reg) (d : Word) :
    (r.isConfig = true ∧ s.phase ≠ .idle ∧ s.writeReg r d = s.raiseCmdError .regLocked .noCause) ∨
    ((r.isConfig = false ∨ s.phase = .idle) ∧ s.writeReg r d = s.storeReg r d) := by
  unfold State.writeReg
  split
  · exact .inl ⟨‹_ ∧ _›.1, ‹_ ∧ _›.2, rfl⟩
  · refine .inr ⟨?_, rfl⟩
    rename_i h
    cases hr : r.isConfig
    · exact .inl rfl
    · exact .inr (by simpa [hr] using h)

/-- A command is its own instruction's meaning. -/
theorem runCommand_eq_exec (c : Command) (s : State) : runCommand c s = exec c.toInstr s := by
  cases c <;> rfl

theorem step_of_no_turn {s : State} (h : s.turns = []) : step s = .next s := by
  unfold step stepTurns; rw [h]

theorem step_of_turn {s : State} {t : Turn} {rest : List Turn} (h : s.turns = t :: rest) :
    step s = runTurn t { s with turns := rest } := by
  unfold step stepTurns; rw [h]

end Sys2Proof.Machine
end

