-- ==== Sys2Proof/Laws/PerInstr.lean ====
section
/-! SUPPORT. Statements about every instruction as syntax, one lemma a constructor. -/

namespace Sys2Proof.Laws

/-- An instruction's encoding is a transaction of its own row's port (30_encoding.md R90). -/
def EncodesOnItsPort.Statement (i : Instr) : Prop := (encode i).port = i.port

theorem EncodesOnItsPort.regrd (size : BitVec 2) (addr : BitVec 8) : EncodesOnItsPort.Statement (.regrd size addr) := rfl
theorem EncodesOnItsPort.regwr (size : BitVec 2) (addr : BitVec 8) (data : Word) :
    EncodesOnItsPort.Statement (.regwr size addr data) := rfl
theorem EncodesOnItsPort.cvt : EncodesOnItsPort.Statement .cvt := rfl
theorem EncodesOnItsPort.wrpix : EncodesOnItsPort.Statement .wrpix := rfl
theorem EncodesOnItsPort.fill : EncodesOnItsPort.Statement .fill := rfl
theorem EncodesOnItsPort.decode : EncodesOnItsPort.Statement .decode := rfl
theorem EncodesOnItsPort.start : EncodesOnItsPort.Statement .start := rfl
theorem EncodesOnItsPort.inByte (data : Byte) : EncodesOnItsPort.Statement (.inByte data) := rfl
theorem EncodesOnItsPort.inEos : EncodesOnItsPort.Statement .inEos := rfl
theorem EncodesOnItsPort.inErr : EncodesOnItsPort.Statement .inErr := rfl
theorem EncodesOnItsPort.sinkAcc (count : Word) : EncodesOnItsPort.Statement (.sinkAcc count) := rfl
theorem EncodesOnItsPort.sinkFail : EncodesOnItsPort.Statement .sinkFail := rfl
theorem EncodesOnItsPort.sinkClosed : EncodesOnItsPort.Statement .sinkClosed := rfl

end Sys2Proof.Laws
end

