-- ==== Sys2Proof/Laws/Step.lean ====
section
/-! SUPPORT. What a step can do, and the one way to show that every step keeps a property. -/

namespace Sys2Proof.Machine

/-- A step that answers a next state waits, or is one agent's turn. -/
theorem step_next {s t : State} (h : step s = .next t) :
    (s.turns = [] ∧ t = s) ∨ ∃ turn rest, s.turns = turn :: rest ∧ runTurn turn { s with turns := rest } = .next t := by
  cases ht : s.turns with
  | nil => rw [step_of_no_turn ht] at h; cases h; exact .inl ⟨rfl, rfl⟩
  | cons turn rest => rw [step_of_turn ht] at h; exact .inr ⟨_, _, rfl, h⟩

theorem runTransfer_next {tr : Transfer} {s t : State} (h : runTransfer tr s = .next t) :
    (∃ i, decodeTransfer tr = .ok i ∧ exec i s = .next t) ∨ t = s := by
  unfold runTransfer at h
  split at h
  · exact .inl ⟨_, ‹_›, h⟩
  · split at h <;> cases h
    exact .inr rfl

theorem hostTurn_next {s t : State} (h : hostTurn s = .next t) :
    (s.hostQ = [] ∧ t = s) ∨
      ∃ r q, s.hostQ = r :: q ∧ exec (decodeBus r.req r.data) (s.takeRequest (decodeBus r.req r.data) q) = .next t := by
  unfold hostTurn at h
  split at h
  · cases h; exact .inl ⟨‹_›, rfl⟩
  · exact .inr ⟨_, _, ‹_›, h⟩

theorem hostTurnSurfLost_next {s t : State} (h : hostTurnSurfLost s = .next t) :
    (s.hostQ = [] ∧ lowerSurfReady s = .next t) ∨
      ∃ r q u, s.hostQ = r :: q ∧ commandWrites (decodeBus r.req r.data) { s with hostQ := q } = none ∧
        exec (decodeBus r.req r.data) (s.takeRequest (decodeBus r.req r.data) q) = .next u ∧ lowerSurfReady u = .next t := by
  unfold hostTurnSurfLost at h
  split at h
  · exact .inl ⟨‹_›, h⟩
  · split at h
    · cases h
    · cases h
    · split at h
      · exact .inr ⟨_, _, _, ‹_›, ‹_›, ‹_›, h⟩
      · cases h
      · cases h

theorem producerTurn_next {s t : State} (h : producerTurn s = .next t) :
    t = s ∨ ∃ w q, s.phase = .filling ∧ s.inQ = w :: q ∧ exec (decodeInput w) { s with inQ := q } = .next t := by
  unfold producerTurn at h
  split at h
  · split at h
    · cases h; exact .inl rfl
    · refine .inr ⟨_, _, ?_, ‹_›, h⟩
      simpa [State.inReady] using ‹s.inReady = true›
  · cases h; exact .inl rfl

theorem sinkTurn_next {s t : State} (h : sinkTurn s = .next t) :
    t = s ∨ ∃ w q i, s.phase = .teeing ∧ s.sinkQ = w :: q ∧ decodeSink w = .ok i ∧
      exec i { s with sinkQ := q } = .next t := by
  unfold sinkTurn at h
  split at h
  · split at h
    · cases h; exact .inl rfl
    · rename_i hp _ w q hq
      unfold runTransfer at h
      split at h
      · exact .inr ⟨_, _, _, hp, hq, ‹_›, h⟩
      · simp [hp] at h
  · cases h; exact .inl rfl

theorem resetDuringTurn_next {n : Nat} {s t : State} (h : resetDuringTurn n s = .next t) :
    (∃ q, t = State.resetEvent { s with hostQ := q }) ∨
      ∃ r q ws, s.hostQ = r :: q ∧ commandWrites (decodeBus r.req r.data) { s with hostQ := q } = some (.ok ws) ∧
        t = State.resetEvent (({ s with hostQ := q } : State).writeSurface (ws.take n)) := by
  unfold resetDuringTurn at h
  split at h
  · cases h; exact .inl ⟨s.hostQ, rfl⟩
  · split at h
    · cases h
    · cases h; exact .inr ⟨_, _, _, ‹_›, ‹_›, rfl⟩
    · cases h; exact .inl ⟨_, rfl⟩

/-- A property that the environment's queues do not matter to is kept by every step when every instruction keeps it, and the decode step, a reader's
poll and look, the changes of surf_ready and reset do, reset in the middle of a command among them. -/
theorem step_keeps (P : State → Prop)
    (hqueues : ∀ (s : State) hq iq sq tn, P s → P { s with hostQ := hq, inQ := iq, sinkQ := sq, turns := tn })
    (hexec : ∀ i s t, P s → exec i s = .next t → P t)
    (hwalk : ∀ s t, P s → decodeStep s = .next t → P t)
    (hpoll : ∀ (s : State) n, n ≤ max s.commandedWrites s.countedWrites → P s → P (s.syncReader n))
    (hlook : ∀ (s : State) n, P s → P (s.readSurface n))
    (hrise : ∀ s : State, P s → P { s with surfReady := true })
    (hfall : ∀ s : State, P s → ¬(s.surfReady = true ∧ s.running) → P { s with surfReady := false })
    (hreset : ∀ s : State, P s → P s.resetEvent)
    (hcut : ∀ i (s : State) ws n, P s → commandWrites i s = some (.ok ws) → P (s.writeSurface (ws.take n)).resetEvent)
    {s t : State} (hs : P s) (h : step s = .next t) : P t := by
  have hturns : ∀ (u : State) tn, P u → P { u with turns := tn } := fun u tn hu =>
    hqueues u u.hostQ u.inQ u.sinkQ tn hu
  have hhost : ∀ (u : State) q, P u → P { u with hostQ := q } := fun u q hu => hqueues u q u.inQ u.sinkQ u.turns hu
  have htake : ∀ (u : State) i q, P u → P (u.takeRequest i q) := by
    intro u i q hu
    exact hpoll _ _ (pollOrders_le i u) (hhost _ _ hu)
  have hlower : ∀ {u v : State}, P u → lowerSurfReady u = .next v → P v := by
    intro u v hu hl
    obtain ⟨rfl, hn⟩ := lowerSurfReady_next hl
    exact hfall u hu hn
  rcases step_next h with ⟨-, rfl⟩ | ⟨turn, rest, -, hr⟩
  · exact hs
  replace hs := hturns s rest hs
  generalize ({ s with turns := rest } : State) = s at hs hr
  cases turn with
  | host =>
    rcases hostTurn_next hr with ⟨-, rfl⟩ | ⟨r, q, -, he⟩
    · exact hs
    · exact hexec _ _ _ (htake _ _ _ hs) he
  | hostSurfLost =>
    rcases hostTurnSurfLost_next hr with ⟨-, hl⟩ | ⟨r, q, u, -, -, he, hl⟩
    · exact hlower hs hl
    · exact hlower (hexec _ _ _ (htake _ _ _ hs) he) hl
  | producer =>
    rcases producerTurn_next hr with rfl | ⟨w, q, -, -, he⟩
    · exact hs
    · exact hexec _ _ _ (hqueues s s.hostQ q s.sinkQ s.turns hs) he
  | sink =>
    rcases sinkTurn_next hr with rfl | ⟨w, q, i, -, -, -, he⟩
    · exact hs
    · exact hexec _ _ _ (hqueues s s.hostQ s.inQ q s.turns hs) he
  | walk => exact hwalk _ _ hs hr
  | surfReady b =>
    cases b with
    | true => cases hr; exact hrise _ hs
    | false => exact hlower hs hr
  | readSurface n => cases hr; exact hlook _ _ hs
  | readAfterPoll n => cases hr; exact hlook _ _ hs
  | readAfterCommand n => cases hr; exact hlook _ _ hs
  | reset => cases hr; exact hreset _ hs
  | resetDuring n =>
    rcases resetDuringTurn_next hr with ⟨q, rfl⟩ | ⟨r, q, ws, -, hc, rfl⟩
    · exact hreset _ (hhost _ _ hs)
    · exact hcut _ _ _ _ (hhost _ _ hs) hc

/-! ### The external reader -/

/-- The reader's views are the prefixes of the issued writes (R72). -/
theorem State.mem_readerViews (s : State) (m : Memory) :
    m ∈ s.readerViews ↔ ∃ k, k ≤ s.issued.length ∧ m = s.prefixView k := by
  simp only [State.readerViews, List.mem_map, List.mem_range]
  constructor
  · rintro ⟨k, hk, rfl⟩; exact ⟨k, by omega, rfl⟩
  · rintro ⟨k, hk, rfl⟩; exact ⟨k, by omega, rfl⟩

/-- Every look shows one of the views. -/
theorem State.prefixView_mem_readerViews (s : State) (k : Nat) : s.prefixView k ∈ s.readerViews := by
  rw [State.mem_readerViews]
  by_cases h : k ≤ s.issued.length
  · exact ⟨k, h, rfl⟩
  · exact ⟨_, le_rfl, by rw [State.prefixView_of_le (by omega), State.prefixView_of_le le_rfl]⟩

/-! ### The host during a run -/

/-- t is s but for what a host transaction may change in any state: the ARG and RES registers, CMD_ERR and the response. -/
def State.OnlyHostFields (s t : State) : Prop :=
  ∃ a0 a1 a2 a3 rgb pix code cause resp, t = { s with
    arg0 := a0, arg1 := a1, arg2 := a2, arg3 := a3, resRgb := rgb, resPix := pix
    cmdErrCode := code, cmdErrCause := cause, lastResp := resp }

theorem State.onlyHostFields_respond (s : State) (r : BusResponse) : s.OnlyHostFields (s.respond r) :=
  ⟨_, _, _, _, _, _, _, _, _, rfl⟩

theorem commandError_onlyHostFields (c : CmdErrCode) (k : CfgCause) (s : State) :
    ∃ t, commandError c k s = .next t ∧ s.OnlyHostFields t := by
  refine ⟨_, rfl, ?_⟩
  rcases State.raiseCmdError_cases s c k with ⟨-, e⟩ | ⟨-, e⟩ <;> rw [e] <;> exact ⟨_, _, _, _, _, _, _, _, _, rfl⟩

/-- During a run every command but CVT is WRONG_STATE, and CVT runs (R164, R188, R201, R147). -/
theorem runCommand_running (c : Command) {s : State} (h : s.running) : ∃ t, runCommand c s = .next t ∧ s.OnlyHostFields t := by
  have hidle : s.phase ≠ .idle := by rintro e; simp [State.running, e] at h
  have hend : s.phase ≠ .terminated := by rintro e; simp [State.running, e] at h
  have hpixel : s.pixelCommandError = some (.wrongState, .noCause) := if_pos ⟨hidle, hend⟩
  have hdecode : s.decodeCommandError = some (.wrongState, .noCause) := if_pos ⟨hidle, hend⟩
  have hwrong := commandError_onlyHostFields .wrongState .noCause s
  cases c with
  | cvt =>
    simp only [runCommand, execCvt]
    split
    · exact commandError_onlyHostFields _ _ s
    · exact ⟨_, rfl, _, _, _, _, _, _, _, _, _, rfl⟩
  | wrpix => simpa only [runCommand, execWrpix, hpixel, surfaceCommand] using hwrong
  | fill => simpa only [runCommand, execFill, hpixel, surfaceCommand] using hwrong
  | decode => simpa only [runCommand, execDecode, hdecode, surfaceCommand] using hwrong
  | start => simpa only [runCommand, execStart, if_pos hidle] using hwrong

theorem execRegwr_running (size : BitVec 2) (addr : BitVec 8) (data : Word) {s : State} (h : s.running) :
    ∃ t, execRegwr size addr data s = .next t ∧ s.OnlyHostFields t := by
  have hidle : s.phase ≠ .idle := by rintro e; simp [State.running, e] at h
  unfold execRegwr
  split
  · exact ⟨_, rfl, s.onlyHostFields_respond _⟩
  · rename_i r _
    split
    · unfold runCommandWord
      split
      · exact commandError_onlyHostFields _ _ s
      · exact commandError_onlyHostFields _ _ s
      · exact runCommand_running _ h
    · rcases State.writeReg_cases s r data with ⟨-, -, e⟩ | ⟨hr, e⟩ <;> rw [e]
      · exact commandError_onlyHostFields _ _ s
      · refine ⟨_, rfl, ?_⟩
        replace hr : r.isConfig = false := hr.resolve_right hidle
        cases r <;> first | exact ⟨_, _, _, _, _, _, _, _, _, rfl⟩ | cases hr

/-- A register-port transaction in FILLING, TEEING or DECODING is answered, and reaches nothing that the run depends on (R122, R240). -/
theorem exec_bus_running (req : BitVec 11) (data : Word) {s : State} (h : s.running) :
    ∃ t, exec (decodeBus req data) s = .next t ∧ s.OnlyHostFields t := by
  unfold decodeBus
  split
  · split
    · split
      · rw [← runCommand_eq_exec]; exact runCommand_running _ h
      · exact execRegwr_running _ _ _ h
    · exact execRegwr_running _ _ _ h
  · simp only [exec, execRegrd]
    split <;> exact ⟨_, rfl, s.onlyHostFields_respond _⟩

/-- So does a turn of the host during a run, which may also synchronise the reader. -/
theorem hostTurn_running {s : State} (h : s.running) :
    ∃ t, hostTurn s = .next t ∧ ∃ q n, State.OnlyHostFields { s with hostQ := q, syncedWrites := n } t := by
  unfold hostTurn
  split
  · exact ⟨s, rfl, s.hostQ, s.syncedWrites, _, _, _, _, _, _, _, _, _, rfl⟩
  · rename_i r q _
    show ∃ t, exec (decodeBus r.req r.data) (s.takeRequest (decodeBus r.req r.data) q) = .next t ∧ _
    obtain ⟨t, ht, ho⟩ := exec_bus_running r.req r.data (s := s.takeRequest (decodeBus r.req r.data) q)
      (by simpa [State.running] using h)
    exact ⟨t, ht, q, _, ho⟩

end Sys2Proof.Machine
end

