-- ==== Sys2Proof/Tests/Slice0.lean ====
section
/-! SUPPORT. The model's own tests: what the well-formedness check refuses, words written out from 30_encoding.md, one step of each instruction with
the values of 95_test_vectors.md, and for every statement with hypotheses a state and operands that meet them. -/

namespace Sys2Proof.Tests

open Sys2Proof Sys2Proof.Machine Sys2Proof.Spec

/-! ## Well-formedness refuses -/

theorem test_wellFormed_refuses_regrd_size : Instr.wellFormed (.regrd 1 0x3C) = false := by decide
theorem test_wellFormed_refuses_regrd_misaligned : Instr.wellFormed (.regrd 2 0x3E) = false := by decide
theorem test_wellFormed_refuses_regwr_size : Instr.wellFormed (.regwr 3 0x30 5) = false := by decide
theorem test_wellFormed_refuses_regwr_misaligned : Instr.wellFormed (.regwr 2 0x01 0) = false := by decide
theorem test_wellFormed_refuses_shadowed_command :
    ([1, 2, 3, 4, 5] : List Word).all (fun w => !Instr.wellFormed (.regwr 2 0x30 w)) = true := by decide
theorem test_wellFormed_accepts : Instr.wellFormed (.regrd 2 0xFC) = true ∧ Instr.wellFormed (.regwr 2 0x30 0x14) = true := by decide

/-! ## Decoding words written out from the encodings (R91, R93, R94, R97, R98; T9, T11, T12) -/

theorem test_decode_regrd : decodeBus 0b0_10_00000100 0 = .regrd 2 0x04 := by decide
theorem test_decode_regrd_sizes :
    decodeBus 0b0_01_00111100 0 = .regrd 1 0x3C ∧ decodeBus 0b0_10_00111110 7 = .regrd 2 0x3E := by decide
theorem test_decode_regwr : decodeBus 0b1_10_00010000 0x120 = .regwr 2 0x10 0x120 := by decide
theorem test_decode_regwr_reserved_cmd :
    decodeBus 0b1_10_00110000 0x10 = .regwr 2 0x30 0x10 ∧ decodeBus 0b1_11_00110000 5 = .regwr 3 0x30 5 := by decide
theorem test_decode_cvt : decodeBus 0b1_10_00110000 0b0001 = .cvt := by decide
theorem test_decode_wrpix : decodeBus 0b1_10_00110000 0b0010 = .wrpix := by decide
theorem test_decode_fill : decodeBus 0b1_10_00110000 0b0011 = .fill := by decide
theorem test_decode_decode : decodeBus 0b1_10_00110000 0b0100 = .decode := by decide
theorem test_decode_start : decodeBus 0b1_10_00110000 0b0101 = .start := by decide
theorem test_decode_inByte : decodeInput 0b00_11101011 = .inByte 0xEB := by decide
theorem test_decode_inEos : decodeInput 0b01_10101011 = .inEos := by decide
theorem test_decode_inErr : decodeInput 0b10_00000000 = .inErr ∧ decodeInput 0b11_11111111 = .inErr := by decide
theorem test_decode_sinkAcc : decodeSink 0x0_0000000A = .ok (.sinkAcc 10) := by rfl
theorem test_decode_sinkFail : decodeSink 0x1_00000000 = .ok .sinkFail := by rfl
theorem test_decode_sinkClosed : decodeSink 0x2_00000000 = .ok .sinkClosed := by rfl
theorem test_decode_sink_reserved : decodeSink 0x3_00000000 = .error .sinkReserved := by rfl
theorem test_table_words :
    decodeTableWord 16 0x600 = some (.regwr 2 0 0) ∧ decodeTableWord 32 2 = some .wrpix ∧ decodeTableWord 16 0x100 = some .inEos ∧
      decodeTableWord 40 0x200000000 = some .sinkClosed ∧ decodeTableWord 40 0x300000000 = none := by decide

/-! ## States -/

/-- The parameters of 95_test_vectors.md. -/
def vectorParams : Params := ⟨460800, 32, .little, 2⟩

/-- IDLE: a 4×4 surface of 32 bits a pixel with STRIDE 16, a 2×2 frame, surf_ready 1. -/
def idleState : State :=
  { State.reset with
    params := vectorParams, surfReady := true, surfGeom := 0x00040004, surfStride := 16, surfBpp := 32, frameGeom := 0x00020002 }

/-- The same surface with 16 bits a pixel, STRIDE 10 and the layout of T2's first row. -/
def idle16 : State := { idleState with surfBpp := 16, surfStride := 10, chanLayout := 0x000556B5 }

/-- The first frame of program P5. -/
def frameBytes : List Byte := [0x10, 0x80, 0xEB, 0x11, 0x80, 0x80]
def frameMemory : Memory := [(0, 0x10), (1, 0x80), (2, 0xEB), (3, 0x11), (4, 0x80), (5, 0x80)]

def fillingState : State := { idleState with phase := .filling }
/-- FILLING with five of six bytes in. -/
def fillingLast : State := { fillingState with fillLevel := 5, fb := frameMemory.take 5 }
/-- DECODING at the first pixel. -/
def decodingState : State := { idleState with phase := .decoding, fbValid := true, fillLevel := 6, fb := frameMemory }
/-- TEEING, nothing accepted yet. -/
def teeingState : State :=
  { idleState with phase := .teeing, ctrl := 1, teeActive := true, fbValid := true, fillLevel := 6, fb := frameMemory }
/-- TERMINATED with a whole frame in FB. -/
def endState : State := { idleState with phase := .terminated, fbValid := true, fb := frameMemory }

/-- What holds of the state a step answers; false for a fault. -/
def after (r : Result) (p : State → Bool) : Bool :=
  match r with
  | .next t => p t
  | .fault _ => false
  | .refused _ => false

def faults (r : Result) (f : Fault) : Bool :=
  match r with
  | .next _ => false
  | .fault g => f == g
  | .refused _ => false

/-- The four bytes of the surface at an offset. -/
def surf4 (s : State) (a : Nat) : List (Option Byte) := (List.range 4).map fun k => Memory.read s.surf (a + k)

/-! ## One step of each instruction -/

theorem test_regrd_frame_geom_after_reset :  -- T9
    after (exec (.regrd 2 0x04) State.reset) (fun t => t.lastResp == some (.read .okay 0x01E00280)) = true := by decide
theorem test_regrd_halfword_is_buserr :  -- T9
    after (exec (.regrd 1 0x3C) endState) (fun t => t.lastResp == some (.read .busErr 0)) = true := by decide
theorem test_regwr_masks_reserved_bits :  -- R121's example
    after (exec (.regwr 2 0x10 0x120) State.reset) (fun t => t.surfBpp == 0x20) = true := by decide
theorem test_regwr_locked_in_filling :  -- T9
    after (exec (.regwr 2 0x04 0) fillingState) (fun t => t.frameGeom == 0x00020002 && t.cmdErrWord == 0x006) = true := by decide
theorem test_cvt_32 :  -- T3
    after (exec .cvt { idleState with arg0 := 0x00C04080 }) (fun t => t.resRgb == 0x000167E9 && t.resPix == 0x000167E9) = true := by decide
theorem test_cvt_16 :  -- T3
    after (exec .cvt { idle16 with arg0 := 0x00C04080 }) (fun t => t.resRgb == 0x000167E9 && t.resPix == 0x033D) = true := by decide
theorem test_wrpix_keeps_the_top_byte :  -- T5
    after (exec .wrpix { idleState with arg1 := 0x00030003, arg2 := 0xAB123456 })
      (fun t => surf4 t 60 == [some 0x56, some 0x34, some 0x12, some 0xAB]) = true := by decide
theorem test_wrpix_16_big_endian :  -- T4.4
    after (exec .wrpix { idle16 with params := { vectorParams with endian := .big }, arg1 := 0x00010000, arg2 := 0xFFFFF800 })
      (fun t => surf4 t 10 == [some 0xF8, some 0x00, none, none]) = true := by decide
theorem test_fill_rectangle :  -- T5
    after (exec .fill { idle16 with surfStride := 8, arg1 := 0x00010001, arg2 := 0xF800, arg3 := 0x00020002 })
      (fun t => surf4 t 8 == [none, none, some 0x00, some 0xF8] && surf4 t 18 == [some 0x00, some 0xF8, some 0x00, some 0xF8] &&
        surf4 t 14 == [none, none, none, none]) = true := by decide
theorem test_fill_does_not_wrap :  -- T5
    faults (exec .fill { idleState with arg1 := 0x0000FFFF, arg3 := 0x00010002 }) .surfaceOutOfBounds = true := by decide
theorem test_decode_paints :  -- P5
    after (exec .decode endState)
      (fun t => surf4 t 4 == [some 0x82, some 0x82, some 0x82, some 0x00] && surf4 t 20 == [some 0x01, some 0x01, some 0x01, some 0x00] &&
        t.decodeCount == 1) = true := by decide
theorem test_decode_after_reset :  -- T8, with surf_ready = 1
    after (exec .decode { State.reset with surfReady := true }) (fun t => t.cmdErrWord == 0x204) = true := by decide
theorem test_start_with_tee :  -- T6
    after (exec .start { idleState with ctrl := 1 }) (fun t => t.statusWord == 0x009) = true := by decide
theorem test_start_odd_width :  -- R201's example
    after (exec .start { idleState with frameGeom := 0x00020005, surfGeom := 0x00040008, surfStride := 32 })
      (fun t => t.statusWord == 0x745 && t.cmdErrWord == 0) = true := by decide
theorem test_inByte_first_of_a_frame :  -- T11
    after (exec (.inByte 0x10) { fillingState with fbValid := true })
      (fun t => t.fb == [(0, 0x10)] && t.fillLevel == 1 && t.statusWord == 0x001) = true := by decide
theorem test_inByte_last_of_a_frame :  -- T11
    after (exec (.inByte 0x80) { fillingLast with teeActive := true }) (fun t => t.fb == frameMemory && t.statusWord == 0x01A) = true := by
  decide
theorem test_inEos_at_a_frame_boundary :  -- T11
    after (exec .inEos { fillingState with fbValid := true }) (fun t => t.statusWord == 0x0D4) = true := by decide
theorem test_inErr : after (exec .inErr fillingState) (fun t => t.statusWord == 0x0E4) = true := by decide  -- T11
theorem test_sinkAcc_whole_offer :  -- T12
    after (exec (.sinkAcc 6) teeingState) (fun t => t.statusWord == 0x01B && t.sinkBytes == frameBytes) = true := by decide
theorem test_sinkAcc_above_the_offer :  -- T12
    faults (exec (.sinkAcc 3) { teeingState with teeOff := 4 }) .sinkProtocol = true := by decide
theorem test_sinkFail_last_retry :  -- T12
    after (exec .sinkFail { teeingState with teeRetries := 2 }) (fun t => t.statusWord == 0x013) = true := by decide
theorem test_sinkClosed : after (exec .sinkClosed teeingState) (fun t => t.statusWord == 0x013) = true := by decide  -- T12
theorem test_step_runs_a_fetched_word :
    after (step (State.reset.withFetchWord 32 1)) (fun t => t.cmdErrWord == 0x204) = true := by decide  -- T3

/-- R72: after the first two pixels of a walk a reader may have seen the first alone; R187's step issued both. -/
theorem test_reader_sees_a_prefix_of_the_walk :
    after (run 3 { decodingState with turns := [.walk, .walk, .readSurface 1] })
      (fun t => t.readerView == some [(0, 0x00), (1, 0x00), (2, 0x00), (3, 0x00)] && t.issued.length == 2) = true := by decide
/-- R75: the read of DECODE_COUNT orders the whole DECODE before the look. -/
theorem test_poll_synchronises_the_reader :
    after (run 3 { endState with hostQ := [⟨0x630, 4⟩, ⟨0x244, 0⟩], turns := [.host, .host, .readAfterPoll 0] })
      (fun t => t.readerView == some t.surf && t.issued.length == 4) = true := by decide

/-- R74, R266: a poll of STATUS in IDLE orders the WRPIX before it; the software that wrote CMD needs no poll. -/
theorem test_poll_after_a_pixel_command :
    after (run 3 { idleState with hostQ := [⟨0x630, 2⟩, ⟨0x23C, 0⟩], turns := [.host, .host, .readAfterPoll 0] })
      (fun t => t.readerView == some t.surf && t.surf.length == 4) = true ∧
    after (run 2 { idleState with hostQ := [⟨0x630, 2⟩], turns := [.host, .readAfterCommand 0] })
      (fun t => t.readerView == some t.surf && t.surf.length == 4) = true ∧
    after (run 2 { idleState with hostQ := [⟨0x630, 2⟩], turns := [.host, .readAfterPoll 0] })
      (fun t => t.readerView == some []) = true := by decide

/-! ## Every statement's hypotheses can be met -/

/-- The invariant of a state is that of the state with other queues. -/
theorem inv_with_queues {s : State} (h : s.Inv) (hq : List BusRequest) (iq : List (BitVec 10)) (sq : List (BitVec 34)) (tn : List Turn) :
    State.Inv { s with hostQ := hq, inQ := iq, sinkQ := sq, turns := tn } :=
  ⟨h.paramsLegal, h.memoryCanonical, h.memoryInRange, h.surfaceIssued, h.reservedZero, h.runConfigValid, h.frameConsistent, h.teeConsistent,
    h.walkInFrame, h.statusConsistent⟩

theorem idleState_inv : idleState.Inv := by constructor <;> decide
theorem fillingState_inv : fillingState.Inv := by constructor <;> decide
theorem decodingState_inv : decodingState.Inv := by constructor <;> decide
theorem teeingState_inv : teeingState.Inv := by constructor <;> decide
theorem endState_inv : endState.Inv := by constructor <;> decide

theorem witness_MalformedRequestsGetBusErr :
    malformed 3 0x3C ∧ malformed 2 0x01 ∧ malformed 2 0x1C ∧ malformed 2 0x4C ∧ ¬ malformed 2 0x48 ∧ ¬ malformed 2 0x20 := by decide
theorem witness_RegwrStoresConfigurationInIdle : idleState.phase = .idle := by decide
theorem witness_RegwrConfigurationLockedOutsideIdle :
    endState.phase ≠ .idle ∧ (0x18 : BitVec 8) ∈ ([0x00, 0x04, 0x08, 0x0C, 0x10, 0x14, 0x18] : List (BitVec 8)) := by decide
theorem witness_ReadAfterWriteReturnsMaskedValue :
    ((0x18 : BitVec 8) ∈ ([0x00, 0x04, 0x08, 0x0C, 0x10, 0x14, 0x18] : List (BitVec 8)) ∧ idleState.phase = .idle) ∧
      (0x20 : BitVec 8) ∈ ([0x20, 0x24, 0x28, 0x2C] : List (BitVec 8)) := by decide
theorem witness_FirstCommandErrorIsKept_kept :
    ∃ t, step { idleState with cmdErrCode := .illegalOp, turns := [.host], hostQ := [⟨0x630, 0x14⟩] } = .next t ∧
      CmdErrCode.illegalOp ≠ .noError := ⟨_, rfl, by decide⟩
theorem witness_FirstCommandErrorIsKept_cleared :
    ∃ t, step { idleState with cmdErrCode := .illegalOp, turns := [.host], hostQ := [⟨0x640, 0⟩] } = .next t ∧
      t.cmdErrCode = .noError := ⟨_, rfl, by decide⟩
theorem witness_CvtPacksFor32BitSurface : idleState.bpp = 32 := by decide
theorem witness_CvtPacksFor16BitSurface : idle16.bpp = 16 ∧ layoutOK idle16.chanLayout = true := by decide
theorem witness_CvtRejectsUnpackableConfiguration :
    (State.reset.bpp ≠ 16 ∧ State.reset.bpp ≠ 32) ∧
      (State.bpp { idle16 with chanLayout := 0x000566B5 } = 16 ∧ layoutOK 0x000566B5 = false) := by decide
theorem witness_InBoundsPixelsAlignedAndDisjoint :
    idle16.surfCause = .noCause ∧ 3 < idle16.sw ∧ 3 < idle16.sh ∧ 0 < idle16.sw ∧ (3, 3) ≠ (0, 3) := by decide
theorem witness_WrpixWritesOnePixel :
    State.phase { idleState with arg1 := 0x00030003 } = .idle ∧ State.surfCause { idleState with arg1 := 0x00030003 } = .noCause ∧
      (0x00030003 : Word).toNat % 65536 < idleState.sw ∧ (0x00030003 : Word).toNat / 65536 < idleState.sh := by decide
/-- A rectangle that touches the surface's last column and row, and an empty one outside it. -/
theorem witness_FillPaintsExactlyTheRectangle :
    idleState.phase = .idle ∧ idleState.surfCause = .noCause ∧ (2 + 2 ≤ idleState.sw ∧ 2 + 2 ≤ idleState.sh) ∧
      (0x00050000 : Word).toNat % 65536 = 0 := by decide
theorem witness_FillIssuesWritesInRasterOrder :
    State.argX { idleState with arg1 := 0x00020002, arg3 := 0x00020002 } + State.argW { idleState with arg3 := 0x00020002 } ≤ idleState.sw ∧
      State.argYPos { idleState with arg1 := 0x00020002 } + State.argH { idleState with arg3 := 0x00020002 } ≤ idleState.sh := by decide
/-- x = SW alone, y = SH alone, and a rectangle one column too wide. -/
theorem witness_OutOfBoundsPixelsFault :
    endState.phase = .terminated ∧ endState.surfCause = .noCause ∧ endState.sw ≤ (0x00000004 : Word).toNat % 65536 ∧
      endState.sh ≤ (0x00040000 : Word).toNat / 65536 ∧ endState.sw < 3 + 2 := by decide
theorem witness_PixelCommandErrorsInOrder :
    (fillingState.phase ≠ .idle ∧ fillingState.phase ≠ .terminated) ∧
      (State.reset.phase = .idle ∧ State.reset.surfCause ≠ .noCause) := by decide
theorem witness_WrittenPixelSurvivesOtherPixels :
    idleState.surfCause = .noCause ∧ pixelWrite idleState 0 3 0x00FF7DFF = .ok ⟨48, 4, 0x00FF7DFF⟩ ∧ (3, 3) ≠ (0, 3) ∧
      pixelWrite idleState 3 3 7 = .ok ⟨60, 4, 7⟩ :=
  ⟨by decide, rfl, by decide, rfl⟩
theorem witness_CfgCauseIsFirstFailingCheck : idleState.cfgCause = .noCause ∧ 1 < idleState.fw ∧ 1 < idleState.fh := by decide
theorem witness_DecodePaintsTheFrame :
    endState.phase = .terminated ∧ endState.cfgCause = .noCause ∧ endState.fbValid = true := by decide
theorem witness_WalkIssuesWritesInRasterOrder : State.cfgCause { idle16 with surfStride := 8 } = .noCause := by decide
theorem witness_DecodeErrorsInOrder :
    (decodingState.phase ≠ .idle ∧ decodingState.phase ≠ .terminated) ∧
      (State.reset.phase = .idle ∧ State.reset.cfgCause ≠ .noCause) ∧
      (idleState.phase = .idle ∧ idleState.cfgCause = .noCause ∧ idleState.fbValid = false) := by decide
theorem witness_DecodingTwiceGivesTheSamePixels :
    after (exec .decode endState) (fun t => after (exec .decode { t with surf := [] }) (fun _ => true)) = true ∧
      endState.decodeCommandError = none ∧ 1 < endState.fw ∧ 1 < endState.fh ∧ 3 < endState.bpb := by decide
theorem witness_WalkAndCvtConvertAlike :
    fbRead endState (endState.lumaIndex 1 0) = .ok 0x80 ∧ fbRead endState (endState.uBase + endState.chromaIndex 1 0) = .ok 0x80 ∧
      fbRead endState (endState.vBase + endState.chromaIndex 1 0) = .ok 0x80 ∧
      decodePixel endState 1 0 = .ok ⟨4, 4, 0x00828282⟩ ∧ endState.packCause = .noCause ∧
      after (exec .cvt { endState with arg0 := (0 : BitVec 8) ++ (0x80 : Byte) ++ (0x80 : Byte) ++ (0x80 : Byte) }) (fun _ => true) = true :=
  ⟨rfl, rfl, rfl, rfl, by decide, by decide⟩
/-- A step inside a row, and one at a row's end. -/
theorem witness_DecodeStepPaintsOnePixel :
    State.turns { decodingState with turns := [.walk] } = [.walk] ∧ decodingState.phase = .decoding ∧ decodingState.cfgCause = .noCause ∧
      decodingState.walkI.toNat + 1 < decodingState.fw ∧ (1 : Half).toNat + 1 = decodingState.fw ∧
      decodingState.walkJ.toNat + 1 < decodingState.fh := by decide
theorem witness_LastDecodeStepReturnsToFilling :
    State.turns { decodingState with turns := [.walk], walkI := 1, walkJ := 1 } = [.walk] ∧
      State.cfgCause { decodingState with walkI := 1, walkJ := 1 } = .noCause ∧
      (1 : Half).toNat + 1 = decodingState.fw ∧ (1 : Half).toNat + 1 = decodingState.fh := by decide
theorem witness_StartValidatesThenBeginsTheRun :
    endState.phase ≠ .idle ∧ (State.reset.phase = .idle ∧ State.reset.cfgCause ≠ .noCause) ∧
      (idleState.phase = .idle ∧ idleState.cfgCause = .noCause) := by decide
theorem witness_InputPortReadyOnlyInFilling :
    fillingState.phase = .filling ∧ decodingState.phase ≠ .filling ∧
      State.turns { fillingState with turns := [.producer], inQ := [0x100] } = [.producer] ∧
      State.inQ { fillingState with turns := [.producer], inQ := [0x100] } = [0x100] := by decide
theorem witness_TransfersAreTakenOnlyInTheirState :
    teeingState.phase ≠ .filling ∧ fillingState.phase ≠ .teeing ∧ State.turns { fillingState with turns := [.sink] } = [.sink] := by decide
/-- The first byte of a frame and the last but one. -/
theorem witness_InByteAppendsOneByte :
    (fillingState.phase = .filling ∧ fillingState.fillLevel.toNat < fillingState.params.fbCap ∧ fillingState.fillLevel.toNat + 1 < 2 ^ 32 ∧
      fillingState.fillLevel.toNat + 1 ≠ 3 * fillingState.fw * fillingState.fh / 2) ∧
      (4 : Word).toNat + 1 ≠ 3 * fillingState.fw * fillingState.fh / 2 := by decide
theorem witness_InByteCompletesTheFrame :
    fillingLast.phase = .filling ∧ fillingLast.fillLevel.toNat < fillingLast.params.fbCap ∧ fillingLast.fillLevel.toNat + 1 < 2 ^ 32 ∧
      fillingLast.fillLevel.toNat + 1 = 3 * fillingLast.fw * fillingLast.fh / 2 := by decide
theorem witness_EndOfStreamAndErrorTerminate : fillingState.phase = .filling := by decide
/-- A part of the offer, and the whole of it. -/
theorem witness_SinkAccDeliversTheAcceptedBytes :
    teeingState.phase = .teeing ∧ 0 < (4 : Word).toNat ∧ teeingState.teeOff.toNat + (4 : Word).toNat ≤ teeingState.frameBytes ∧
      teeingState.teeOff.toNat + (4 : Word).toNat ≠ teeingState.frameBytes ∧
      teeingState.teeOff.toNat + (6 : Word).toNat = teeingState.frameBytes ∧
      teeingState.frameBytes ≤ teeingState.params.fbCap ∧ teeingState.frameBytes < 2 ^ 32 := by decide
theorem witness_SinkWithoutProgressRetriesThenAbandons :
    teeingState.phase = .teeing ∧ teeingState.teeRetries ≠ teeingState.params.teeRetryLimit ∧
      State.teeRetries { teeingState with teeRetries := 2 } = teeingState.params.teeRetryLimit := by decide
theorem witness_SinkProtocolViolationsFault :
    teeingState.phase = .teeing ∧ (0x300000000 : BitVec 34).toNat / 2 ^ 32 = 3 ∧
      ((7 : BitVec 34).toNat / 2 ^ 32 = 0 ∧ teeingState.frameBytes - teeingState.teeOff.toNat < (7 : BitVec 34).toNat) ∧
      State.turns { teeingState with turns := [.sink], sinkQ := [7] } = [.sink] := by decide
/-- The level falling in TEEING and in TERMINATED; during a WRPIX; during a CVT in IDLE and during a START. -/
theorem witness_SurfaceLostWhenReadyFalls :
    (State.turns { teeingState with turns := [.surfReady false] } = [.surfReady false] ∧ teeingState.surfReady = true ∧
      teeingState.running ∧ ¬ endState.running) ∧
    (decodeBus 0x630 2 = .wrpix ∧ idleState.surfCause = .noCause ∧ after (exec .wrpix idleState) (fun _ => true) = true) ∧
    (commandWrites (decodeBus 0x630 1) { idleState with turns := [.hostSurfLost], hostQ := [⟨0x630, 1⟩] } = none ∧
      after (step { idleState with turns := [.host], hostQ := [⟨0x630, 1⟩] }) (fun t => t.phase == .idle) = true) ∧
    (commandWrites (decodeBus 0x630 5) { idleState with turns := [.hostSurfLost], hostQ := [⟨0x630, 5⟩] } = none ∧
      after (step { idleState with turns := [.host], hostQ := [⟨0x630, 5⟩] }) (fun t => t.phase == .filling) = true) :=
  ⟨by decide, by decide, ⟨rfl, by decide⟩, rfl, by decide⟩
theorem test_fall_of_surf_ready_in_a_command :
    faults (step { idleState with turns := [.hostSurfLost], hostQ := [⟨0x630, 2⟩] }) .surfaceLost = true := by decide
/-- The sink's two turns with the host, a producer, a walk turn and a reader in between. -/
theorem witness_TeeDeliversTheWholeFrame :
    State.Inv { teeingState with
      sinkQ := [4, 2].map accResponse, turns := [.host, .sink, .producer, .walk, .readSurface 0, .sink, .host] } ∧
      teeingState.phase = .teeing ∧ teeingState.teeOff = 0 ∧ (∀ n ∈ ([4, 2] : List Word), 0 < n.toNat) ∧
      (([4, 2] : List Word).map BitVec.toNat).sum = teeingState.frameBytes ∧
      interleaves (List.replicate ([4, 2] : List Word).length .sink) [.host, .sink, .producer, .walk, .readSurface 0, .sink, .host] = true :=
  ⟨inv_with_queues teeingState_inv teeingState.hostQ teeingState.inQ _ _, by decide, by decide, by simp, by decide, by decide⟩
/-- A frame's moves with waiting turns in each place where one may stand. -/
def busyFrame : List Turn :=
  [.host, .walk, .producer, .sink, .producer, .producer, .surfReady true, .producer, .producer, .producer, .producer, .host, .walk, .walk,
    .readSurface 1, .walk, .producer, .walk]
theorem witness_StreamingDecodesOneFrame :
    State.Inv { fillingState with inQ := frameBytes.map byteTransfer, turns := busyFrame ++ [.host] } ∧ fillingState.phase = .filling ∧
      fillingState.fillLevel = 0 ∧ fillingState.teeActive = false ∧ frameBytes.length = fillingState.frameBytes ∧
      interleaves (frameTurns fillingState) (busyFrame ++ [.host]) = true ∧ interleaves (frameTurns fillingState) (frameTurns fillingState) = true :=
  ⟨inv_with_queues fillingState_inv fillingState.hostQ _ fillingState.sinkQ _, by decide, by decide, by decide, by decide, by decide, by decide⟩
/-- One frame and a tail of one byte; no tail; and the empty stream. -/
theorem witness_RunDecodesExactlyTheWholeFrames :
    (∀ (hq : List BusRequest) (iq : List (BitVec 10)) (tn : List Turn),
      State.Inv { idleState with hostQ := ⟨0x630, 5⟩ :: hq, inQ := iq, turns := tn }) ∧
      idleState.phase = .idle ∧ idleState.cfgCause = .noCause ∧ idleState.teeEn = false ∧
      (∀ f ∈ [frameBytes], f.length = idleState.frameBytes) ∧ ([0x10] : List Byte).length < idleState.frameBytes ∧
      ([] : List Byte).length < idleState.frameBytes ∧
      interleaves (([frameBytes].map fun _ => frameTurns idleState).flatten ++ List.replicate ([0x10] : List Byte).length .producer)
        (busyFrame ++ [.walk, .producer, .host]) = true ∧
      interleaves ((([] : List (List Byte)).map fun _ => frameTurns idleState).flatten ++ List.replicate ([] : List Byte).length .producer)
        [.host] = true :=
  ⟨fun hq iq tn => inv_with_queues idleState_inv (⟨0x630, 5⟩ :: hq) iq idleState.sinkQ tn, by decide, by decide, by decide, by decide,
    by decide, by decide, by decide, by decide⟩
theorem witness_DecodeInvertsEncode :
    Instr.canonical (.regwr 2 0x30 0x14) = true ∧ Instr.canonical (.regrd 3 0xFF) = true ∧ Instr.canonical (.sinkAcc 0xFFFFFFFF) = true := by
  decide
theorem witness_EncodeInvertsDecode :
    decodeInput 0x0FF = .inByte 0xFF ∧ decodeSink 0x0FFFFFFFF = .ok (.sinkAcc 0xFFFFFFFF) := ⟨by decide, rfl⟩
/-- The first and the last word of each status. -/
theorem witness_SinkDecodeByStatus :
    (0x0FFFFFFFF : BitVec 34).toNat < 2 ^ 32 ∧ 2 ^ 32 ≤ (0x100000000 : BitVec 34).toNat ∧
      (0x1FFFFFFFF : BitVec 34).toNat < 2 * 2 ^ 32 ∧ 2 * 2 ^ 32 ≤ (0x200000000 : BitVec 34).toNat ∧
      (0x2FFFFFFFF : BitVec 34).toNat < 3 * 2 ^ 32 ∧ 3 * 2 ^ 32 ≤ (0x300000000 : BitVec 34).toNat := by decide
theorem witness_StepRunsTheDecodedTransaction :
    State.turns { fillingState with turns := [.producer], inQ := [0x0EB] } = .producer :: [] ∧ fillingState.phase = .filling ∧
      (decodeTransfer (.bus 0x244 0) = .ok (.regrd 2 0x44) ∧ pollsFrames (.regrd 2 0x44) endState ∧ ¬ pollsFrames (.regrd 2 0x3C) fillingState) ∧
      decodeTransfer (.input 0x0EB) = .ok (.inByte 0xEB) ∧ decodeTransfer (.bus 0x630 1) = .ok .cvt ∧
      teeingState.phase = .teeing ∧ decodeTransfer (.sink 6) = .ok (.sinkAcc 6) :=
  ⟨rfl, rfl, ⟨rfl, .inl rfl, by unfold pollsFrames; decide⟩, rfl, rfl, rfl, rfl⟩
theorem witness_ResetFromAnyState : State.turns { decodingState with turns := [.reset] } = .reset :: [] := rfl
theorem witness_ResetDuringCommandKeepsAPrefix :
    State.turns { idleState with turns := [.resetDuring 1], hostQ := [⟨0x630, 2⟩] } = .resetDuring 1 :: [] ∧
      commandWrites (decodeBus 0x630 2) { idleState with turns := [.resetDuring 1], hostQ := [⟨0x630, 2⟩] } = some (.ok [⟨0, 4, 0⟩]) :=
  ⟨rfl, rfl⟩
/-- No write seen, one of two, and both; and what a synchronised reader and one that is not see at the same moment. -/
theorem witness_ReaderSeesAPrefixOfTheIssuedWrites :
    State.Inv { idleState with turns := [.readSurface 0] } ∧
      State.readerViews { idleState with issued := [⟨0, 4, 1⟩, ⟨4, 4, 2⟩] } =
        [[], [(0, 1), (1, 0), (2, 0), (3, 0)], [(0, 1), (1, 0), (2, 0), (3, 0), (4, 2), (5, 0), (6, 0), (7, 0)]] ∧
      State.Inv { idleState with turns := [.readAfterPoll 0] } ∧
      after (run 2 { idleState with issued := [⟨0, 4, 1⟩, ⟨4, 4, 2⟩], syncedWrites := 1, turns := [.readAfterPoll 0] })
        (fun t => t.readerView == some [(0, 1), (1, 0), (2, 0), (3, 0)]) = true ∧
      after (run 2 { idleState with issued := [⟨0, 4, 1⟩, ⟨4, 4, 2⟩], syncedWrites := 1, turns := [.readSurface 0] })
        (fun t => t.readerView == some []) = true ∧
      ∃ t, step { decodingState with turns := [.walk] } = .next t :=
  ⟨inv_with_queues idleState_inv idleState.hostQ idleState.inQ idleState.sinkQ _, by decide,
    inv_with_queues idleState_inv idleState.hostQ idleState.inQ idleState.sinkQ _, by decide, by decide, _, rfl⟩
/-- A WRPIX in IDLE and a poll of STATUS there; and a DECODE in TERMINATED. -/
theorem witness_PolledReaderSeesCommandsAndFrames :
    State.Inv { idleState with hostQ := [⟨0x630, 2⟩, ⟨0x23C, 0⟩], turns := [.host, .host, .readAfterPoll 0] } ∧
      State.Inv { idleState with hostQ := [⟨0x630, 2⟩, ⟨0x23C, 0⟩], turns := [.host, .readAfterCommand 0] } ∧
      State.Inv { endState with hostQ := [⟨0x244, 0⟩], turns := [.host, .readAfterPoll 0] } ∧
      commandWrites (decodeBus 0x630 2) { idleState with hostQ := [⟨0x630, 2⟩, ⟨0x23C, 0⟩] } = some (.ok [⟨0, 4, 0⟩]) ∧
      isPollRequest ⟨0x23C, 0⟩ ∧ isPollRequest ⟨0x244, 0⟩ ∧
      (endState.phase = .terminated ∧ endState.cfgCause = .noCause ∧ endState.fbValid = true ∧ 1 < endState.fw ∧ 1 < endState.fh) :=
  ⟨inv_with_queues idleState_inv _ idleState.inQ idleState.sinkQ _, inv_with_queues idleState_inv _ idleState.inQ idleState.sinkQ _,
    inv_with_queues endState_inv _ endState.inQ endState.sinkQ _, rfl, by decide, by decide, by decide⟩
theorem witness_EveryStepKeepsTheInvariant :
    State.Inv { decodingState with turns := [.walk] } ∧ ∃ t, step { decodingState with turns := [.walk] } = .next t :=
  ⟨inv_with_queues decodingState_inv decodingState.hostQ decodingState.inQ decodingState.sinkQ _, _, rfl⟩
/-- The host in bounds at the last pixel, an honest sink taking the whole offer, surf_ready falling in IDLE, and a reset inside a WRPIX. -/
theorem witness_NoFaultWhileDutiesAreMet :
    (State.Inv { idleState with turns := [.host], hostQ := [⟨0x630, 2⟩] } ∧
      State.Duties { idleState with turns := [.host], hostQ := [⟨0x630, 2⟩] }) ∧
    (State.Inv { teeingState with turns := [.sink], sinkQ := [6] } ∧ State.Duties { teeingState with turns := [.sink], sinkQ := [6] }) ∧
    State.Duties { idleState with turns := [.surfReady false] } ∧
    State.Duties { idleState with turns := [.hostSurfLost], hostQ := [⟨0x630, 1⟩] } ∧
    State.Duties { endState with turns := [.hostSurfLost], hostQ := [⟨0x630, 5⟩] } ∧
    State.Duties { idleState with turns := [.resetDuring 0], hostQ := [⟨0x630, 2⟩] } := by
  refine ⟨⟨inv_with_queues idleState_inv _ idleState.inQ idleState.sinkQ _, ?_⟩,
    ⟨inv_with_queues teeingState_inv teeingState.hostQ teeingState.inQ _ _, ?_⟩, ?_, ?_, ?_, ?_⟩
  · rintro _ ⟨⟩; decide
  · rintro _ _ ⟨⟩; decide
  · show ¬ idleState.running; decide
  · exact ⟨show ¬ idleState.running by decide, by rintro _ ⟨⟩; exact ⟨rfl, fun h => absurd h (by decide)⟩⟩
  · exact ⟨show ¬ endState.running by decide, by rintro _ ⟨⟩; exact ⟨rfl, fun _ => .inl (by decide)⟩⟩
  · rintro _ ⟨⟩; decide
theorem witness_ParametersNeverChange :
    ∃ t, step { decodingState with turns := [.reset] } = .next t ∧ t.params = vectorParams := ⟨_, rfl, rfl⟩
theorem witness_ConfigurationConstantUntilReset :
    (∃ t, step { fillingState with turns := [.host], hostQ := [⟨0x604, 0⟩] } = .next t) ∧ fillingState.phase ≠ .idle ∧
      noReset { fillingState with turns := [.host] } := ⟨⟨_, rfl⟩, by decide, by unfold noReset; decide⟩
theorem witness_StateFollowsTheTransitionTable :
    (∃ t, step { fillingState with turns := [.producer], inQ := [0x100] } = .next t ∧ t.phase ≠ fillingState.phase) ∧
      noReset { fillingState with turns := [.producer] } := ⟨⟨_, rfl, by decide⟩, by unfold noReset; decide⟩
theorem witness_FrameBufferHeldDuringTeeAndWalk :
    (∃ t, step { decodingState with turns := [.producer], inQ := [0x055] } = .next t) ∧ decodingState.phase = .decoding ∧
      noReset { decodingState with turns := [.producer] } := ⟨⟨_, rfl⟩, by decide, by unfold noReset; decide⟩
theorem witness_OnlyTheWalkWritesTheSurfaceDuringARun :
    (∃ t, step { decodingState with turns := [.walk] } = .next t ∧ t.surf ≠ []) ∧ decodingState.phase ≠ .idle ∧
      decodingState.phase ≠ .terminated := ⟨⟨_, rfl, by decide⟩, by decide, by decide⟩

end Sys2Proof.Tests
end

section
/-! PROOF. The scope statements (00_scope.md): no step changes the implementation parameters (R8), and no step faults while the environment does its
duties (R7). -/

namespace Sys2Proof.Machine

/-! ### The implementation parameters -/

theorem surfaceCommand_params {err : Option (CmdErrCode × CfgCause)} {ws : Except Fault (List SurfWrite)} {done : State → State}
    (hdone : ∀ u, (done u).params = u.params) {s t : State} (h : surfaceCommand err ws done s = .next t) :
    t.params = s.params := by
  rcases surfaceCommand_next h with ⟨c, k, -, rfl⟩ | ⟨l, -, -, rfl⟩
  · simp
  · simp [hdone]

theorem runCommand_params {c : Command} {s t : State} (h : runCommand c s = .next t) : t.params = s.params := by
  cases c with
  | cvt => rcases execCvt_next h with ⟨-, rfl⟩ | ⟨-, rfl⟩ <;> simp
  | wrpix => exact surfaceCommand_params (fun _ => rfl) h
  | fill => exact surfaceCommand_params (fun _ => rfl) h
  | decode => exact surfaceCommand_params (done := State.countDecode) (fun _ => rfl) h
  | start => rcases execStart_next h with ⟨-, rfl⟩ | ⟨-, -, rfl⟩ | ⟨-, -, rfl⟩ <;> simp

theorem execRegwr_params {size : BitVec 2} {addr : BitVec 8} {data : Word} {s t : State}
    (h : execRegwr size addr data s = .next t) : t.params = s.params := by
  rcases execRegwr_next h with rfl | ⟨r, -, rfl⟩ | hc
  · simp
  · simp
  · rcases runCommandWord_next hc with ⟨e, -, rfl | rfl⟩ | ⟨c, -, hc⟩
    · simp
    · simp
    · exact runCommand_params hc

theorem execInByte_params {d : Byte} {s t : State} (h : execInByte d s = .next t) : t.params = s.params := by
  rcases execInByte_next h with ⟨-, rfl⟩ | ⟨-, -, ⟨-, rfl⟩ | ⟨-, rfl⟩⟩ <;> simp

theorem execSinkAcc_params {n : Word} {s t : State} (h : execSinkAcc n s = .next t) : t.params = s.params := by
  rcases execSinkAcc_next h with ⟨-, rfl⟩ | ⟨-, -, rfl⟩ | ⟨bs, -, -, -, -, rfl⟩ <;> simp

theorem exec_params {i : Instr} {s t : State} (h : exec i s = .next t) : t.params = s.params := by
  cases i with
  | regrd size addr => obtain ⟨r, rfl⟩ := execRegrd_next h; simp
  | regwr size addr data => exact execRegwr_params h
  | cvt => exact runCommand_params (c := .cvt) h
  | wrpix => exact runCommand_params (c := .wrpix) h
  | fill => exact runCommand_params (c := .fill) h
  | decode => exact runCommand_params (c := .decode) h
  | start => exact runCommand_params (c := .start) h
  | inByte d => exact execInByte_params h
  | inEos => simp only [exec, execInEos] at h; split at h <;> cases h <;> rfl
  | inErr => simp only [exec, execInErr] at h; split at h <;> cases h <;> rfl
  | sinkAcc n => exact execSinkAcc_params h
  | sinkFail => simp only [exec, execSinkFail] at h; split at h <;> cases h <;> simp
  | sinkClosed => simp only [exec, execSinkClosed] at h; split at h <;> cases h <;> simp

theorem decodeStep_params {s t : State} (h : decodeStep s = .next t) : t.params = s.params := by
  rcases decodeStep_next h with ⟨-, rfl⟩ | ⟨w, -, -, rfl⟩ <;> simp

/-- Settles O56: every instruction, the decode step, a look or poll of the reader, a change of surf_ready and reset keep the
parameters, so every step does. -/
theorem parametersNeverChange : Obligations.ParametersNeverChange := by
  unfold Obligations.ParametersNeverChange
  intro s t h
  exact step_keeps (fun u => u.params = s.params)
    (hqueues := fun _ _ _ _ _ hu => hu)
    (hexec := fun _ _ _ hu he => (exec_params he).trans hu)
    (hwalk := fun _ _ hu hw => (decodeStep_params hw).trans hu)
    (hpoll := fun _ _ _ hu => hu)
    (hlook := fun _ _ hu => hu)
    (hrise := fun _ hu => hu)
    (hfall := fun _ hu _ => hu)
    (hreset := fun _ hu => hu)
    (hcut := fun _ _ _ _ hu _ => hu)
    rfl h

/-! ### A configuration that passes keeps the walk inside FB and the surface -/

/-- What `cfgCause()` = 0 gives of the frame (R184): even dimensions, a frame inside the surface, and room for it in FB. -/
theorem State.frame_fits {s : State} (h : s.cfgCause = .noCause) :
    (s.fw % 2 = 0 ∧ s.fh % 2 = 0) ∧ (s.fw ≤ s.sw ∧ s.fh ≤ s.sh) ∧ s.frameBytes ≤ s.params.fbCap := by
  have hframe : s.frameCause = .noCause := by
    unfold State.cfgCause at h
    split at h
    · exact h
    · exact absurd h ‹_›
  unfold State.frameCause at hframe
  repeat' (split at hframe; · cases hframe)
  omega

/-- The index of column `a` of row `b` in a plane of `n` rows of `m` samples. -/
theorem planeIndex_lt {a b m n : Nat} (ha : a < m) (hb : b < n) : a + b * m < m * n :=
  calc a + b * m < m + b * m := by omega
    _ = m * (b + 1) := by ring
    _ ≤ m * n := Nat.mul_le_mul_left m hb

/-- The three samples of a pixel of the frame stand inside FRAME_BYTES (R180 to R183). -/
theorem State.sampleIndices_lt {s : State} (hw : s.fw % 2 = 0) (hh : s.fh % 2 = 0) {i j : Nat} (hi : i < s.fw) (hj : j < s.fh) :
    s.lumaIndex i j < s.frameBytes ∧ s.uBase + s.chromaIndex i j < s.frameBytes ∧
      s.vBase + s.chromaIndex i j < s.frameBytes := by
  have hluma : i + j * s.fw < s.fw * s.fh := planeIndex_lt hi hj
  have hchroma : i / 2 + j / 2 * (s.fw / 2) < s.fw / 2 * (s.fh / 2) := planeIndex_lt (by omega) (by omega)
  have harea : s.fw * s.fh = 4 * (s.fw / 2 * (s.fh / 2)) := by
    calc s.fw * s.fh = 2 * (s.fw / 2) * (2 * (s.fh / 2)) := by congr 1 <;> omega
      _ = 4 * (s.fw / 2 * (s.fh / 2)) := by ring
  simp only [State.lumaIndex, State.uBase, State.vBase, State.chromaIndex, State.frameBytes, Nat.mul_assoc 3]
  omega

/-- A pixel of the frame decodes to its surface write: its samples are in FB and it is a pixel of the surface. -/
theorem decodePixel_answers {s : State} (hcfg : s.cfgCause = .noCause) {i j : Nat} (hi : i < s.fw) (hj : j < s.fh) :
    ∃ w, decodePixel s i j = .ok w := by
  obtain ⟨⟨hw, hh⟩, ⟨hsw, hsh⟩, hcap⟩ := State.frame_fits hcfg
  obtain ⟨hy, hu, hv⟩ := State.sampleIndices_lt hw hh hi hj
  unfold decodePixel
  rw [fbRead_of_lt (by omega), fbRead_of_lt (by omega), fbRead_of_lt (by omega)]
  exact ⟨_, pixelWrite_of_lt _ (by omega) (by omega)⟩

/-! ### The writes of a command whose checks pass -/

theorem collectWrites_answers {f : Nat → Nat → Except Fault SurfWrite} {ps : List (Nat × Nat)}
    (h : ∀ p ∈ ps, ∃ w, f p.1 p.2 = .ok w) : ∃ ws, collectWrites f ps = .ok ws := by
  cases he : collectWrites f ps with
  | ok ws => exact ⟨ws, rfl⟩
  | error e =>
    obtain ⟨p, hp, hf⟩ := collectWrites_error he
    obtain ⟨w, hw⟩ := h p hp
    rw [hw] at hf
    cases hf

theorem wrpixWrites_answers {s : State} (hx : s.argX < s.sw) (hy : s.argYPos < s.sh) : ∃ ws, wrpixWrites s = .ok ws :=
  collectWrites_answers (by simp [pixelWrite_of_lt, hx, hy])

theorem fillWrites_answers {s : State} (h : s.argW = 0 ∨ s.argH = 0 ∨ (s.argX + s.argW ≤ s.sw ∧ s.argYPos + s.argH ≤ s.sh)) :
    ∃ ws, fillWrites s = .ok ws := by
  unfold fillWrites
  rw [if_neg (by omega)]
  refine collectWrites_answers fun p hp => ?_
  have hbounds := mem_rasterPixels.mp hp
  exact ⟨_, pixelWrite_of_lt _ (by omega) (by omega)⟩

theorem walkWrites_answers {s : State} (hcfg : s.cfgCause = .noCause) : ∃ ws, walkWrites s = .ok ws := by
  refine collectWrites_answers fun p hp => ?_
  have hbounds := mem_rasterPixels.mp hp
  exact decodePixel_answers hcfg (by omega) (by omega)

theorem State.decodeCommandError_none {s : State} (h : s.decodeCommandError = none) : s.cfgCause = .noCause := by
  unfold State.decodeCommandError at h
  split at h
  · cases h
  · split at h
    · cases h
    · simpa using ‹¬ s.cfgCause ≠ .noCause›

/-- Only WRPIX, FILL and DECODE write the surface, and only when their checks pass. -/
theorem commandWrites_eq_some {i : Instr} {s : State} {ws : Except Fault (List SurfWrite)} (h : commandWrites i s = some ws) :
    (i = .wrpix ∧ s.pixelCommandError = none ∧ ws = wrpixWrites s) ∨
    (i = .fill ∧ s.pixelCommandError = none ∧ ws = fillWrites s) ∨
    (i = .decode ∧ s.decodeCommandError = none ∧ ws = walkWrites s) := by
  cases i with
  | wrpix =>
    obtain ⟨hnone, rfl⟩ : s.pixelCommandError = none ∧ wrpixWrites s = ws := by simpa [commandWrites] using h
    exact .inl ⟨rfl, hnone, rfl⟩
  | fill =>
    obtain ⟨hnone, rfl⟩ : s.pixelCommandError = none ∧ fillWrites s = ws := by simpa [commandWrites] using h
    exact .inr (.inl ⟨rfl, hnone, rfl⟩)
  | decode =>
    obtain ⟨hnone, rfl⟩ : s.decodeCommandError = none ∧ walkWrites s = ws := by simpa [commandWrites] using h
    exact .inr (.inr ⟨rfl, hnone, rfl⟩)
  | regrd | regwr | cvt | start | inByte | inEos | inErr | sinkAcc | sinkFail | sinkClosed => cases h

/-- A command in bounds has no write that faults (R162, R165, R184). -/
theorem commandWrites_ne_error {i : Instr} {s : State} (h : hostInBounds i s = true) (f : Fault) :
    commandWrites i s ≠ some (.error f) := by
  intro he
  rcases commandWrites_eq_some he with ⟨rfl, hnone, hf⟩ | ⟨rfl, hnone, hf⟩ | ⟨rfl, hnone, hf⟩
  · obtain ⟨hx, hy⟩ : s.argX < s.sw ∧ s.argYPos < s.sh := by simpa [hostInBounds, hnone] using h
    obtain ⟨ws, hws⟩ := wrpixWrites_answers hx hy
    cases hf.trans hws
  · obtain ⟨ws, hws⟩ := fillWrites_answers (s := s) (by simpa [hostInBounds, hnone, or_assoc] using h)
    cases hf.trans hws
  · obtain ⟨ws, hws⟩ := walkWrites_answers (State.decodeCommandError_none hnone)
    cases hf.trans hws

/-! ### Register-port transactions -/

theorem surfaceCommand_answers {err : Option (CmdErrCode × CfgCause)} {ws : Except Fault (List SurfWrite)}
    (done : State → State) (s : State) (h : err = none → ∀ f, ws ≠ .error f) :
    ∃ t, surfaceCommand err ws done s = .next t := by
  cases err with
  | some e => exact ⟨_, rfl⟩
  | none =>
    cases ws with
    | ok l => exact ⟨_, rfl⟩
    | error f => exact absurd rfl (h rfl f)

/-- A command answers when none of its writes faults. -/
theorem runCommand_answers {c : Command} {s : State} (h : ∀ f, commandWrites c.toInstr s ≠ some (.error f)) :
    ∃ t, runCommand c s = .next t := by
  cases c with
  | cvt => simp only [runCommand, execCvt]; split <;> exact ⟨_, rfl⟩
  | wrpix => exact surfaceCommand_answers (fun t => t) s fun hnone f hf => h f ((if_pos hnone).trans (congrArg some hf))
  | fill => exact surfaceCommand_answers (fun t => t) s fun hnone f hf => h f ((if_pos hnone).trans (congrArg some hf))
  | decode => exact surfaceCommand_answers State.countDecode s fun hnone f hf => h f ((if_pos hnone).trans (congrArg some hf))
  | start =>
    simp only [runCommand, execStart]
    split
    · exact ⟨_, rfl⟩
    · split <;> exact ⟨_, rfl⟩

theorem surfaceCommand_phase {err : Option (CmdErrCode × CfgCause)} {ws : Except Fault (List SurfWrite)} {done : State → State}
    (hdone : ∀ u, (done u).phase = u.phase) {s t : State} (h : surfaceCommand err ws done s = .next t) :
    t.phase = s.phase := by
  rcases surfaceCommand_next h with ⟨c, k, -, rfl⟩ | ⟨l, -, -, rfl⟩
  · simp
  · simp [hdone]

/-- Among the commands only a START in IDLE changes STATE; it begins a run only when the configuration passes. -/
theorem runCommand_phase {c : Command} {s t : State} (h : runCommand c s = .next t) :
    t.phase = s.phase ∨ (c = .start ∧ s.phase = .idle ∧ (t.phase = .error ∨ s.cfgCause = .noCause)) := by
  cases c with
  | cvt => rcases execCvt_next h with ⟨-, rfl⟩ | ⟨-, rfl⟩ <;> exact .inl (by simp)
  | wrpix => exact .inl (surfaceCommand_phase (fun _ => rfl) h)
  | fill => exact .inl (surfaceCommand_phase (fun _ => rfl) h)
  | decode => exact .inl (surfaceCommand_phase (done := State.countDecode) (fun _ => rfl) h)
  | start =>
    rcases execStart_next h with ⟨-, rfl⟩ | ⟨hidle, -, rfl⟩ | ⟨hidle, hcfg, rfl⟩
    · exact .inl (by simp)
    · exact .inr ⟨rfl, hidle, .inl rfl⟩
    · exact .inr ⟨rfl, hidle, .inr hcfg⟩

theorem regOfIndex_eq_cmd : ∀ idx : BitVec 6, regOfIndex idx = some .cmd → idx = 12 := by decide

/-- Only offset 0x30 with SIZE = 2 reaches CMD (R92, R100). -/
theorem selectReg_eq_cmd {size : BitVec 2} {addr : BitVec 8} (h : selectReg size addr = some .cmd) :
    size = 2 ∧ addr = 0x30 := by
  unfold selectReg at h
  split at h
  · rename_i hlegal
    obtain ⟨hsize, hlow⟩ := hlegal
    have hhigh : (addr.extractLsb' 2 6).toNat = 12 := by rw [regOfIndex_eq_cmd _ h]; rfl
    replace hlow : (addr.extractLsb' 0 2).toNat = 0 := by rw [hlow]; rfl
    simp only [BitVec.extractLsb'_toNat, Nat.shiftRight_eq_div_pow] at hhigh hlow
    exact ⟨hsize, BitVec.eq_of_toNat_eq (show addr.toNat = 48 by omega)⟩
  · cases h

/-- A register-port transaction is a read, a write that runs no command, or a command (R91, R93). -/
theorem decodeBus_cases (req : BitVec 11) (data : Word) :
    (∃ size addr, decodeBus req data = .regrd size addr) ∨
    (∃ size addr, decodeBus req data = .regwr size addr data ∧
      (size = 2 ∧ addr = 0x30 → ∃ e, decodeCmd data = .error e)) ∨
    ∃ c : Command, decodeBus req data = c.toInstr := by
  unfold decodeBus
  split
  · split
    · split
      · exact .inr (.inr ⟨_, rfl⟩)
      · exact .inr (.inl ⟨_, _, rfl, fun _ => ⟨_, ‹_›⟩⟩)
    · exact .inr (.inl ⟨_, _, rfl, fun hcmd => absurd hcmd ‹_›⟩)
  · exact .inl ⟨_, _, rfl⟩

/-- A register write that runs no command answers and leaves STATE (R121). -/
theorem execRegwr_answers {size : BitVec 2} {addr : BitVec 8} {data : Word} (s : State)
    (h : size = 2 ∧ addr = 0x30 → ∃ e, decodeCmd data = .error e) :
    ∃ t, execRegwr size addr data s = .next t ∧ t.phase = s.phase := by
  unfold execRegwr
  split
  · exact ⟨_, rfl, rfl⟩
  · split
    · rename_i hreg hcmd
      obtain ⟨e, he⟩ := h (selectReg_eq_cmd (hcmd ▸ hreg))
      unfold runCommandWord
      rw [he]
      cases e <;> exact ⟨_, rfl, by simp⟩
    · exact ⟨_, rfl, by simp⟩

/-- A register-port transaction answers when no write of it faults (R95, R120, R121). -/
theorem exec_bus_answers {req : BitVec 11} {data : Word} {s : State}
    (h : ∀ f, commandWrites (decodeBus req data) s ≠ some (.error f)) : ∃ t, exec (decodeBus req data) s = .next t := by
  rcases decodeBus_cases req data with ⟨size, addr, e⟩ | ⟨size, addr, e, hcmd⟩ | ⟨c, e⟩
  · rw [e]
    simp only [exec, execRegrd]
    split <;> exact ⟨_, rfl⟩
  · rw [e]
    obtain ⟨t, ht, -⟩ := execRegwr_answers s hcmd
    exact ⟨t, ht⟩
  · rw [e] at h ⊢
    rw [← runCommand_eq_exec]
    exact runCommand_answers h

/-- A register-port transaction changes STATE only as START does in IDLE (R200). -/
theorem exec_bus_phase {req : BitVec 11} {data : Word} {s t : State} (h : exec (decodeBus req data) s = .next t) :
    t.phase = s.phase ∨
      (decodeBus req data = .start ∧ s.phase = .idle ∧ (t.phase = .error ∨ s.cfgCause = .noCause)) := by
  rcases decodeBus_cases req data with ⟨size, addr, e⟩ | ⟨size, addr, e, hcmd⟩ | ⟨c, e⟩
  · rw [e] at h
    obtain ⟨r, rfl⟩ := execRegrd_next h
    exact .inl rfl
  · rw [e] at h
    obtain ⟨u, hu, hphase⟩ := execRegwr_answers s hcmd
    cases hu.symm.trans h
    exact .inl hphase
  · rw [e, ← runCommand_eq_exec] at h
    rcases runCommand_phase h with hphase | ⟨rfl, hstart⟩
    · exact .inl hphase
    · exact .inr ⟨e, hstart⟩

/-! ### Each agent's turn -/

/-- A command's writes do not depend on the requests still to come, nor on what a poll has ordered. -/
theorem commandWrites_takeRequest (i j : Instr) (s : State) (q : List BusRequest) :
    commandWrites i (s.takeRequest j q) = commandWrites i s := by
  cases i <;> rfl

theorem commandWrites_hostQ (i : Instr) (s : State) (q : List BusRequest) :
    commandWrites i { s with hostQ := q } = commandWrites i s := by
  cases i <;> rfl

theorem hostTurn_answers {s : State} (h : ∀ r ∈ s.hostQ.head?, hostInBounds (decodeBus r.req r.data) s = true) :
    ∃ t, hostTurn s = .next t := by
  unfold hostTurn
  split
  · exact ⟨s, rfl⟩
  · rename_i r q hq
    refine exec_bus_answers fun f => ?_
    rw [commandWrites_takeRequest]
    exact commandWrites_ne_error (h r (by simp [hq])) f

theorem lowerSurfReady_answers {s : State} (h : ¬ s.running) : ∃ t, lowerSurfReady s = .next t :=
  ⟨_, if_neg fun hfall => h hfall.2⟩

/-- surf_ready may fall during a transaction outside a run that writes no surface and begins no run (R7, R238). -/
theorem hostTurnSurfLost_answers {s : State} (hrun : ¬ s.running)
    (h : ∀ r ∈ s.hostQ.head?, commandWrites (decodeBus r.req r.data) s = none ∧
      (decodeBus r.req r.data = .start → s.phase ≠ .idle ∨ s.cfgCause ≠ .noCause)) :
    ∃ t, hostTurnSurfLost s = .next t := by
  unfold hostTurnSurfLost
  split
  · exact lowerSurfReady_answers hrun
  · rename_i r q hq
    obtain ⟨hnone, hstart⟩ := h r (by simp [hq])
    obtain ⟨u, hu⟩ : ∃ u, exec (decodeBus r.req r.data) (s.takeRequest (decodeBus r.req r.data) q) = .next u :=
      exec_bus_answers (by simp [commandWrites_takeRequest, hnone])
    have hafter : ¬ u.running := by
      rcases exec_bus_phase hu with hphase | ⟨hi, hidle, herror | hcfg⟩
      · simpa [State.running, hphase] using hrun
      · simp [State.running, herror]
      · exact absurd hcfg ((hstart hi).resolve_left (not_not.mpr hidle))
    simp only [commandWrites_hostQ, hnone, hu]
    exact lowerSurfReady_answers hafter

theorem resetDuringTurn_answers (n : Nat) {s : State}
    (h : ∀ r ∈ s.hostQ.head?, hostInBounds (decodeBus r.req r.data) s = true) : ∃ t, resetDuringTurn n s = .next t := by
  unfold resetDuringTurn
  split
  · exact ⟨_, rfl⟩
  · rename_i r q hq
    rw [commandWrites_hostQ]
    split
    · exact absurd ‹_› (commandWrites_ne_error (h r (by simp [hq])) _)
    · exact ⟨_, rfl⟩
    · exact ⟨_, rfl⟩

/-- The transfer the producer hands over always has room in FB (R65, R203). -/
theorem producerTurn_answers {s : State} (h : s.phase = .filling → s.fillLevel.toNat < s.params.fbCap) :
    ∃ t, producerTurn s = .next t := by
  unfold producerTurn
  split
  · rename_i hready
    have hphase : s.phase = .filling := by simpa [State.inReady] using hready
    split
    · exact ⟨s, rfl⟩
    · rename_i w q _
      show ∃ t, exec (decodeInput w) { s with inQ := q } = .next t
      unfold decodeInput
      split
      · exact ⟨_, if_pos hphase⟩
      · split
        · exact ⟨_, if_pos hphase⟩
        · exact ⟨_, (if_pos hphase).trans (if_pos (h hphase))⟩
  · exact ⟨s, rfl⟩

/-- A count within the offer is of bytes that FB has (R207). -/
theorem execSinkAcc_answers {count : Word} {s : State} (hcount : count.toNat ≤ s.offerLength)
    (hoffer : s.teeOff.toNat + s.offerLength ≤ s.params.fbCap) : ∃ t, execSinkAcc count s = .next t := by
  unfold execSinkAcc
  split
  · split
    · exact ⟨_, rfl⟩
    · rw [if_neg (by omega), fbReadBytes_of_le s _ _ (by omega)]
      exact ⟨_, rfl⟩
  · exact ⟨s, rfl⟩

/-- An honest response is one of the three instructions, with a count within the offer (R98, R210). -/
theorem sinkHonest_cases {w : BitVec 34} {s : State} (h : sinkHonest w s = true) :
    (∃ count, decodeSink w = .ok (.sinkAcc count) ∧ count.toNat ≤ s.offerLength) ∨ decodeSink w = .ok .sinkFail ∨
      decodeSink w = .ok .sinkClosed := by
  cases hdecode : decodeSink w with
  | error e => simp [sinkHonest, hdecode] at h
  | ok i =>
    have hkind : (∃ count, i = .sinkAcc count) ∨ i = .sinkFail ∨ i = .sinkClosed := by
      unfold decodeSink at hdecode
      split at hdecode <;> cases hdecode <;> simp
    rcases hkind with ⟨count, rfl⟩ | rfl | rfl
    · exact .inl ⟨count, rfl, by simpa [sinkHonest, hdecode] using h⟩
    · exact .inr (.inl rfl)
    · exact .inr (.inr rfl)

theorem sinkTurn_answers {s : State}
    (h : s.phase = .teeing → s.teeOff.toNat + s.offerLength ≤ s.params.fbCap ∧ ∀ w ∈ s.sinkQ.head?, sinkHonest w s = true) :
    ∃ t, sinkTurn s = .next t := by
  unfold sinkTurn
  split
  · rename_i hphase
    obtain ⟨hoffer, hhonest⟩ := h hphase
    split
    · exact ⟨s, rfl⟩
    · rename_i w q hq
      simp only [runTransfer, decodeTransfer]
      rcases sinkHonest_cases (hhonest w (by simp [hq])) with ⟨count, hdecode, hcount⟩ | hdecode | hdecode <;> rw [hdecode]
      · exact execSinkAcc_answers (s := { s with sinkQ := q }) hcount hoffer
      · exact ⟨_, if_pos hphase⟩
      · exact ⟨_, if_pos hphase⟩
  · exact ⟨s, rfl⟩

theorem decodeStep_answers {s : State}
    (h : s.phase = .decoding → s.cfgCause = .noCause ∧ s.walkI.toNat < s.fw ∧ s.walkJ.toNat < s.fh) :
    ∃ t, decodeStep s = .next t := by
  unfold decodeStep
  split
  · obtain ⟨hcfg, hi, hj⟩ := h ‹_›
    obtain ⟨w, hw⟩ := decodePixel_answers hcfg hi hj
    rw [hw]
    exact ⟨_, rfl⟩
  · exact ⟨s, rfl⟩

/-! ### Every step answers -/

/-- In FILLING the next byte's index is below FB_CAP (R65, R184). -/
theorem State.Inv.fillLevel_lt {s : State} (hs : s.Inv) (hphase : s.phase = .filling) : s.fillLevel.toNat < s.params.fbCap := by
  obtain ⟨hfilling, -⟩ := hs.frameConsistent
  obtain ⟨hlevel, -⟩ := hfilling hphase
  obtain ⟨-, -, hcap⟩ := State.frame_fits (hs.runConfigValid (.inl hphase))
  omega

/-- In TEEING the offered bytes are the rest of a frame that FB has room for (R206, R184). -/
theorem State.Inv.offer_le {s : State} (hs : s.Inv) (hphase : s.phase = .teeing) :
    s.teeOff.toNat + s.offerLength ≤ s.params.fbCap := by
  obtain ⟨hteeing, -⟩ := hs.teeConsistent
  obtain ⟨-, hoff, -⟩ := hteeing hphase
  obtain ⟨-, -, hcap⟩ := State.frame_fits (hs.runConfigValid (.inr (.inl hphase)))
  unfold State.offerLength
  omega

/-- The environment's duties keep each agent's turn from a fault (R7). -/
theorem runTurn_answers {s : State} (hs : s.Inv) (hd : s.Duties) {turn : Turn} {rest : List Turn} (ht : s.turns = turn :: rest) :
    ∃ t, runTurn turn { s with turns := rest } = .next t := by
  unfold State.Duties at hd
  rw [ht] at hd
  cases turn with
  | host => exact hostTurn_answers (s := { s with turns := rest }) hd
  | hostSurfLost =>
    obtain ⟨hrun, hrequest⟩ := hd
    exact hostTurnSurfLost_answers (s := { s with turns := rest }) hrun hrequest
  | producer => exact producerTurn_answers (s := { s with turns := rest }) hs.fillLevel_lt
  | sink => exact sinkTurn_answers (s := { s with turns := rest }) fun hphase => ⟨hs.offer_le hphase, hd hphase⟩
  | walk =>
    exact decodeStep_answers (s := { s with turns := rest }) fun hphase =>
      ⟨hs.runConfigValid (.inr (.inr hphase)), hs.walkInFrame hphase⟩
  | surfReady level =>
    cases level with
    | true => exact ⟨_, rfl⟩
    | false => exact lowerSurfReady_answers (s := { s with turns := rest }) hd
  | readSurface n | readAfterPoll n | readAfterCommand n | reset => exact ⟨_, rfl⟩
  | resetDuring n => exact resetDuringTurn_answers n (s := { s with turns := rest }) hd

/-- Settles O55: with no turn left the machine waits, and each agent's turn answers under the invariant and the duties. -/
theorem noFaultWhileDutiesAreMet : Obligations.NoFaultWhileDutiesAreMet := by
  unfold Obligations.NoFaultWhileDutiesAreMet
  intro s hs hd
  unfold State.StepsOn
  cases ht : s.turns with
  | nil => exact ⟨s, step_of_no_turn ht⟩
  | cons turn rest =>
    rw [step_of_turn ht]
    exact runTurn_answers hs hd ht

end Sys2Proof.Machine
end

section
/-! PROOF. The statements of 10_state.md: the registers no lock holds are written in every STATE (R29, R35), and every step keeps the invariant of
the machine (R41): one lemma for each named update of the state, then one for each instruction. -/

namespace Sys2Proof.Machine

open Sys2Proof.Spec

/-! ### Register writes that no lock stops -/

/-- A write to a register that is neither CMD nor a configuration register is stored in every STATE (R121). -/
theorem exec_regwr_unlocked {size : BitVec 2} {addr : BitVec 8} {r : Reg} (hreg : selectReg size addr = some r) (hcmd : r ≠ .cmd)
    (hfree : r.isConfig = false) (data : Word) (s : State) :
    exec (.regwr size addr data) s = .next (okay (s.storeReg r data)) := by
  have hwrite : s.writeReg r data = s.storeReg r data := if_neg (by simp [hfree])
  simp only [exec, execRegwr, hreg, if_neg hcmd, hwrite]
  rfl

/-- Settles O5: none of these registers is CMD or locked, so each write is what `storeReg` stores. -/
theorem regwrOtherRegistersInEveryState : Obligations.RegwrOtherRegistersInEveryState := by
  unfold Obligations.RegwrOtherRegistersInEveryState
  intro d s
  refine ⟨exec_regwr_unlocked (r := .arg0) rfl nofun rfl d s, exec_regwr_unlocked (r := .arg1) rfl nofun rfl d s,
    exec_regwr_unlocked (r := .arg2) rfl nofun rfl d s, exec_regwr_unlocked (r := .arg3) rfl nofun rfl d s,
    exec_regwr_unlocked (r := .cmdErr) rfl nofun rfl d s, fun addr haddr => ?_⟩
  simp only [List.mem_cons, List.not_mem_nil, or_false] at haddr
  rcases haddr with rfl | rfl | rfl | rfl | rfl
  · exact exec_regwr_unlocked (r := .resRgb) rfl nofun rfl d s
  · exact exec_regwr_unlocked (r := .resPix) rfl nofun rfl d s
  · exact exec_regwr_unlocked (r := .status) rfl nofun rfl d s
  · exact exec_regwr_unlocked (r := .decodeCount) rfl nofun rfl d s
  · exact exec_regwr_unlocked (r := .fillLevel) rfl nofun rfl d s

/-! ### What passed checks give, and the errors the checks report -/

theorem State.surfCause_of_cfgCause {s : State} (h : s.cfgCause = .noCause) : s.surfCause = .noCause := by
  unfold State.cfgCause at h
  split at h <;> assumption

/-- `cfgCause()` reads the parameters, surf_ready and the configuration registers only (R163, R184). -/
theorem State.cfgCause_congr {s t : State} (hparams : t.params = s.params) (hready : t.surfReady = s.surfReady) (hconfig : sameConfig s t) :
    t.cfgCause = s.cfgCause := by
  obtain ⟨hctrl, hframe, hsurf, hstride, hbpp, hlayout, hfmt⟩ := hconfig
  have hfw : t.fw = s.fw := congrArg (bitField · 0 16) hframe
  have hfh : t.fh = s.fh := congrArg (bitField · 16 16) hframe
  have hsw : t.sw = s.sw := congrArg (bitField · 0 16) hsurf
  have hsh : t.sh = s.sh := congrArg (bitField · 16 16) hsurf
  have hbits : t.bpp = s.bpp := congrArg (bitField · 0 8) hbpp
  have hbytes : t.bpb = s.bpb := congrArg (· / 8) hbits
  have hrow : t.stride = s.stride := congrArg BitVec.toNat hstride
  have hformat : t.fmt = s.fmt := congrArg (bitField · 0 3) hfmt
  have hmono : t.mono = s.mono := congrArg (BitVec.getLsbD · 1) hctrl
  have hframeBytes : t.frameBytes = s.frameBytes := by rw [State.frameBytes, State.frameBytes, hfw, hfh]
  have hsurfCause : t.surfCause = s.surfCause := by
    simp only [State.surfCause, hready, hbits, hsw, hsh, hrow, hbytes, hparams]
  have hframeCause : t.frameCause = s.frameCause := by
    simp only [State.frameCause, hbits, hlayout, hformat, hmono, hfw, hfh, hsw, hsh, hparams, hframeBytes]
  rw [State.cfgCause, State.cfgCause, hsurfCause, hframeCause]

/-- What `surfCause()` = 0 gives of the surface (R163): it is there, a row holds SW pixels, and it fits the surface space. -/
theorem State.surface_fits {s : State} (h : s.surfCause = .noCause) :
    s.surfReady = true ∧ s.sw * s.bpb ≤ s.stride ∧ s.stride * s.sh ≤ 2 ^ s.params.surfAw := by
  unfold State.surfCause at h
  split at h
  · cases h
  · rename_i hready
    repeat' (split at h; · cases h)
    exact ⟨by simpa using hready, by omega, by omega⟩

/-- A frame whose configuration passes has a pixel (R184), and so a byte. -/
theorem State.frame_pos {s : State} (h : s.cfgCause = .noCause) : 0 < s.fw ∧ 0 < s.fh ∧ 0 < s.frameBytes := by
  have hframe : s.frameCause = .noCause := by
    unfold State.cfgCause at h
    rwa [if_pos (State.surfCause_of_cfgCause h)] at h
  unfold State.frameCause at hframe
  repeat' (split at hframe; · cases hframe)
  have hw : 0 < s.fw := by omega
  have hh : 0 < s.fh := by omega
  have harea : 0 < s.fw * s.fh := Nat.mul_pos hw hh
  refine ⟨hw, hh, ?_⟩
  rw [State.frameBytes, Nat.mul_assoc]
  omega

theorem State.pixelCommandError_none {s : State} (h : s.pixelCommandError = none) : s.surfCause = .noCause := by
  unfold State.pixelCommandError at h
  split at h
  · cases h
  · split at h
    · cases h
    · simpa using ‹¬ s.surfCause ≠ .noCause›

/-- A command error carries a cause exactly when it is BAD_CONFIG (R35, R234). -/
abbrev CauseFitsCode (c : CmdErrCode) (k : CfgCause) : Prop := k ≠ .noCause ↔ c = .badConfig

theorem State.pixelCommandError_causeFitsCode {s : State} {c : CmdErrCode} {k : CfgCause}
    (h : s.pixelCommandError = some (c, k)) : CauseFitsCode c k := by
  unfold State.pixelCommandError at h
  split at h
  · cases h; decide
  · split at h
    · cases h; exact iff_of_true ‹_› rfl
    · cases h

theorem State.decodeCommandError_causeFitsCode {s : State} {c : CmdErrCode} {k : CfgCause}
    (h : s.decodeCommandError = some (c, k)) : CauseFitsCode c k := by
  unfold State.decodeCommandError at h
  split at h
  · cases h; decide
  · split at h
    · cases h; exact iff_of_true ‹_› rfl
    · split at h <;> cases h
      decide

/-! ### The writes stay inside the surface space -/

/-- Every byte of the writes has an offset of the surface space (R61). -/
abbrev State.WritesFit (s : State) (ws : List SurfWrite) : Prop := ∀ w ∈ ws, w.off + w.width ≤ 2 ^ s.params.surfAw

/-- Pixel (x, y) of a surface that passes ends inside its row, and its row inside the surface (R160, R163). -/
theorem pixelWrite_fits {s : State} (hsurf : s.surfCause = .noCause) {x y : Nat} {color : Word} {w : SurfWrite}
    (h : pixelWrite s x y color = .ok w) : w.off + w.width ≤ 2 ^ s.params.surfAw := by
  obtain ⟨hx, hy, rfl⟩ := pixelWrite_ok h
  obtain ⟨-, hrow, hspace⟩ := State.surface_fits hsurf
  calc y * s.stride + x * s.bpb + s.bpb = y * s.stride + (x + 1) * s.bpb := by ring
    _ ≤ y * s.stride + s.sw * s.bpb := Nat.add_le_add_left (Nat.mul_le_mul_right _ hx) _
    _ ≤ y * s.stride + s.stride := Nat.add_le_add_left hrow _
    _ = s.stride * (y + 1) := by ring
    _ ≤ s.stride * s.sh := Nat.mul_le_mul_left _ hy
    _ ≤ 2 ^ s.params.surfAw := hspace

theorem decodePixel_fits {s : State} (hsurf : s.surfCause = .noCause) {i j : Nat} {w : SurfWrite}
    (h : decodePixel s i j = .ok w) : w.off + w.width ≤ 2 ^ s.params.surfAw := by
  obtain ⟨y, u, v, -, -, -, hwrite⟩ := decodePixel_ok h
  exact pixelWrite_fits hsurf hwrite

theorem fillWrites_ok {s : State} {ws : List SurfWrite} (h : fillWrites s = .ok ws) :
    collectWrites (fun x y => pixelWrite s x y s.argColor) (rasterPixels s.argX s.argYPos s.argW s.argH) = .ok ws := by
  unfold fillWrites at h
  split at h
  · cases h
  · exact h

/-- The writes of a command that its checks let run stay inside the surface space (R61, R162). -/
theorem commandWrites_fit {i : Instr} {s : State} {ws : List SurfWrite} (h : commandWrites i s = some (.ok ws)) : s.WritesFit ws := by
  intro w hw
  rcases commandWrites_eq_some h with ⟨-, hnone, hok⟩ | ⟨-, hnone, hok⟩ | ⟨-, hnone, hok⟩
  · obtain ⟨p, -, hp⟩ := collectWrites_ok hok.symm w hw
    exact pixelWrite_fits (State.pixelCommandError_none hnone) hp
  · obtain ⟨p, -, hp⟩ := collectWrites_ok (fillWrites_ok hok.symm) w hw
    exact pixelWrite_fits (State.pixelCommandError_none hnone) hp
  · obtain ⟨p, -, hp⟩ := collectWrites_ok hok.symm w hw
    exact decodePixel_fits (State.surfCause_of_cfgCause (State.decodeCommandError_none hnone)) hp

namespace State.Inv

variable {s t : State}

/-! ### The invariant under the environment's moves -/

theorem with_queues (hs : s.Inv) (hq : List BusRequest) (iq : List (BitVec 10)) (sq : List (BitVec 34)) (tn : List Turn) :
    State.Inv { s with hostQ := hq, inQ := iq, sinkQ := sq, turns := tn } :=
  { hs with }

theorem readSurface (hs : s.Inv) (n : Nat) : (s.readSurface n).Inv := by
  obtain ⟨hfb, hsurf, -⟩ := hs.memoryCanonical
  have hview : ∀ m ∈ some (s.prefixView n), Memory.wf m = true := by
    rintro m ⟨⟩
    exact s.wf_prefixView n
  exact { hs with memoryCanonical := ⟨hfb, hsurf, hview⟩ }

theorem syncReader (hs : s.Inv) {n : Nat} (hn : n ≤ max s.commandedWrites s.countedWrites) : (s.syncReader n).Inv := by
  obtain ⟨hissued, hcounted, hcommanded, hsynced⟩ := hs.surfaceIssued
  have hmax : max s.syncedWrites n ≤ s.issued.length := by omega
  exact { hs with surfaceIssued := ⟨hissued, hcounted, hcommanded, hmax⟩ }

/-- During a run surf_ready is 1 (R238). -/
theorem surfReady_of_running (hs : s.Inv) (hrun : s.running) : s.surfReady = true :=
  (State.surface_fits (State.surfCause_of_cfgCause (hs.runConfigValid hrun))).1

theorem raise_surfReady (hs : s.Inv) : State.Inv { s with surfReady := true } := by
  have hsame : s.running → { s with surfReady := true } = s := fun hrun => by
    rw [← hs.surfReady_of_running hrun]
  exact { hs with runConfigValid := fun hrun => (congrArg State.cfgCause (hsame hrun)).trans (hs.runConfigValid hrun) }

theorem lower_surfReady (hs : s.Inv) (h : ¬(s.surfReady = true ∧ s.running)) : State.Inv { s with surfReady := false } :=
  { hs with runConfigValid := fun hrun => absurd ⟨hs.surfReady_of_running hrun, hrun⟩ h }

/-- Reset keeps the surface and what was issued to it; all else is at its reset value (R261, R264). -/
theorem resetEvent (hs : s.Inv) : s.resetEvent.Inv := by
  obtain ⟨-, hsurf, hview⟩ := hs.memoryCanonical
  obtain ⟨-, hrange⟩ := hs.memoryInRange
  obtain ⟨hissued, -, hcommanded, hsynced⟩ := hs.surfaceIssued
  exact {
    paramsLegal := hs.paramsLegal
    memoryCanonical := ⟨rfl, hsurf, hview⟩
    memoryInRange := ⟨nofun, hrange⟩
    surfaceIssued := ⟨hissued, Nat.zero_le _, hcommanded, hsynced⟩
    reservedZero := by simp [State.ReservedZero, State.reset]
    runConfigValid := by rintro (h | h | h) <;> cases h
    frameConsistent := ⟨nofun, (by rintro (h | h) <;> cases h), nofun, fun _ => rfl⟩
    teeConsistent := ⟨nofun, nofun⟩
    walkInFrame := nofun
    statusConsistent := by simp [State.StatusConsistent, State.reset] }

/-! ### The invariant under the register port -/

theorem respond (hs : s.Inv) (r : BusResponse) : (s.respond r).Inv := { hs with }

theorem raiseCmdError (hs : s.Inv) {c : CmdErrCode} {k : CfgCause} (h : CauseFitsCode c k) : (s.raiseCmdError c k).Inv := by
  rcases s.raiseCmdError_cases c k with ⟨-, e⟩ | ⟨-, e⟩ <;> rw [e]
  · obtain ⟨hcfg, hterm, -⟩ := hs.statusConsistent
    exact { hs with statusConsistent := ⟨hcfg, hterm, h⟩ }
  · exact hs

/-- In IDLE no frame has been taken and teeing is off, so the configuration is free (R122). -/
theorem reconfigured (hs : s.Inv) (hidle : s.phase = .idle) (hreserved : t.ReservedZero)
    (ht : t = { s with
      ctrl := t.ctrl, frameGeom := t.frameGeom, surfGeom := t.surfGeom, surfStride := t.surfStride
      surfBpp := t.surfBpp, chanLayout := t.chanLayout, pixfmt := t.pixfmt }) : t.Inv := by
  obtain ⟨-, -, -, hvalid⟩ := hs.frameConsistent
  obtain ⟨-, htee⟩ := hs.teeConsistent
  rw [ht] at hreserved ⊢
  exact { hs with
    reservedZero := hreserved
    runConfigValid := by rintro (h | h | h) <;> cases hidle.symm.trans h
    frameConsistent := by simp [State.FrameConsistent, hidle, hvalid hidle]
    teeConsistent := ⟨fun h => (nomatch hidle.symm.trans h), fun h => absurd hidle (htee h).2.1⟩
    walkInFrame := fun h => nomatch hidle.symm.trans h }

end State.Inv

/-- The write masks keep the reserved bits 0 (R123). -/
theorem State.storeReg_reservedZero {s : State} (h : s.ReservedZero) (r : Reg) (d : Word) : (s.storeReg r d).ReservedZero := by
  obtain ⟨hctrl, hbpp, hlayout, hfmt, hrgb⟩ := h
  cases r with
  | ctrl => exact ⟨by simp [State.storeReg, Reg.wmask, BitVec.and_assoc], hbpp, hlayout, hfmt, hrgb⟩
  | surfBpp => exact ⟨hctrl, by simp [State.storeReg, Reg.wmask, BitVec.and_assoc], hlayout, hfmt, hrgb⟩
  | chanLayout => exact ⟨hctrl, hbpp, by simp [State.storeReg, Reg.wmask, BitVec.and_assoc], hfmt, hrgb⟩
  | pixfmt => exact ⟨hctrl, hbpp, hlayout, by simp [State.storeReg, Reg.wmask, BitVec.and_assoc], hrgb⟩
  | frameGeom | surfGeom | surfStride | arg0 | arg1 | arg2 | arg3 | cmd | resRgb | resPix | status | cmdErr | decodeCount | fillLevel =>
    exact ⟨hctrl, hbpp, hlayout, hfmt, hrgb⟩

/-- RES_RGB[31:24] is 0 (R31, R144). -/
theorem pack32_reservedZero (c : Rgb) : pack32 c &&& 0xFF000000 = 0 := by
  have hmask : (0xFF000000 : Word) = (0xFF : BitVec 8) ++ (0 : BitVec 8) ++ (0 : BitVec 8) ++ (0 : BitVec 8) := rfl
  rw [pack32, hmask, BitVec.and_append, BitVec.and_append, BitVec.and_append]
  simp

namespace State.Inv

variable {s t : State}

theorem storeReg (hs : s.Inv) {r : Reg} (h : r.isConfig = false ∨ s.phase = .idle) (d : Word) : (s.storeReg r d).Inv := by
  cases r with
  | ctrl | frameGeom | surfGeom | surfStride | surfBpp | chanLayout | pixfmt =>
    exact hs.reconfigured (h.resolve_left nofun) (State.storeReg_reservedZero hs.reservedZero _ d) rfl
  | arg0 | arg1 | arg2 | arg3 => exact { hs with }
  | cmdErr =>
    obtain ⟨hcfg, hterm, -⟩ := hs.statusConsistent
    exact { hs with statusConsistent := ⟨hcfg, hterm, by simp [State.storeReg]⟩ }
  | cmd | resRgb | resPix | status | decodeCount | fillLevel => exact hs

theorem writeReg (hs : s.Inv) (r : Reg) (d : Word) : (s.writeReg r d).Inv := by
  rcases s.writeReg_cases r d with ⟨-, -, e⟩ | ⟨hfree, e⟩ <;> rw [e]
  · exact hs.raiseCmdError (by decide)
  · exact hs.storeReg hfree d

/-! ### The invariant under the commands -/

theorem writeSurface (hs : s.Inv) {ws : List SurfWrite} (hws : s.WritesFit ws) : (s.writeSurface ws).Inv := by
  obtain ⟨hfb, hsurf, hview⟩ := hs.memoryCanonical
  obtain ⟨hfbRange, hsurfRange⟩ := hs.memoryInRange
  obtain ⟨hissued, hcounted, hcommanded, hsynced⟩ := hs.surfaceIssued
  have hrange : ∀ c ∈ applyWrites s.params.endian s.surf ws, c.1 < 2 ^ s.params.surfAw := by
    intro c hc
    rcases mem_applyWrites hc with hc | ⟨w, hw, -, hlt⟩
    · exact hsurfRange c hc
    · exact lt_of_lt_of_le hlt (hws w hw)
  have hreplay : applyWrites s.params.endian s.surf ws = applyWrites s.params.endian [] (s.issued ++ ws) := by
    rw [applyWrites_append, ← hissued]
  have hlength : s.issued.length ≤ (s.issued ++ ws).length := by simp
  exact { hs with
    memoryCanonical := ⟨hfb, wf_applyWrites _ ws hsurf, hview⟩
    memoryInRange := ⟨hfbRange, hrange⟩
    surfaceIssued := ⟨hreplay, hcounted.trans hlength, hcommanded.trans hlength, hsynced.trans hlength⟩ }

theorem completeCommand (hs : s.Inv) (ws : List SurfWrite) : (s.completeCommand ws).Inv := by
  obtain ⟨hissued, hcounted, hcommanded, hsynced⟩ := hs.surfaceIssued
  have hlength : (if ws = [] then s.commandedWrites else s.issued.length) ≤ s.issued.length := by
    split
    · exact hcommanded
    · exact le_rfl
  exact { hs with surfaceIssued := ⟨hissued, hcounted, hlength, hsynced⟩ }

theorem countDecode (hs : s.Inv) : s.countDecode.Inv := by
  obtain ⟨hissued, -, hcommanded, hsynced⟩ := hs.surfaceIssued
  exact { hs with surfaceIssued := ⟨hissued, le_rfl, hcommanded, hsynced⟩ }

theorem surfaceCommand {err : Option (CmdErrCode × CfgCause)} {ws : Except Fault (List SurfWrite)} {done : State → State}
    (hs : s.Inv) (herr : ∀ {c k}, err = some (c, k) → CauseFitsCode c k)
    (hws : ∀ {l}, err = none → ws = .ok l → s.WritesFit l) (hdone : ∀ {u}, State.Inv u → (done u).Inv)
    (h : surfaceCommand err ws done s = .next t) : t.Inv := by
  rcases surfaceCommand_next h with ⟨c, k, he, rfl⟩ | ⟨l, hnone, hok, rfl⟩
  · exact (hs.raiseCmdError (herr he)).respond _
  · exact (hdone ((hs.writeSurface (hws hnone hok)).completeCommand l)).respond _

theorem execCvt (hs : s.Inv) (h : execCvt s = .next t) : t.Inv := by
  rcases execCvt_next h with ⟨hcause, rfl⟩ | ⟨-, rfl⟩
  · exact (hs.raiseCmdError (iff_of_true hcause rfl)).respond _
  · obtain ⟨hctrl, hbpp, hlayout, hfmt, -⟩ := hs.reservedZero
    exact { hs with reservedZero := ⟨hctrl, hbpp, hlayout, hfmt, pack32_reservedZero _⟩ }

/-- START in IDLE with a configuration that fails: CFG_ERR and ERROR together (R201, R232). -/
theorem startError (hs : s.Inv) (hidle : s.phase = .idle) {k : CfgCause} (hk : k ≠ .noCause) :
    State.Inv { s with cfgErr := k, phase := .error } := by
  obtain ⟨-, -, -, hvalid⟩ := hs.frameConsistent
  obtain ⟨-, htee⟩ := hs.teeConsistent
  obtain ⟨-, hterm, hcmd⟩ := hs.statusConsistent
  exact { hs with
    runConfigValid := by rintro (h | h | h) <;> cases h
    frameConsistent := by simp [State.FrameConsistent, hvalid hidle]
    teeConsistent := ⟨nofun, fun h => absurd hidle (htee h).2.1⟩
    walkInFrame := nofun
    statusConsistent := ⟨iff_of_true hk rfl, fun h => (nomatch hidle.symm.trans (hterm h)), hcmd⟩ }

/-- START in IDLE with a configuration that passes: an empty frame, teeing by TEE_EN (R201). -/
theorem startRun (hs : s.Inv) (hidle : s.phase = .idle) (hcfg : s.cfgCause = .noCause) : s.startRun.Inv := by
  obtain ⟨-, -, hwhole, hvalid⟩ := hs.frameConsistent
  obtain ⟨-, -, hcmd⟩ := hs.statusConsistent
  obtain ⟨-, -, hbytes⟩ := State.frame_pos hcfg
  exact { hs with
    runConfigValid := fun _ => hcfg
    frameConsistent := ⟨fun _ => ⟨hbytes, nofun, fun _ => hvalid hidle⟩, (by rintro (h | h) <;> cases h), hwhole, nofun⟩
    teeConsistent := ⟨nofun, fun h => ⟨h, nofun, nofun⟩⟩
    walkInFrame := nofun
    statusConsistent := ⟨by simp, nofun, hcmd⟩ }

theorem execStart (hs : s.Inv) (h : execStart s = .next t) : t.Inv := by
  rcases execStart_next h with ⟨-, rfl⟩ | ⟨hidle, hcause, rfl⟩ | ⟨hidle, hcfg, rfl⟩
  · exact (hs.raiseCmdError (by decide)).respond _
  · exact (hs.startError hidle hcause).respond _
  · exact (hs.startRun hidle hcfg).respond _

theorem runCommand (hs : s.Inv) {c : Command} (h : runCommand c s = .next t) : t.Inv := by
  cases c with
  | cvt => exact hs.execCvt h
  | wrpix =>
    exact hs.surfaceCommand State.pixelCommandError_causeFitsCode
      (fun hnone hok => commandWrites_fit (i := .wrpix) ((if_pos hnone).trans (congrArg some hok))) id h
  | fill =>
    exact hs.surfaceCommand State.pixelCommandError_causeFitsCode
      (fun hnone hok => commandWrites_fit (i := .fill) ((if_pos hnone).trans (congrArg some hok))) id h
  | decode =>
    exact hs.surfaceCommand (done := State.countDecode) State.decodeCommandError_causeFitsCode
      (fun hnone hok => commandWrites_fit (i := .decode) ((if_pos hnone).trans (congrArg some hok))) countDecode h
  | start => exact hs.execStart h

theorem execRegwr (hs : s.Inv) {size : BitVec 2} {addr : BitVec 8} {data : Word} (h : execRegwr size addr data s = .next t) : t.Inv := by
  rcases execRegwr_next h with rfl | ⟨r, -, rfl⟩ | hcmd
  · exact hs.respond _
  · exact (hs.writeReg r data).respond _
  · rcases runCommandWord_next hcmd with ⟨e, -, rfl | rfl⟩ | ⟨c, -, hc⟩
    · exact (hs.raiseCmdError (by decide)).respond _
    · exact (hs.raiseCmdError (by decide)).respond _
    · exact hs.runCommand hc

/-! ### The invariant under the input port -/

/-- A byte of a frame below FB_CAP: FILL_LEVEL goes up without wrapping (R8, R203). -/
theorem fillLevel_succ (hs : s.Inv) (hlt : s.fillLevel.toNat < s.params.fbCap) : (s.fillLevel + 1).toNat = s.fillLevel.toNat + 1 := by
  obtain ⟨-, hcap, -⟩ := hs.paramsLegal
  exact BitVec.toNat_add_of_lt (by simp; omega)

theorem appendByte_memoryCanonical (hs : s.Inv) (d : Byte) : (s.appendByte d).MemoryCanonical := by
  obtain ⟨hfb, hsurf, hview⟩ := hs.memoryCanonical
  exact ⟨Memory.wf_write hfb _ d, hsurf, hview⟩

theorem appendByte_memoryInRange (hs : s.Inv) (hlt : s.fillLevel.toNat < s.params.fbCap) (d : Byte) :
    (s.appendByte d).MemoryInRange := by
  obtain ⟨hfb, hsurf⟩ := hs.memoryInRange
  refine ⟨fun c hc => ?_, hsurf⟩
  rcases Memory.mem_write hc with rfl | hc
  · exact hlt
  · exact hfb c hc

theorem appendByte_fbHolds (hs : s.Inv) (hfilling : s.phase = .filling) (d : Byte) :
    (s.appendByte d).fbHolds (s.fillLevel.toNat + 1) := by
  obtain ⟨hlevel, -⟩ := hs.frameConsistent
  obtain ⟨-, hholds, -⟩ := hlevel hfilling
  intro k hk
  rw [State.appendByte_fb, Memory.read_write]
  split
  · rfl
  · exact hholds k (by omega)

/-- A byte that leaves the frame incomplete; FB_VALID is 0 from the frame's first byte on (R203). -/
theorem appendByte (hs : s.Inv) (hfilling : s.phase = .filling) (hlt : s.fillLevel.toNat < s.params.fbCap)
    (hmore : (s.fillLevel + 1).toNat ≠ s.frameBytes) (d : Byte) : (s.appendByte d).Inv := by
  obtain ⟨hlevel, -⟩ := hs.frameConsistent
  obtain ⟨hbelow, -, hfirst⟩ := hlevel hfilling
  have hnext := hs.fillLevel_succ hlt
  have hholds : (s.appendByte d).fbHolds (s.fillLevel + 1).toNat := hnext ▸ hs.appendByte_fbHolds hfilling d
  have hinvalid : (s.appendByte d).fbValid = false := by simpa using hfirst
  exact { hs with
    memoryCanonical := hs.appendByte_memoryCanonical d
    memoryInRange := hs.appendByte_memoryInRange hlt d
    frameConsistent :=
      ⟨fun _ => ⟨show (s.fillLevel + 1).toNat < s.frameBytes by omega, hholds, fun _ => hinvalid⟩,
        (by rintro (h | h) <;> cases hfilling.symm.trans h),
        fun h => (nomatch hinvalid.symm.trans h), fun _ => hinvalid⟩ }

/-- The frame's last byte: FB holds the frame, which is teed first if TEE_ACTIVE is set (R203). -/
theorem completeFrame (hs : s.Inv) (hfilling : s.phase = .filling) (hlt : s.fillLevel.toNat < s.params.fbCap)
    (hlast : (s.fillLevel + 1).toNat = s.frameBytes) (d : Byte) : (s.appendByte d).completeFrame.Inv := by
  have hcfg := hs.runConfigValid (.inl hfilling)
  obtain ⟨hw, hh, hbytes⟩ := State.frame_pos hcfg
  have hholds : (s.appendByte d).fbHolds s.frameBytes := by
    rw [← hlast, hs.fillLevel_succ hlt]
    exact hs.appendByte_fbHolds hfilling d
  have hcfgFrame : (s.appendByte d).completeFrame.cfgCause = .noCause :=
    (State.cfgCause_congr (s := s) (by simp) (by simp) (by simp [sameConfig])).trans hcfg
  have hcanonical := hs.appendByte_memoryCanonical d
  have hrange := hs.appendByte_memoryInRange hlt d
  obtain ⟨-, htee⟩ := hs.teeConsistent
  obtain ⟨herr, hterm, hcmd⟩ := hs.statusConsistent
  have hnoErr : s.cfgErr = .noCause := by simpa [hfilling] using herr
  have hnoTerm : s.termCause = false := by simpa [hfilling] using hterm
  rcases (s.appendByte d).completeFrame_cases with ⟨hon, e⟩ | ⟨hoff, e⟩ <;> rw [e] at hcfgFrame ⊢
  · exact { hs with
      memoryCanonical := hcanonical
      memoryInRange := hrange
      runConfigValid := fun _ => hcfgFrame
      frameConsistent := ⟨nofun, fun _ => ⟨rfl, hlast⟩, fun _ => hholds, nofun⟩
      teeConsistent := ⟨fun _ => ⟨hon, hbytes, Nat.zero_le _⟩, fun h => ⟨(htee h).1, nofun, nofun⟩⟩
      walkInFrame := nofun
      statusConsistent := ⟨by simp [hnoErr], by simp [hnoTerm], hcmd⟩ }
  · exact { hs with
      memoryCanonical := hcanonical
      memoryInRange := hrange
      runConfigValid := fun _ => hcfgFrame
      frameConsistent := ⟨nofun, fun _ => ⟨rfl, hlast⟩, fun _ => hholds, nofun⟩
      teeConsistent := ⟨nofun, fun h => nomatch hoff.symm.trans h⟩
      walkInFrame := fun _ => ⟨hw, hh⟩
      statusConsistent := ⟨by simp [hnoErr], by simp [hnoTerm], hcmd⟩ }

theorem execInByte (hs : s.Inv) {d : Byte} (h : execInByte d s = .next t) : t.Inv := by
  rcases execInByte_next h with ⟨-, rfl⟩ | ⟨hfilling, hlt, ⟨hlast, rfl⟩ | ⟨hmore, rfl⟩⟩
  · exact hs
  · exact hs.completeFrame hfilling hlt hlast d
  · exact hs.appendByte hfilling hlt hmore d

/-- The stream's end in FILLING, by IN_EOS or IN_ERR (R204, R205). -/
theorem terminate (hs : s.Inv) (hfilling : s.phase = .filling) (cause : Bool) :
    State.Inv { s with termCause := cause, phase := .terminated } := by
  obtain ⟨-, -, hwhole, -⟩ := hs.frameConsistent
  obtain ⟨-, htee⟩ := hs.teeConsistent
  obtain ⟨herr, -, hcmd⟩ := hs.statusConsistent
  exact { hs with
    runConfigValid := by rintro (h | h | h) <;> cases h
    frameConsistent := ⟨nofun, (by rintro (h | h) <;> cases h), hwhole, nofun⟩
    teeConsistent := ⟨nofun, fun h => ⟨(htee h).1, nofun, nofun⟩⟩
    walkInFrame := nofun
    statusConsistent := ⟨by simpa [hfilling] using herr, fun _ => rfl, hcmd⟩ }

/-! ### The invariant under the tee port -/

/-- From TEEING the frame goes to the walk's first pixel (R206). -/
theorem enterDecoding (hs : s.Inv) (hteeing : s.phase = .teeing) : s.enterDecoding.Inv := by
  have hcfg := hs.runConfigValid (.inr (.inl hteeing))
  obtain ⟨hw, hh, -⟩ := State.frame_pos hcfg
  obtain ⟨-, hframe, hwhole, -⟩ := hs.frameConsistent
  obtain ⟨-, htee⟩ := hs.teeConsistent
  obtain ⟨herr, hterm, hcmd⟩ := hs.statusConsistent
  exact { hs with
    runConfigValid := fun _ => hcfg
    frameConsistent := ⟨nofun, fun _ => hframe (.inl hteeing), hwhole, nofun⟩
    teeConsistent := ⟨nofun, fun h => ⟨(htee h).1, nofun, nofun⟩⟩
    walkInFrame := fun _ => ⟨hw, hh⟩
    statusConsistent := ⟨by simpa [hteeing] using herr, by simpa [hteeing] using hterm, hcmd⟩ }

theorem abandonTee (hs : s.Inv) (hteeing : s.phase = .teeing) : s.abandonTee.Inv :=
  { hs.enterDecoding hteeing with teeConsistent := ⟨nofun, nofun⟩ }

theorem teeNoProgress (hs : s.Inv) (hteeing : s.phase = .teeing) : s.teeNoProgress.Inv := by
  rcases s.teeNoProgress_cases with ⟨-, e⟩ | ⟨hbelow, e⟩ <;> rw [e]
  · exact hs.abandonTee hteeing
  · obtain ⟨hoffer, htee⟩ := hs.teeConsistent
    obtain ⟨hon, hoff, hretries⟩ := hoffer hteeing
    have hnext : (s.teeRetries + 1).toNat ≤ s.params.teeRetryLimit.toNat := by bv_omega
    exact { hs with teeConsistent := ⟨fun _ => ⟨hon, hoff, hnext⟩, htee⟩ }

/-- The bytes the sink takes are of the offer; the last of them ends TEEING (R207). -/
theorem teeProgress (hs : s.Inv) (hteeing : s.phase = .teeing) {count : Word} (hcount : count.toNat ≤ s.offerLength)
    (bytes : List Byte) : (s.teeProgress count bytes).Inv := by
  obtain ⟨hoffer, htee⟩ := hs.teeConsistent
  obtain ⟨hon, hoff, -⟩ := hoffer hteeing
  rcases s.teeProgress_cases count bytes with ⟨-, e⟩ | ⟨hmore, e⟩ <;> rw [e]
  · have hdecoding := hs.enterDecoding hteeing
    obtain ⟨-, htee⟩ := hdecoding.teeConsistent
    exact { hdecoding with teeConsistent := ⟨nofun, htee⟩ }
  · obtain ⟨-, hcap, -⟩ := hs.paramsLegal
    have hend := hs.offer_le hteeing
    have hsum : (s.teeOff + count).toNat = s.teeOff.toNat + count.toNat := BitVec.toNat_add_of_lt (by omega)
    have hnext : (s.teeOff + count).toNat < s.frameBytes := by
      unfold State.offerLength at hcount
      omega
    exact { hs with teeConsistent := ⟨fun _ => ⟨hon, hnext, Nat.zero_le _⟩, htee⟩ }

theorem execSinkAcc (hs : s.Inv) {count : Word} (h : execSinkAcc count s = .next t) : t.Inv := by
  rcases execSinkAcc_next h with ⟨-, rfl⟩ | ⟨hteeing, -, rfl⟩ | ⟨bytes, hteeing, -, hcount, -, rfl⟩
  · exact hs
  · exact hs.teeNoProgress hteeing
  · exact hs.teeProgress hteeing hcount bytes

/-! ### The invariant under the walk -/

/-- A position that is not the last before `b` stays below `b` when it moves on. -/
theorem position_succ_lt {a b : Half} (h : a.toNat < b.toNat) (hne : a + 1 ≠ b) : (a + 1).toNat < b.toNat := by
  bv_omega

/-- The walk's end: the next frame is empty, FB still holds the last one (R211). -/
theorem completeWalk (hs : s.Inv) (hdecoding : s.phase = .decoding) : s.completeWalk.Inv := by
  have hcfg := hs.runConfigValid (.inr (.inr hdecoding))
  have hcfgNext : s.completeWalk.cfgCause = .noCause :=
    (State.cfgCause_congr (s := s) (t := s.completeWalk) rfl rfl (by simp [sameConfig])).trans hcfg
  obtain ⟨-, -, hbytes⟩ := State.frame_pos hcfg
  obtain ⟨-, -, hwhole, -⟩ := hs.frameConsistent
  obtain ⟨-, htee⟩ := hs.teeConsistent
  obtain ⟨herr, hterm, hcmd⟩ := hs.statusConsistent
  exact { hs with
    surfaceIssued := hs.countDecode.surfaceIssued
    runConfigValid := fun _ => hcfgNext
    frameConsistent := ⟨fun _ => ⟨hbytes, nofun, fun h => absurd rfl h⟩, (by rintro (h | h) <;> cases h), hwhole, nofun⟩
    teeConsistent := ⟨nofun, fun h => ⟨(htee h).1, nofun, nofun⟩⟩
    walkInFrame := nofun
    statusConsistent := ⟨by simpa [hdecoding] using herr, by simpa [hdecoding] using hterm, hcmd⟩ }

theorem advanceWalk (hs : s.Inv) (hdecoding : s.phase = .decoding) : s.advanceWalk.Inv := by
  obtain ⟨hi, hj⟩ := hs.walkInFrame hdecoding
  rcases s.advanceWalk_cases with ⟨hcolumn, e⟩ | ⟨-, hrow, e⟩ | ⟨-, -, e⟩ <;> rw [e]
  · exact { hs with walkInFrame := fun _ => ⟨position_succ_lt hi hcolumn, hj⟩ }
  · exact { hs with walkInFrame := fun _ => ⟨Nat.zero_lt_of_lt hi, position_succ_lt hj hrow⟩ }
  · exact { hs.completeWalk hdecoding with walkInFrame := nofun }

theorem decodeStep (hs : s.Inv) (h : decodeStep s = .next t) : t.Inv := by
  rcases decodeStep_next h with ⟨-, rfl⟩ | ⟨w, hdecoding, hpixel, rfl⟩
  · exact hs
  · have hsurf := State.surfCause_of_cfgCause (hs.runConfigValid (.inr (.inr hdecoding)))
    have hfit : s.WritesFit [w] := by simpa [State.WritesFit] using decodePixel_fits hsurf hpixel
    exact (hs.writeSurface hfit).advanceWalk hdecoding

/-! ### The invariant under every step -/

theorem exec {i : Instr} (hs : s.Inv) (h : exec i s = .next t) : t.Inv := by
  cases i with
  | regrd size addr => obtain ⟨r, rfl⟩ := execRegrd_next h; exact hs.respond r
  | regwr size addr data => exact hs.execRegwr h
  | cvt => exact hs.execCvt h
  | wrpix => exact hs.runCommand (c := .wrpix) h
  | fill => exact hs.runCommand (c := .fill) h
  | decode => exact hs.runCommand (c := .decode) h
  | start => exact hs.execStart h
  | inByte d => exact hs.execInByte h
  | inEos =>
    simp only [Machine.exec, execInEos] at h
    split at h <;> cases h
    · exact hs.terminate ‹_› false
    · exact hs
  | inErr =>
    simp only [Machine.exec, execInErr] at h
    split at h <;> cases h
    · exact hs.terminate ‹_› true
    · exact hs
  | sinkAcc count => exact hs.execSinkAcc h
  | sinkFail =>
    simp only [Machine.exec, execSinkFail] at h
    split at h <;> cases h
    · exact hs.teeNoProgress ‹_›
    · exact hs
  | sinkClosed =>
    simp only [Machine.exec, execSinkClosed] at h
    split at h <;> cases h
    · exact hs.abandonTee ‹_›
    · exact hs

end State.Inv

/-- Settles O54: every instruction, the decode step, a look or poll of the reader, a change of surf_ready and reset, in the middle of a command
too, keep the invariant, so every step does. -/
theorem everyStepKeepsTheInvariant : Obligations.EveryStepKeepsTheInvariant := by
  unfold Obligations.EveryStepKeepsTheInvariant
  intro s t hs h
  exact step_keeps State.Inv
    (hqueues := fun _ hq iq sq tn hu => hu.with_queues hq iq sq tn)
    (hexec := fun _ _ _ hu he => hu.exec he)
    (hwalk := fun _ _ hu hw => hu.decodeStep hw)
    (hpoll := fun _ _ hn hu => hu.syncReader hn)
    (hlook := fun _ n hu => hu.readSurface n)
    (hrise := fun _ hu => hu.raise_surfReady)
    (hfall := fun _ hu hn => hu.lower_surfReady hn)
    (hreset := fun _ hu => hu.resetEvent)
    (hcut := fun _ _ _ _ hu hc =>
      (hu.writeSurface fun w hw => commandWrites_fit hc w (List.mem_of_mem_take hw)).resetEvent)
    hs h

end Sys2Proof.Machine
end

section
/-! PROOF. The statements of 20_memory.md: what a step issues to the surface (R62, R71), what an external reader sees of it (R72), what a poll of the
host orders before a look (R75, R266, R268), and that a step runs the decoded transaction (R74). -/

namespace Sys2Proof.Machine

open Sys2Proof.Spec

/-! ### The writes a step issues -/

/-- From s to t the writes `ws` are issued and applied to the surface in their order (R71); what polls have ordered stays ordered (R75). -/
structure State.Issues (s t : State) (ws : List SurfWrite) : Prop where
  params : t.params = s.params
  issued : t.issued = s.issued ++ ws
  surf : t.surf = applyWrites s.params.endian s.surf ws
  synced : s.syncedWrites ≤ t.syncedWrites

/-- The surface, its issued writes and what polls have ordered stay as they are. -/
theorem State.Issues.none {s t : State} (hparams : t.params = s.params := by simp) (hissued : t.issued = s.issued := by simp)
    (hsurf : t.surf = s.surf := by simp) (hsynced : t.syncedWrites = s.syncedWrites := by simp) : s.Issues t [] :=
  ⟨hparams, by simp [hissued], hsurf, hsynced.ge⟩

theorem State.Issues.trans {s t u : State} {ws vs : List SurfWrite} (hst : s.Issues t ws) (htu : t.Issues u vs) : s.Issues u (ws ++ vs) where
  params := htu.params.trans hst.params
  issued := by rw [htu.issued, hst.issued, List.append_assoc]
  surf := by rw [htu.surf, hst.surf, hst.params, applyWrites_append]
  synced := hst.synced.trans htu.synced

theorem State.issues_writeSurface (s : State) (ws : List SurfWrite) : s.Issues (s.writeSurface ws) ws := ⟨rfl, rfl, rfl, le_rfl⟩

theorem State.issues_takeRequest (s : State) (i : Instr) (q : List BusRequest) : s.Issues (s.takeRequest i q) [] :=
  ⟨rfl, by simp, rfl, by simp⟩

/-- A surface-writing command issues nothing but its writes, and those only when its checks pass (R164, R165, R188). -/
theorem surfaceCommand_issues {err : Option (CmdErrCode × CfgCause)} {ws : Except Fault (List SurfWrite)} {done : State → State}
    (hdone : ∀ u : State, u.Issues (done u) []) {s t : State} (h : surfaceCommand err ws done s = .next t) :
    ∃ l, s.Issues t l ∧ (l ≠ [] → err = none) := by
  rcases surfaceCommand_next h with ⟨c, k, -, rfl⟩ | ⟨l, hnone, -, rfl⟩
  · exact ⟨[], .none, nofun⟩
  · have hcomplete : (s.writeSurface l).Issues ((s.writeSurface l).completeCommand l) [] := .none
    have hrespond : ∀ u : State, u.Issues (u.respond (.written .okay)) [] := fun _ => .none
    have hall := (((s.issues_writeSurface l).trans hcomplete).trans (hdone _)).trans (hrespond _)
    exact ⟨l, by simpa only [List.append_nil] using hall, fun _ => hnone⟩

/-- The two STATEs in which WRPIX, FILL and DECODE run (R164, R165, R188). -/
abbrev State.acceptsCommands (s : State) : Prop := s.phase = .idle ∨ s.phase = .terminated

theorem State.acceptsCommands_of_pixelCommandError {s : State} (h : s.pixelCommandError = none) : s.acceptsCommands := by
  unfold State.pixelCommandError at h
  split at h
  · cases h
  · rename_i hphase
    simpa [State.acceptsCommands, Classical.or_iff_not_imp_left] using hphase

theorem State.acceptsCommands_of_decodeCommandError {s : State} (h : s.decodeCommandError = none) : s.acceptsCommands := by
  unfold State.decodeCommandError at h
  split at h
  · cases h
  · rename_i hphase
    simpa [State.acceptsCommands, Classical.or_iff_not_imp_left] using hphase

theorem runCommand_issues {c : Command} {s t : State} (h : runCommand c s = .next t) :
    ∃ ws, s.Issues t ws ∧ (ws ≠ [] → s.acceptsCommands) := by
  have hid : ∀ u : State, u.Issues u [] := fun _ => .none
  cases c with
  | cvt => rcases execCvt_next h with ⟨-, rfl⟩ | ⟨-, rfl⟩ <;> exact ⟨[], .none, nofun⟩
  | wrpix | fill =>
    obtain ⟨ws, hi, hnone⟩ := surfaceCommand_issues hid h
    exact ⟨ws, hi, fun hne => State.acceptsCommands_of_pixelCommandError (hnone hne)⟩
  | decode =>
    obtain ⟨ws, hi, hnone⟩ := surfaceCommand_issues (done := State.countDecode) (fun _ => .none) h
    exact ⟨ws, hi, fun hne => State.acceptsCommands_of_decodeCommandError (hnone hne)⟩
  | start =>
    rcases execStart_next h with ⟨-, rfl⟩ | ⟨-, -, rfl⟩ | ⟨-, -, rfl⟩ <;>
      exact ⟨[], .none, nofun⟩

theorem execRegwr_issues {size : BitVec 2} {addr : BitVec 8} {data : Word} {s t : State} (h : execRegwr size addr data s = .next t) :
    ∃ ws, s.Issues t ws ∧ (ws ≠ [] → s.acceptsCommands) := by
  rcases execRegwr_next h with rfl | ⟨r, -, rfl⟩ | hcmd
  · exact ⟨[], .none, nofun⟩
  · exact ⟨[], .none, nofun⟩
  · rcases runCommandWord_next hcmd with ⟨e, -, rfl | rfl⟩ | ⟨c, -, hc⟩
    · exact ⟨[], .none, nofun⟩
    · exact ⟨[], .none, nofun⟩
    · exact runCommand_issues hc

theorem execInByte_issues {d : Byte} {s t : State} (h : execInByte d s = .next t) : s.Issues t [] := by
  rcases execInByte_next h with ⟨-, rfl⟩ | ⟨-, -, ⟨-, rfl⟩ | ⟨-, rfl⟩⟩ <;> exact .none

theorem execSinkAcc_issues {count : Word} {s t : State} (h : execSinkAcc count s = .next t) : s.Issues t [] := by
  rcases execSinkAcc_next h with ⟨-, rfl⟩ | ⟨-, -, rfl⟩ | ⟨bytes, -, -, -, -, rfl⟩ <;>
    exact .none

/-- An instruction writes the surface in IDLE and TERMINATED only (R62, R234). -/
theorem exec_issues {i : Instr} {s t : State} (h : exec i s = .next t) : ∃ ws, s.Issues t ws ∧ (ws ≠ [] → s.acceptsCommands) := by
  cases i with
  | regrd size addr => obtain ⟨r, rfl⟩ := execRegrd_next h; exact ⟨[], .none, nofun⟩
  | regwr size addr data => exact execRegwr_issues h
  | cvt => exact runCommand_issues (c := .cvt) h
  | wrpix => exact runCommand_issues (c := .wrpix) h
  | fill => exact runCommand_issues (c := .fill) h
  | decode => exact runCommand_issues (c := .decode) h
  | start => exact runCommand_issues (c := .start) h
  | inByte d => exact ⟨[], execInByte_issues h, nofun⟩
  | inEos => simp only [exec, execInEos] at h; split at h <;> cases h <;> exact ⟨[], .none, nofun⟩
  | inErr => simp only [exec, execInErr] at h; split at h <;> cases h <;> exact ⟨[], .none, nofun⟩
  | sinkAcc count => exact ⟨[], execSinkAcc_issues h, nofun⟩
  | sinkFail =>
    simp only [exec, execSinkFail] at h
    split at h <;> cases h <;> exact ⟨[], .none, nofun⟩
  | sinkClosed => simp only [exec, execSinkClosed] at h; split at h <;> cases h <;> exact ⟨[], .none, nofun⟩

/-- A host transaction writes the surface as its instruction does. -/
theorem exec_takeRequest_issues {i j : Instr} {q : List BusRequest} {s t : State} (h : exec i (s.takeRequest j q) = .next t) :
    ∃ ws, s.Issues t ws ∧ (ws ≠ [] → s.acceptsCommands) := by
  obtain ⟨ws, hi, hphase⟩ := exec_issues h
  exact ⟨ws, (s.issues_takeRequest j q).trans hi, hphase⟩

theorem lowerSurfReady_issues {s t : State} (h : lowerSurfReady s = .next t) : s.Issues t [] := by
  obtain ⟨rfl, -⟩ := lowerSurfReady_next h
  exact .none

theorem decodeStep_issues {s t : State} (h : decodeStep s = .next t) : ∃ ws, s.Issues t ws ∧ (ws ≠ [] → s.phase = .decoding) := by
  rcases decodeStep_next h with ⟨-, rfl⟩ | ⟨w, hdecoding, -, rfl⟩
  · exact ⟨[], .none, nofun⟩
  · have hadvance : (s.writeSurface [w]).Issues (s.writeSurface [w]).advanceWalk [] := .none
    exact ⟨[w], (s.issues_writeSurface [w]).trans hadvance, fun _ => hdecoding⟩

theorem resetDuringTurn_issues {n : Nat} {s t : State} (h : resetDuringTurn n s = .next t) :
    ∃ ws, s.Issues t ws ∧ (ws ≠ [] → s.acceptsCommands) := by
  rcases resetDuringTurn_next h with ⟨q, rfl⟩ | ⟨r, q, ws, -, hcommand, rfl⟩
  · exact ⟨[], .none, nofun⟩
  · refine ⟨ws.take n, ⟨rfl, rfl, rfl, le_rfl⟩, fun _ => ?_⟩
    rw [commandWrites_hostQ] at hcommand
    rcases commandWrites_eq_some hcommand with ⟨-, hnone, -⟩ | ⟨-, hnone, -⟩ | ⟨-, hnone, -⟩
    · exact State.acceptsCommands_of_pixelCommandError hnone
    · exact State.acceptsCommands_of_pixelCommandError hnone
    · exact State.acceptsCommands_of_decodeCommandError hnone

/-- An agent's turn only appends to the issued writes, and only a host command in IDLE or TERMINATED or the walk in DECODING does (R62). -/
theorem runTurn_issues {turn : Turn} {s t : State} (h : runTurn turn s = .next t) :
    ∃ ws, s.Issues t ws ∧ (ws ≠ [] → s.acceptsCommands ∨ (s.phase = .decoding ∧ turn = .walk)) := by
  have hcommand : (∃ ws, s.Issues t ws ∧ (ws ≠ [] → s.acceptsCommands)) →
      ∃ ws, s.Issues t ws ∧ (ws ≠ [] → s.acceptsCommands ∨ (s.phase = .decoding ∧ turn = .walk)) :=
    fun ⟨ws, hi, hphase⟩ => ⟨ws, hi, fun hne => .inl (hphase hne)⟩
  cases turn with
  | host =>
    rcases hostTurn_next h with ⟨-, rfl⟩ | ⟨r, q, -, he⟩
    · exact ⟨[], .none, nofun⟩
    · exact hcommand (exec_takeRequest_issues he)
  | hostSurfLost =>
    rcases hostTurnSurfLost_next h with ⟨-, hl⟩ | ⟨r, q, u, -, -, he, hl⟩
    · exact ⟨[], lowerSurfReady_issues hl, nofun⟩
    · obtain ⟨ws, hi, hphase⟩ := exec_takeRequest_issues he
      exact hcommand ⟨ws, by simpa using hi.trans (lowerSurfReady_issues hl), hphase⟩
  | producer =>
    rcases producerTurn_next h with rfl | ⟨w, q, -, -, he⟩
    · exact ⟨[], .none, nofun⟩
    · obtain ⟨ws, hi, hphase⟩ := exec_issues he
      exact hcommand ⟨ws, { hi with }, hphase⟩
  | sink =>
    rcases sinkTurn_next h with rfl | ⟨w, q, i, -, -, -, he⟩
    · exact ⟨[], .none, nofun⟩
    · obtain ⟨ws, hi, hphase⟩ := exec_issues he
      exact hcommand ⟨ws, { hi with }, hphase⟩
  | walk =>
    obtain ⟨ws, hi, hphase⟩ := decodeStep_issues h
    exact ⟨ws, hi, fun hne => .inr ⟨hphase hne, rfl⟩⟩
  | surfReady level =>
    cases level with
    | true => cases h; exact ⟨[], .none, nofun⟩
    | false => exact ⟨[], lowerSurfReady_issues h, nofun⟩
  | readSurface n | readAfterPoll n | readAfterCommand n | reset => cases h; exact ⟨[], .none, nofun⟩
  | resetDuring n => exact hcommand (resetDuringTurn_issues h)

/-- What a step issues to the surface, and in which STATEs (R62, R71). -/
theorem step_issues {s t : State} (h : step s = .next t) :
    ∃ ws, s.Issues t ws ∧ (ws ≠ [] → s.acceptsCommands ∨ (s.phase = .decoding ∧ s.turns.head? = some .walk)) := by
  rcases step_next h with ⟨-, rfl⟩ | ⟨turn, rest, hturns, hr⟩
  · exact ⟨[], .none, nofun⟩
  · obtain ⟨ws, hi, hphase⟩ := runTurn_issues hr
    exact ⟨ws, { hi with }, by simpa [hturns] using hphase⟩

/-- Settles O60: a step that issues a write is of a host command in IDLE or TERMINATED, or the walk's in DECODING. -/
theorem onlyTheWalkWritesTheSurfaceDuringARun : Obligations.OnlyTheWalkWritesTheSurfaceDuringARun := by
  unfold Obligations.OnlyTheWalkWritesTheSurfaceDuringARun
  intro s t h hidle hterminated
  obtain ⟨ws, hi, hphase⟩ := step_issues h
  by_cases hws : ws = []
  · subst hws
    exact .inl ⟨hi.surf, by simpa using hi.issued⟩
  · exact .inr ((hphase hws).resolve_left (not_or.mpr ⟨hidle, hterminated⟩))

/-! ### The looks of an external reader -/

/-- To have seen more writes than were issued is to have seen them all. -/
theorem State.prefixView_min (s : State) (k : Nat) : s.prefixView k = s.prefixView (min k s.issued.length) := by
  rw [State.prefixView, State.prefixView, List.take_eq_take_min]

/-- The surface is what a reader sees that has seen every issued write (R71). -/
theorem State.Inv.surf_eq_prefixView {s : State} (hs : s.Inv) {k : Nat} (hk : s.issued.length ≤ k) : s.surf = s.prefixView k := by
  obtain ⟨hissued, -⟩ := hs.surfaceIssued
  rw [State.prefixView_of_le hk, hissued]

/-- A look that shows `n` writes, and `least` of them in any case, shows the first k issued writes for a k from `least` on. -/
theorem State.readSurface_max (s : State) (n : Nat) {least : Nat} (hleast : least ≤ s.issued.length) :
    ∃ k, least ≤ k ∧ k ≤ s.issued.length ∧
      s.readSurface (max n least) = { s with readerView := some (applyWrites s.params.endian [] (s.issued.take k)) } := by
  refine ⟨min (max n least) s.issued.length, by omega, by omega, ?_⟩
  rw [State.readSurface, State.prefixView_min]
  rfl

/-- Settles O51: each kind of look is `readSurface` of at least the writes that the look orders, and a step appends to the issued
writes what it applies to the surface. -/
theorem readerSeesAPrefixOfTheIssuedWrites : Obligations.ReaderSeesAPrefixOfTheIssuedWrites := by
  unfold Obligations.ReaderSeesAPrefixOfTheIssuedWrites
  refine ⟨State.mem_readerViews, ?_, ?_, ?_, ?_, ?_, ?_⟩
  · intro s n rest hturns
    exact ⟨_, s.prefixView_mem_readerViews n, step_of_turn hturns⟩
  · intro s m rest hm
    obtain ⟨k, -, rfl⟩ := (s.mem_readerViews m).mp hm
    exact ⟨k, rfl⟩
  · intro s n rest hs hturns
    obtain ⟨-, -, -, hsynced⟩ := hs.surfaceIssued
    obtain ⟨k, hleast, hk, hview⟩ := State.readSurface_max { s with turns := rest } n hsynced
    exact ⟨k, hleast, hk, (step_of_turn hturns).trans (congrArg _ hview)⟩
  · intro s n rest hs hturns
    obtain ⟨-, -, hcommanded, -⟩ := hs.surfaceIssued
    obtain ⟨k, hleast, hk, hview⟩ := State.readSurface_max { s with turns := rest } n hcommanded
    exact ⟨k, hleast, hk, (step_of_turn hturns).trans (congrArg _ hview)⟩
  · intro s hs
    rw [hs.surf_eq_prefixView le_rfl]
    exact s.prefixView_mem_readerViews _
  · intro s t h
    obtain ⟨ws, hi, -⟩ := step_issues h
    exact ⟨ws, hi.issued, hi.surf, hi.synced⟩

/-! ### What a host transaction orders, and the step that runs it -/

/-- A request that reaches a register has SIZE 2 and the register's index in ADDR[7:2] (R92, R100). -/
theorem selectReg_eq_some {size : BitVec 2} {addr : BitVec 8} {r : Reg} (h : selectReg size addr = some r) :
    size = 2 ∧ ∃ idx : BitVec 6, regOfIndex idx = some r ∧ addr = idx ++ (0 : BitVec 2) := by
  unfold selectReg at h
  split at h
  · rename_i hlegal
    obtain ⟨hsize, hlow⟩ := hlegal
    refine ⟨hsize, _, h, ?_⟩
    have hsplit : addr.extractLsb' 2 6 ++ addr.extractLsb' 0 2 = addr.extractLsb' 0 8 :=
      BitVec.extractLsb'_append_extractLsb'_eq_extractLsb' rfl
    rw [← hlow, hsplit, BitVec.extractLsb'_eq_self]
  · cases h

theorem regOfIndex_eq_status : ∀ idx : BitVec 6, regOfIndex idx = some .status → idx = 15 := by decide

theorem regOfIndex_eq_decodeCount : ∀ idx : BitVec 6, regOfIndex idx = some .decodeCount → idx = 17 := by decide

/-- A read of DECODE_COUNT, or of STATUS while it shows DONE, orders the writes of the commands and of the counted decodes (R75, R268). -/
theorem pollOrders_of_pollsFrames {i : Instr} {s : State} (h : pollsFrames i s) :
    pollOrders i s = max s.commandedWrites s.countedWrites := by
  rcases h with rfl | ⟨rfl, hdone⟩
  · rfl
  · have hstatus : pollOrders (.regrd 2 0x3C) s =
        if s.done = true then max s.commandedWrites s.countedWrites else s.commandedWrites := rfl
    rw [hstatus, if_pos (by simpa [State.done] using hdone)]

/-- A read of STATUS before DONE orders the writes of the commands only (R75). -/
theorem pollOrders_status {s : State} (h : ¬ pollsFrames (.regrd 2 0x3C) s) : pollOrders (.regrd 2 0x3C) s = s.commandedWrites := by
  have hstatus : pollOrders (.regrd 2 0x3C) s =
      if s.done = true then max s.commandedWrites s.countedWrites else s.commandedWrites := rfl
  have hdone : ¬ s.done = true := fun hd => h (.inr ⟨rfl, by simpa [State.done] using hd⟩)
  rw [hstatus, if_neg hdone]

/-- No transaction but a read of STATUS or DECODE_COUNT orders a write (R75). -/
theorem pollOrders_of_no_poll {i : Instr} {s : State} (hstatus : i ≠ .regrd 2 0x3C) (hcount : i ≠ .regrd 2 0x44) : pollOrders i s = 0 := by
  cases i with
  | regrd size addr =>
    have hnotCount : selectReg size addr ≠ some .decodeCount := fun h => by
      obtain ⟨rfl, idx, hidx, rfl⟩ := selectReg_eq_some h
      rw [regOfIndex_eq_decodeCount idx hidx] at hcount
      exact hcount rfl
    have hnotStatus : selectReg size addr ≠ some .status := fun h => by
      obtain ⟨rfl, idx, hidx, rfl⟩ := selectReg_eq_some h
      rw [regOfIndex_eq_status idx hidx] at hstatus
      exact hstatus rfl
    simp only [pollOrders, if_neg hnotCount, if_neg hnotStatus]
  | regwr | cvt | wrpix | fill | decode | start | inByte | inEos | inErr | sinkAcc | sinkFail | sinkClosed => rfl

/-- The host's turn runs its next transaction, which may synchronise the reader (R74, R75). -/
theorem step_host {s : State} {r : BusRequest} {q : List BusRequest} {rest : List Turn} (hturns : s.turns = .host :: rest)
    (hqueue : s.hostQ = r :: q) :
    step s = exec (decodeBus r.req r.data) { s with
      turns := rest, hostQ := q, syncedWrites := max s.syncedWrites (pollOrders (decodeBus r.req r.data) s) } := by
  rw [step_of_turn hturns, runTurn, hostTurn, hqueue]
  rfl

theorem runTransfer_of_decodes {tr : Transfer} {i : Instr} (h : decodeTransfer tr = .ok i) (s : State) : runTransfer tr s = exec i s := by
  rw [runTransfer, h]

/-- Settles O47: the host's turn by what its transaction orders; the producer's and the sink's port is ready in the given STATE. -/
theorem stepRunsTheDecodedTransaction : Obligations.StepRunsTheDecodedTransaction := by
  unfold Obligations.StepRunsTheDecodedTransaction
  intro s i rest
  refine ⟨fun r q hturns hqueue hdecode => ?_, fun w q hturns hqueue hfilling hdecode => ?_, fun w q hturns hqueue hteeing hdecode => ?_⟩
  · obtain rfl : decodeBus r.req r.data = i := Except.ok.inj hdecode
    have hstep := step_host hturns hqueue
    refine ⟨fun hframes => ?_, fun hi hno => ?_, fun hstatus hcount => ?_⟩
    · rw [hstep, pollOrders_of_pollsFrames hframes]
    · rw [hi] at hno hstep ⊢
      rw [hstep, pollOrders_status hno]
    · rw [hstep, pollOrders_of_no_poll hstatus hcount, Nat.max_zero]
  · have hready : State.inReady { s with turns := rest } = true := by simp [State.inReady, hfilling]
    rw [step_of_turn hturns, runTurn, producerTurn, if_pos hready, hqueue]
    exact runTransfer_of_decodes hdecode _
  · rw [step_of_turn hturns, runTurn, sinkTurn, if_pos hteeing, hqueue]
    exact runTransfer_of_decodes hdecode _

end Sys2Proof.Machine
end

section
/-! PROOF. What a reader that synchronises through a poll sees (20_memory.md R75, 70_reset_and_hazards.md R266, R268): the surface as the complete
commands left it, and after a DECODE every pixel of the frame (43_frame_decoder.md R188), with the converted value of 41_color_converter.md. -/

namespace Sys2Proof.Machine

open Sys2Proof.Spec

/-! ### The converted and packed pixel -/

theorem clamp0_255_toNat (v : Int) : (clamp0_255 v).toNat = clamp v := by
  unfold clamp0_255 clamp
  split
  · show 0 = _
    omega
  · split
    · show 255 = _
      omega
    · rw [BitVec.toNat_ofNat, Nat.mod_eq_of_lt (by omega)]
      omega

theorem convert_r_toNat (y u v : Byte) : (convert y u v).r.toNat = red y.toNat u.toNat := clamp0_255_toNat _
theorem convert_g_toNat (y u v : Byte) : (convert y u v).g.toNat = green y.toNat u.toNat v.toNat := clamp0_255_toNat _
theorem convert_b_toNat (y u v : Byte) : (convert y u v).b.toNat = blue y.toNat v.toNat := clamp0_255_toNat _

theorem toNat_append_eq_add {m n : Nat} (x : BitVec m) (y : BitVec n) : (x ++ y).toNat = x.toNat * 2 ^ n + y.toNat := by
  rw [BitVec.toNat_append, ← Nat.shiftLeft_add_eq_or_of_lt y.isLt, Nat.shiftLeft_eq]

/-- R144 as a sum of the channels at their places. -/
theorem pack32_eq_ofNat (c : Rgb) : pack32 c = BitVec.ofNat 32 (c.r.toNat * 65536 + c.g.toNat * 256 + c.b.toNat) := by
  have hr := c.r.isLt
  have hg := c.g.isLt
  have hb := c.b.isLt
  have htop : (0 : BitVec 8).toNat = 0 := rfl
  apply BitVec.eq_of_toNat_eq
  simp only [pack32, toNat_append_eq_add, htop, BitVec.toNat_ofNat]
  omega

/-- A channel of the packed 16-bit pixel has no bit outside its mask (R145). -/
theorem packChannel_and_layoutMask {layout : Word} {c : Nat} (hbits : layoutBits layout c ≤ 8) (v : Byte) :
    packChannel layout c v &&& layoutMask layout c = packChannel layout c v := by
  have hnarrow : v.toNat / 2 ^ (8 - layoutBits layout c) < 2 ^ layoutBits layout c := by
    rw [Nat.div_lt_iff_lt_mul (by positivity), ← pow_add, Nat.add_sub_cancel' hbits]
    exact v.isLt
  rw [packChannel, layoutMask, ← Nat.shiftLeft_eq, ← Nat.shiftLeft_eq, ← Nat.shiftLeft_and_distrib, Nat.and_two_pow_sub_one_eq_mod,
    Nat.mod_eq_of_lt hnarrow]

/-- Two channels whose masks are disjoint share no bit. -/
theorem packChannel_and_eq_zero {layout : Word} {c d : Nat} (hc : layoutBits layout c ≤ 8) (hd : layoutBits layout d ≤ 8)
    (hmasks : layoutMask layout c &&& layoutMask layout d = 0) (v w : Byte) : packChannel layout c v &&& packChannel layout d w = 0 := by
  rw [← packChannel_and_layoutMask hc v, ← packChannel_and_layoutMask hd w, Nat.and_assoc, ← Nat.and_assoc (layoutMask layout c),
    Nat.and_comm (layoutMask layout c), Nat.and_assoc (packChannel layout d w), hmasks, Nat.and_zero, Nat.and_zero]

theorem packChannel_lt {layout : Word} {c : Nat} (hbits : layoutBits layout c ≤ 8) (hfit : layoutOff layout c + layoutBits layout c ≤ 16)
    (v : Byte) : packChannel layout c v < 2 ^ 16 := by
  have hmask : layoutMask layout c < 2 ^ 16 := by
    calc (2 ^ layoutBits layout c - 1) * 2 ^ layoutOff layout c < 2 ^ layoutBits layout c * 2 ^ layoutOff layout c :=
          Nat.mul_lt_mul_of_pos_right (Nat.sub_lt (by positivity) one_pos) (by positivity)
      _ = 2 ^ (layoutBits layout c + layoutOff layout c) := (pow_add ..).symm
      _ ≤ 2 ^ 16 := Nat.pow_le_pow_right two_pos (by omega)
  rw [← packChannel_and_layoutMask hbits v]
  exact Nat.and_lt_two_pow _ hmask

/-- Numbers that share no bit have their sum as their disjunction. -/
theorem ofNat_add_of_and_eq_zero {n a b : Nat} (h : a &&& b = 0) : BitVec.ofNat n (a + b) = BitVec.ofNat n (a ||| b) := by
  rw [BitVec.ofNat_add, BitVec.ofNat_or]
  apply BitVec.add_eq_or_of_and_eq_zero
  rw [← BitVec.ofNat_and, h]

theorem packChannel_eq_channel16 (layout : Word) (c : Nat) (v : Byte) :
    packChannel layout c v = channel16 layout (8 * c) (8 * c + 4) v.toNat := by
  simp only [packChannel, channel16, layoutBits, layoutOff, bitField, BitVec.extractLsb'_toNat, Nat.shiftRight_eq_div_pow]

/-- What layoutOK says of a channel and of two channels' masks (R145). -/
theorem layoutOK_channels {layout : Word} (h : layoutOK layout = true) :
    (∀ c, c < 3 → layoutBits layout c ≤ 8 ∧ layoutOff layout c + layoutBits layout c ≤ 16) ∧
    layoutMask layout 0 &&& layoutMask layout 1 = 0 ∧ layoutMask layout 0 &&& layoutMask layout 2 = 0 ∧
    layoutMask layout 1 &&& layoutMask layout 2 = 0 := by
  simp only [layoutOK, channelOK, Bool.and_eq_true, decide_eq_true_eq, beq_iff_eq] at h
  obtain ⟨⟨⟨⟨⟨⟨⟨-, hr⟩, hr'⟩, ⟨-, hg⟩, hg'⟩, ⟨-, hb⟩, hb'⟩, hrg⟩, hrb⟩, hgb⟩ := h
  refine ⟨fun c hc => ?_, hrg, hrb, hgb⟩
  interval_cases c
  · exact ⟨hr, hr'⟩
  · exact ⟨hg, hg'⟩
  · exact ⟨hb, hb'⟩

/-- R145 as a sum of the channels at their places, for a layout that passes. -/
theorem pack16_eq_ofNat {layout : Word} (h : layoutOK layout = true) (c : Rgb) :
    (pack16 layout c).setWidth 32 =
      BitVec.ofNat 32 (channel16 layout 0 4 c.r.toNat + channel16 layout 8 12 c.g.toNat + channel16 layout 16 20 c.b.toNat) := by
  obtain ⟨hchannel, hrg, hrb, hgb⟩ := layoutOK_channels h
  obtain ⟨hr, hr'⟩ := hchannel 0 (by omega)
  obtain ⟨hg, hg'⟩ := hchannel 1 (by omega)
  obtain ⟨hb, hb'⟩ := hchannel 2 (by omega)
  have hfit : packChannel layout 0 c.r ||| packChannel layout 1 c.g ||| packChannel layout 2 c.b < 2 ^ 16 :=
    Nat.or_lt_two_pow (Nat.or_lt_two_pow (packChannel_lt hr hr' _) (packChannel_lt hg hg' _)) (packChannel_lt hb hb' _)
  have hdisjoint : (packChannel layout 0 c.r ||| packChannel layout 1 c.g) &&& packChannel layout 2 c.b = 0 := by
    rw [Nat.and_or_distrib_right, packChannel_and_eq_zero hr hb hrb, packChannel_and_eq_zero hg hb hgb, Nat.or_zero]
  have hsum := packChannel_and_eq_zero hr hg hrg c.r c.g
  calc (pack16 layout c).setWidth 32
      = BitVec.ofNat 32 (packChannel layout 0 c.r ||| packChannel layout 1 c.g ||| packChannel layout 2 c.b) := by
        apply BitVec.eq_of_toNat_eq
        rw [pack16, BitVec.toNat_setWidth, BitVec.toNat_ofNat, BitVec.toNat_ofNat, Nat.mod_eq_of_lt hfit]
    _ = BitVec.ofNat 32 (packChannel layout 0 c.r + packChannel layout 1 c.g + packChannel layout 2 c.b) := by
        rw [← ofNat_add_of_and_eq_zero hdisjoint, BitVec.ofNat_add, ← ofNat_add_of_and_eq_zero hsum, ← BitVec.ofNat_add]
    _ = _ := by rw [packChannel_eq_channel16, packChannel_eq_channel16, packChannel_eq_channel16]

/-- What a passing configuration gives of the pixel format (R163, R184). -/
theorem State.pixelFormat_of_cfgCause {s : State} (h : s.cfgCause = .noCause) :
    s.bpp = 32 ∨ (s.bpp = 16 ∧ layoutOK s.chanLayout = true) := by
  have hsurf := State.surfCause_of_cfgCause h
  have hframe : s.frameCause = .noCause := by
    unfold State.cfgCause at h
    rwa [if_pos hsurf] at h
  have hbpp : s.bpp = 16 ∨ s.bpp = 32 := by
    unfold State.surfCause at hsurf
    repeat' (split at hsurf; · cases hsurf)
    omega
  have hlayout : ¬ (s.bpp = 16 ∧ layoutOK s.chanLayout = false) := by
    unfold State.frameCause at hframe
    split at hframe
    · cases hframe
    · assumption
  rcases hbpp with hbpp | hbpp
  · exact .inr ⟨hbpp, by simpa [hbpp] using hlayout⟩
  · exact .inl hbpp

/-- The packed conversion is the spec's pixel of the three samples (R141, R144, R145, R146). -/
theorem State.pack_convert {s : State} (h : s.bpp = 32 ∨ (s.bpp = 16 ∧ layoutOK s.chanLayout = true)) (y u v : Byte) :
    s.pack (convert y u v) = pixelOf s y.toNat u.toNat v.toNat := by
  unfold State.pack pixelOf
  rcases h with hbpp | ⟨hbpp, hlayout⟩
  · rw [if_pos hbpp, if_pos hbpp, pack32_eq_ofNat, convert_r_toNat, convert_g_toNat, convert_b_toNat, rgb32]
  · rw [if_neg (by omega), if_neg (by omega), pack16_eq_ofNat hlayout, convert_r_toNat, convert_g_toNat, convert_b_toNat, rgb16]

/-! ### The pixels a list of writes leaves -/

theorem byteImage_getElem (e : Endian) (n : Nat) (v : Word) (k : Nat) (h : k < n) :
    (byteImage e n v)[k]'(by simpa using h) = imageByte e n v k := by
  have hbyte : ∀ b, v.extractLsb' b 8 = BitVec.ofNat 8 (v.toNat / 2 ^ b) := fun b => by
    rw [BitVec.extractLsb', Nat.shiftRight_eq_div_pow]
  cases e with
  | little => rw [byteImage_little n v k h, hbyte, imageByte]
  | big => rw [byteImage_big n v k h, hbyte, imageByte]

/-- A write of the list stands whole when every other write of the list is the same or reaches none of its bytes. -/
theorem read_applyWrites_of_mem (e : Endian) {ws : List SurfWrite} {w : SurfWrite} (hw : w ∈ ws)
    (hothers : ∀ v ∈ ws, v = w ∨ w.off + w.width ≤ v.off ∨ v.off + v.width ≤ w.off) (m : Memory) {k : Nat} (hk : k < w.width) :
    (applyWrites e m ws).read (w.off + k) = some (imageByte e w.width w.value k) := by
  induction ws generalizing m with
  | nil => cases hw
  | cons v vs ih =>
    rw [applyWrites_cons]
    by_cases hrest : w ∈ vs
    · exact ih hrest (fun x hx => hothers x (List.mem_cons_of_mem _ hx)) _
    · obtain rfl : w = v := (List.mem_cons.mp hw).resolve_right hrest
      have houtside : ∀ x ∈ vs, w.off + k < x.off ∨ x.off + x.width ≤ w.off + k := fun x hx => by
        rcases hothers x (List.mem_cons_of_mem _ hx) with rfl | hx' | hx'
        · exact absurd hx hrest
        · omega
        · omega
      rw [read_applyWrites_outside e vs _ _ houtside, SurfWrite.read_apply_inside e m w k hk, byteImage_getElem e _ _ k hk]

/-- A pixel ends before one that comes later in raster order begins (R160, R163). -/
theorem State.pixelOffset_add_bpb_le {s : State} (hsurf : s.surfCause = .noCause) {x y x' y' : Nat} (hx : x < s.sw)
    (hlater : y < y' ∨ (y = y' ∧ x < x')) : s.pixelOffset x y + s.bpb ≤ s.pixelOffset x' y' := by
  obtain ⟨-, hrow, -⟩ := State.surface_fits hsurf
  have hnext : s.pixelOffset x y + s.bpb = y * s.stride + (x + 1) * s.bpb := by rw [State.pixelOffset]; ring
  rw [hnext, State.pixelOffset]
  rcases hlater with hy | ⟨rfl, hx'⟩
  · calc y * s.stride + (x + 1) * s.bpb ≤ y * s.stride + s.sw * s.bpb := Nat.add_le_add_left (Nat.mul_le_mul_right _ hx) _
      _ ≤ y * s.stride + s.stride := Nat.add_le_add_left hrow _
      _ = (y + 1) * s.stride := by ring
      _ ≤ y' * s.stride := Nat.mul_le_mul_right _ hy
      _ ≤ y' * s.stride + x' * s.bpb := Nat.le_add_right _ _
  · exact Nat.add_le_add_left (Nat.mul_le_mul_right _ hx') _

/-- Two different pixels of the surface share no byte (R163). -/
theorem State.pixels_disjoint {s : State} (hsurf : s.surfCause = .noCause) {x y x' y' : Nat} (hx : x < s.sw) (hx' : x' < s.sw)
    (hne : (x, y) ≠ (x', y')) :
    s.pixelOffset x y + s.bpb ≤ s.pixelOffset x' y' ∨ s.pixelOffset x' y' + s.bpb ≤ s.pixelOffset x y := by
  have horder : (y < y' ∨ (y = y' ∧ x < x')) ∨ (y' < y ∨ (y' = y ∧ x' < x)) := by
    simp only [ne_eq, Prod.mk.injEq] at hne
    omega
  rcases horder with hlater | hlater
  · exact .inl (State.pixelOffset_add_bpb_le hsurf hx hlater)
  · exact .inr (State.pixelOffset_add_bpb_le hsurf hx' hlater)

/-- After one write to each of a list of pixels of the surface, each of them holds its value. -/
theorem pixelHolds_applyWrites {s : State} (hsurf : s.surfCause = .noCause) {ps : List (Nat × Nat)} (hps : ∀ p ∈ ps, p.1 < s.sw)
    (value : Nat → Nat → Word) (m : Memory) {x y : Nat} (hp : (x, y) ∈ ps) :
    pixelHolds s (applyWrites s.params.endian m (ps.map fun p => pixelWriteOf s p.1 p.2 (value p.1 p.2))) x y (value x y) := by
  intro k hk
  have hothers : ∀ v ∈ ps.map fun p => pixelWriteOf s p.1 p.2 (value p.1 p.2),
      v = pixelWriteOf s x y (value x y) ∨ s.pixelOffset x y + s.bpb ≤ v.off ∨ v.off + v.width ≤ s.pixelOffset x y := by
    intro v hv
    obtain ⟨p, hp', rfl⟩ := List.mem_map.mp hv
    by_cases hsame : (x, y) = p
    · exact .inl (by rw [← hsame])
    · exact .inr (State.pixels_disjoint hsurf (hps _ hp) (hps p hp') hsame)
  exact read_applyWrites_of_mem _ (List.mem_map_of_mem hp) hothers m hk

/-- The walk's write at a pixel of the frame is of the spec's value (R185). -/
theorem decodePixel_eq {s : State} (hcfg : s.cfgCause = .noCause) {i j : Nat} (hi : i < s.fw) (hj : j < s.fh) :
    decodePixel s i j = .ok (pixelWriteOf s i j (walkPixel s i j)) := by
  obtain ⟨w, hw⟩ := decodePixel_answers hcfg hi hj
  obtain ⟨y, u, v, hy, hu, hv, hwrite⟩ := decodePixel_ok hw
  obtain ⟨-, rfl⟩ := fbRead_ok hy
  obtain ⟨-, rfl⟩ := fbRead_ok hu
  obtain ⟨-, rfl⟩ := fbRead_ok hv
  obtain ⟨-, -, rfl⟩ := pixelWrite_ok hwrite
  rw [hw, State.pack_convert (State.pixelFormat_of_cfgCause hcfg)]
  rfl

/-- The walk's writes, pixel by pixel in raster order (R186). -/
theorem walkWrites_eq {s : State} (hcfg : s.cfgCause = .noCause) :
    walkWrites s = .ok ((rasterPixels 0 0 s.fw s.fh).map fun p => pixelWriteOf s p.1 p.2 (walkPixel s p.1 p.2)) := by
  refine collectWrites_eq_ok (g := fun i j => pixelWriteOf s i j (walkPixel s i j)) _ fun p hp => ?_
  have hbounds := mem_rasterPixels.mp hp
  exact decodePixel_eq hcfg (by omega) (by omega)

/-! ### A command, a poll and a look, turn by turn -/

theorem run_succ_of_step {s t : State} (h : step s = .next t) (n : Nat) : run (n + 1) s = run n t := by
  rw [run, h]

theorem run_one_of_step {s t : State} (h : step s = .next t) : run 1 s = .next t := run_succ_of_step h 0

/-- A surface-writing command that its checks let run is answered, its writes are issued, and all writes up to its last are commanded ones now;
DECODE also counts (R95, R164, R165, R188). -/
theorem exec_of_commandWrites {i : Instr} {s : State} {ws : List SurfWrite} (h : commandWrites i s = some (.ok ws)) (hws : ws ≠ []) :
    ∃ t, exec i s = .next t ∧ s.Issues t ws ∧ t.commandedWrites = t.issued.length ∧ t.turns = s.turns ∧ t.hostQ = s.hostQ ∧
      (i = .decode → t.decodeCount = s.decodeCount + 1) := by
  rcases commandWrites_eq_some h with ⟨rfl, hnone, hok⟩ | ⟨rfl, hnone, hok⟩ | ⟨rfl, hnone, hok⟩
  · have hexec : exec .wrpix s = finish ((s.writeSurface ws).completeCommand ws) := by
      simp only [exec, execWrpix, hnone, ← hok, surfaceCommand]
    exact ⟨_, hexec, ⟨by simp, by simp, by simp, by simp⟩, by simp [hws], by simp, by simp, nofun⟩
  · have hexec : exec .fill s = finish ((s.writeSurface ws).completeCommand ws) := by
      simp only [exec, execFill, hnone, ← hok, surfaceCommand]
    exact ⟨_, hexec, ⟨by simp, by simp, by simp, by simp⟩, by simp [hws], by simp, by simp, nofun⟩
  · have hexec : exec .decode s = finish ((s.writeSurface ws).completeCommand ws).countDecode := by
      simp only [exec, execDecode, hnone, ← hok, surfaceCommand]
    exact ⟨_, hexec, ⟨by simp, by simp, by simp, by simp⟩, by simp [hws], by simp, by simp, by simp⟩

/-- The host's turn with such a command (R74). -/
theorem step_host_command {s : State} {r : BusRequest} {q : List BusRequest} {rest : List Turn} {ws : List SurfWrite}
    (hturns : s.turns = .host :: rest) (hqueue : s.hostQ = r :: q)
    (hcommand : commandWrites (decodeBus r.req r.data) s = some (.ok ws)) (hws : ws ≠ []) :
    ∃ t, step s = .next t ∧ s.Issues t ws ∧ t.commandedWrites = t.issued.length ∧ t.turns = rest ∧ t.hostQ = q ∧
      (decodeBus r.req r.data = .decode → t.decodeCount = s.decodeCount + 1) := by
  rw [step_of_turn hturns, runTurn, hostTurn, hqueue]
  generalize htaken : State.takeRequest { s with turns := rest } (decodeBus r.req r.data) q = u
  have hsame : commandWrites (decodeBus r.req r.data) u = some (.ok ws) := by
    rw [← htaken, commandWrites_takeRequest, ← hcommand]
    cases decodeBus r.req r.data <;> rfl
  obtain ⟨t, hexec, hissues, hcommanded, hturns', hqueue', hcount⟩ := exec_of_commandWrites hsame hws
  subst htaken
  exact ⟨t, hexec, { (State.issues_takeRequest _ _ q).trans hissues with }, hcommanded, hturns', hqueue', hcount⟩

/-- A poll reads STATUS or DECODE_COUNT (R75). -/
theorem isPollRequest_cases {poll : BusRequest} (h : isPollRequest poll) :
    (poll.req = 0x23C ∧ decodeBus poll.req poll.data = .regrd 2 0x3C) ∨ (poll.req = 0x244 ∧ decodeBus poll.req poll.data = .regrd 2 0x44) := by
  rcases h with h | h
  · exact .inl ⟨h, by rw [h]; rfl⟩
  · exact .inr ⟨h, by rw [h]; rfl⟩

/-- What a poll orders (R75, R268). -/
theorem pollOrders_poll {poll : BusRequest} (h : isPollRequest poll) (s : State) :
    s.commandedWrites ≤ pollOrders (decodeBus poll.req poll.data) s ∧
    (poll.req = 0x244 ∨ s.phase = .terminated ∨ s.phase = .error → s.countedWrites ≤ pollOrders (decodeBus poll.req poll.data) s) := by
  by_cases hframes : pollsFrames (decodeBus poll.req poll.data) s
  · rw [pollOrders_of_pollsFrames hframes]
    exact ⟨le_max_left _ _, fun _ => le_max_right _ _⟩
  · rcases isPollRequest_cases h with ⟨hreq, hi⟩ | ⟨hreq, hi⟩
    · rw [hi] at hframes ⊢
      rw [pollOrders_status hframes]
      refine ⟨le_rfl, fun hdone => absurd (.inr ⟨rfl, hdone.resolve_left ?_⟩) hframes⟩
      rw [hreq]
      decide
    · exact absurd (.inl hi) hframes

/-- The host's turn with a poll: an answer, and what the poll orders is noted (R120, R75). -/
theorem step_host_poll {s : State} {poll : BusRequest} {q : List BusRequest} {rest : List Turn} (hpoll : isPollRequest poll)
    (hturns : s.turns = .host :: rest) (hqueue : s.hostQ = poll :: q) :
    ∃ t, step s = .next t ∧ pollOrders (decodeBus poll.req poll.data) s ≤ t.syncedWrites ∧ t.prefixView = s.prefixView ∧
      t.surf = s.surf ∧ t.turns = rest ∧ t.hostQ = q ∧ (poll.req = 0x244 → t.lastResp = some (.read .okay s.decodeCount)) := by
  rw [step_host hturns hqueue]
  rcases isPollRequest_cases hpoll with ⟨hreq, hi⟩ | ⟨hreq, hi⟩ <;> rw [hi, hreq]
  · exact ⟨_, rfl, le_max_right _ _, rfl, rfl, rfl, rfl, fun hcount => absurd hcount (by decide)⟩
  · exact ⟨_, rfl, le_max_right _ _, rfl, rfl, rfl, rfl, fun _ => rfl⟩

/-- A poll and then a look of a reader that synchronises through it: the look shows at least what the poll orders (R75). -/
theorem run_poll_then_look {s : State} {n : Nat} {poll : BusRequest} {q : List BusRequest} {rest : List Turn} (hpoll : isPollRequest poll)
    (hturns : s.turns = .host :: .readAfterPoll n :: rest) (hqueue : s.hostQ = poll :: q) :
    ∃ t k, run 2 s = .next t ∧ pollOrders (decodeBus poll.req poll.data) s ≤ k ∧ t.readerView = some (s.prefixView k) ∧ t.turns = rest ∧
      t.hostQ = q ∧ t.surf = s.surf ∧ (poll.req = 0x244 → t.lastResp = some (.read .okay s.decodeCount)) := by
  obtain ⟨u, hstep, horders, hview, hsurf, hturns', hqueue', hresp⟩ := step_host_poll hpoll hturns hqueue
  refine ⟨_, max n u.syncedWrites, (run_succ_of_step hstep 1).trans (run_one_of_step (step_of_turn hturns')), by omega, ?_, rfl, hqueue',
    hsurf, hresp⟩
  rw [← hview]
  rfl

/-- A command that writes and then a poll: the reader sees every issued write (R75, R266). -/
theorem run_command_poll_look {s : State} {n : Nat} {command poll : BusRequest} {q : List BusRequest} {rest : List Turn}
    {ws : List SurfWrite} (hcommand : commandWrites (decodeBus command.req command.data) s = some (.ok ws)) (hws : ws ≠ [])
    (hpoll : isPollRequest poll) (hqueue : s.hostQ = command :: poll :: q) (hturns : s.turns = .host :: .host :: .readAfterPoll n :: rest) :
    ∃ t, run 3 s = .next t ∧ t.readerView = some (applyWrites s.params.endian [] (s.issued ++ ws)) ∧
      t.surf = applyWrites s.params.endian s.surf ws ∧ t.turns = rest ∧ t.hostQ = q ∧
      (decodeBus command.req command.data = .decode → poll.req = 0x244 → t.lastResp = some (.read .okay (s.decodeCount + 1))) := by
  obtain ⟨u, hstep, hissues, hcommanded, hturns', hqueue', hcount⟩ := step_host_command hturns hqueue hcommand hws
  obtain ⟨t, k, hrun, hk, hview, hrest, hq, hsurf, hresp⟩ := run_poll_then_look hpoll hturns' hqueue'
  obtain ⟨hordered, -⟩ := pollOrders_poll hpoll u
  refine ⟨t, (run_succ_of_step hstep 2).trans hrun, ?_, hsurf.trans hissues.surf, hrest, hq, fun hdecode hreq => ?_⟩
  · rw [hview, State.prefixView_of_le (by omega), hissues.issued, hissues.params]
  · rw [hresp hreq, hcount hdecode]

/-- A command that writes and then the look of the software that wrote CMD, without a poll (R266). -/
theorem run_command_look {s : State} {n : Nat} {command : BusRequest} {q : List BusRequest} {rest : List Turn} {ws : List SurfWrite}
    (hcommand : commandWrites (decodeBus command.req command.data) s = some (.ok ws)) (hws : ws ≠ [])
    (hqueue : s.hostQ = command :: q) (hturns : s.turns = .host :: .readAfterCommand n :: rest) :
    ∃ t, run 2 s = .next t ∧ t.readerView = some (applyWrites s.params.endian [] (s.issued ++ ws)) ∧
      t.surf = applyWrites s.params.endian s.surf ws ∧ t.hostQ = q := by
  obtain ⟨u, hstep, hissues, hcommanded, hturns', hqueue', -⟩ := step_host_command hturns hqueue hcommand hws
  refine ⟨_, (run_succ_of_step hstep 1).trans (run_one_of_step (step_of_turn hturns')), ?_, hissues.surf, hqueue'⟩
  have hview : u.prefixView (max n u.commandedWrites) = applyWrites s.params.endian [] (s.issued ++ ws) := by
    rw [State.prefixView_of_le (by omega), hissues.issued, hissues.params]
  exact congrArg some hview

/-- The surface as a command leaves it is what all issued writes make of it (R71). -/
theorem State.Inv.replay_append {s : State} (hs : s.Inv) (ws : List SurfWrite) :
    applyWrites s.params.endian [] (s.issued ++ ws) = applyWrites s.params.endian s.surf ws := by
  obtain ⟨hissued, -⟩ := hs.surfaceIssued
  rw [applyWrites_append, ← hissued]

/-- A DECODE that its checks let run writes every pixel of the frame, and there is one (R184, R188). -/
theorem commandWrites_decode {s : State} (hphase : s.acceptsCommands) (hcfg : s.cfgCause = .noCause) (hvalid : s.fbValid = true) :
    commandWrites .decode s =
      some (.ok ((rasterPixels 0 0 s.fw s.fh).map fun p => pixelWriteOf s p.1 p.2 (walkPixel s p.1 p.2))) := by
  have hchecks : s.decodeCommandError = none := by
    have hstate : ¬ (s.phase ≠ .idle ∧ s.phase ≠ .terminated) := by rcases hphase with h | h <;> simp [h]
    simp [State.decodeCommandError, hstate, hcfg, hvalid]
  simp only [commandWrites, if_pos hchecks, walkWrites_eq hcfg]

/-- Settles O52: the poll's look; a command and either look; and a DECODE, whose writes put each pixel of the frame in place. -/
theorem polledReaderSeesCommandsAndFrames : Obligations.PolledReaderSeesCommandsAndFrames := by
  unfold Obligations.PolledReaderSeesCommandsAndFrames
  refine ⟨?_, ?_, ?_⟩
  · intro s n poll hq rest hs hpoll hqueue hturns
    obtain ⟨-, hcounted, hcommanded, -⟩ := hs.surfaceIssued
    obtain ⟨t, k, hrun, hk, hview, hrest, hhostQ, -, -⟩ := run_poll_then_look hpoll hturns hqueue
    obtain ⟨hcommands, hframes⟩ := pollOrders_poll hpoll s
    rw [State.prefixView_min] at hview
    exact ⟨t, min k s.issued.length, hrun, hrest, hhostQ, by omega, by omega, fun hread => by have := hframes hread; omega, hview⟩
  · intro s n command poll hq ws rest hs hcommand hws hpoll hqueue
    refine ⟨fun hturns => ?_, fun hturns => ?_⟩
    · obtain ⟨t, hrun, hview, hsurf, -, hhostQ, -⟩ := run_command_poll_look hcommand hws hpoll hqueue hturns
      exact ⟨t, hrun, by rw [hview, hsurf, hs.replay_append], hsurf, hhostQ⟩
    · obtain ⟨t, hrun, hview, hsurf, hhostQ⟩ := run_command_look hcommand hws hqueue hturns
      exact ⟨t, hrun, by rw [hview, hsurf, hs.replay_append], hsurf, hhostQ⟩
  · intro s n poll hq rest hphase hcfg hvalid hpoll hqueue hturns
    obtain ⟨-, ⟨hwidth, -⟩, -⟩ := State.frame_fits hcfg
    obtain ⟨hw, hh, -⟩ := State.frame_pos hcfg
    have hpixel : ∀ {i j}, i < s.fw → j < s.fh → (i, j) ∈ rasterPixels 0 0 s.fw s.fh := fun hi hj =>
      mem_rasterPixels.mpr ⟨Nat.zero_le _, by omega, Nat.zero_le _, by omega⟩
    have hsome := List.ne_nil_of_mem (List.mem_map_of_mem (f := fun p => pixelWriteOf s p.1 p.2 (walkPixel s p.1 p.2)) (hpixel hw hh))
    obtain ⟨t, hrun, hview, -, hrest, hhostQ, hresp⟩ :=
      run_command_poll_look (command := ⟨0x630, 4⟩) (commandWrites_decode hphase hcfg hvalid) hsome hpoll hqueue hturns
    rw [applyWrites_append] at hview
    refine ⟨t, _, hrun, hview, hrest, hhostQ, hresp rfl, fun i j hi hj => ?_⟩
    refine pixelHolds_applyWrites (State.surfCause_of_cfgCause hcfg) (fun p hp => ?_) (walkPixel s) _ (hpixel hi hj)
    have hbounds := mem_rasterPixels.mp hp
    omega

end Sys2Proof.Machine
end

section
/-! PROOF. The statements of 30_encoding.md: encoding and decoding undo each other on every port (R91, R93, R97, R98), and a write to CMD checks its
word in the order of R235. -/

namespace Sys2Proof.Machine

open Sys2Proof.Spec

/-! ### The command word -/

/-- The CMD word of a command: its opcode with RSV = 0 (R93, R94). -/
def commandWord : Command → Word
  | .cvt => 1
  | .wrpix => 2
  | .fill => 3
  | .decode => 4
  | .start => 5

theorem encode_toInstr (c : Command) : encode c.toInstr = .bus cmdRequest (commandWord c) := by
  cases c <;> rfl

theorem isCommandWord_commandWord (c : Command) : isCommandWord (commandWord c) = true := by
  cases c <;> rfl

theorem isCommandWord_eq_true {w : Word} (h : isCommandWord w = true) : ∃ c, w = commandWord c := by
  simp only [isCommandWord, Bool.or_eq_true, beq_iff_eq] at h
  obtain (((h | h) | h) | h) | h := h
  · exact ⟨.cvt, h⟩
  · exact ⟨.wrpix, h⟩
  · exact ⟨.fill, h⟩
  · exact ⟨.decode, h⟩
  · exact ⟨.start, h⟩

theorem commandOf_eq_none_iff : ∀ op : BitVec 4, commandOf op = none ↔ op.toNat = 0 ∨ 6 ≤ op.toNat := by decide

theorem commandOf_eq_some {op : BitVec 4} {c : Command} (h : commandOf op = some c) : op.toNat = (commandWord c).toNat := by
  unfold commandOf at h
  split at h <;> cases h <;> assumption

theorem decodeCmd_commandWord (c : Command) : decodeCmd (commandWord c) = .ok c := by
  cases c <;> rfl

/-- The outcomes of a CMD word in the order of their checks (R235): OP names no command, RSV is not 0, or it is a command's word. -/
theorem decodeCmd_cases (w : Word) :
    ((w.toNat % 16 = 0 ∨ 6 ≤ w.toNat % 16) ∧ decodeCmd w = .error .illegalOp) ∨
    (¬ (w.toNat % 16 = 0 ∨ 6 ≤ w.toNat % 16) ∧ w.toNat / 16 ≠ 0 ∧ decodeCmd w = .error .reservedBits) ∨
    ∃ c, w = commandWord c := by
  have hop : (w.extractLsb' 0 4).toNat = w.toNat % 16 := by simp
  have hrsv : w.extractLsb' 4 28 = 0 ↔ w.toNat / 16 = 0 := by
    rw [← BitVec.toNat_inj, BitVec.extractLsb'_toNat, Nat.shiftRight_eq_div_pow]
    simp only [BitVec.ofNat_eq_ofNat, BitVec.toNat_ofNat]
    omega
  have hnone := commandOf_eq_none_iff (w.extractLsb' 0 4)
  rw [hop] at hnone
  unfold decodeCmd
  cases hc : commandOf (w.extractLsb' 0 4) with
  | none => exact .inl ⟨hnone.mp hc, rfl⟩
  | some c =>
    have hlegal : ¬ (w.toNat % 16 = 0 ∨ 6 ≤ w.toNat % 16) := by simp [← hnone, hc]
    by_cases hzero : w.extractLsb' 4 28 = 0
    · have hword : w.toNat % 16 = (commandWord c).toNat := by rw [← hop, commandOf_eq_some hc]
      exact .inr (.inr ⟨c, BitVec.eq_of_toNat_eq (by have := hrsv.mp hzero; omega)⟩)
    · exact .inr (.inl ⟨hlegal, mt hrsv.mpr hzero, if_neg hzero⟩)

theorem decodeCmd_error_of_not_isCommandWord {w : Word} (h : isCommandWord w = false) : ∃ e, decodeCmd w = .error e := by
  rcases decodeCmd_cases w with ⟨-, he⟩ | ⟨-, -, he⟩ | ⟨c, rfl⟩
  · exact ⟨_, he⟩
  · exact ⟨_, he⟩
  · simp [isCommandWord_commandWord] at h

/-- A command error leaves CMD_ERR as the first error has it, and the response is OKAY (R236). -/
theorem commandError_eq_withError (code : CmdErrCode) (cause : CfgCause) (s : State) :
    commandError code cause s = .next (withError code cause s) := by
  unfold commandError finish State.raiseCmdError withError
  split <;> rfl

/-- A word write to CMD runs its word (R93, R121). -/
theorem exec_regwr_cmd (w : Word) (s : State) : exec (.regwr 2 0x30 w) s = runCommandWord w s := rfl

/-- Settles O7, by the outcomes of the word: the two rejections, and the five commands. -/
theorem commandWordChecksInOrder : Obligations.CommandWordChecksInOrder := by
  unfold Obligations.CommandWordChecksInOrder
  intro w s
  rw [exec_regwr_cmd, runCommandWord]
  rcases decodeCmd_cases w with ⟨hillegal, he⟩ | ⟨hlegal, hreserved, he⟩ | ⟨c, rfl⟩
  · rw [he, if_pos hillegal]
    exact commandError_eq_withError _ _ _
  · rw [he, if_neg hlegal, if_pos hreserved]
    exact commandError_eq_withError _ _ _
  · rw [decodeCmd_commandWord]
    cases c <;> rfl

/-! ### The register port -/

/-- Every request is its three fields put together (R91). -/
theorem busRequest_fields (req : BitVec 11) :
    busRequest (req.extractLsb' 10 1) (req.extractLsb' 8 2) (req.extractLsb' 0 8) = req := by
  have hhigh : req.extractLsb' 10 1 ++ req.extractLsb' 8 2 = req.extractLsb' 8 3 :=
    BitVec.extractLsb'_append_extractLsb'_eq_extractLsb' rfl
  have hall : req.extractLsb' 8 3 ++ req.extractLsb' 0 8 = req.extractLsb' 0 11 :=
    BitVec.extractLsb'_append_extractLsb'_eq_extractLsb' rfl
  rw [busRequest, hhigh, hall, BitVec.extractLsb'_eq_self]

/-- A register-port request is a read or a write of some SIZE and ADDR (R91). -/
theorem busRequest_cases (req : BitVec 11) :
    (∃ size addr, req = busRequest 0 size addr) ∨ ∃ size addr, req = busRequest 1 size addr := by
  rcases BitVec.eq_zero_or_eq_one (req.extractLsb' 10 1) with h | h
  · exact .inl ⟨_, _, (h ▸ busRequest_fields req).symm⟩
  · exact .inr ⟨_, _, (h ▸ busRequest_fields req).symm⟩

theorem busRequest_we (we : BitVec 1) (size : BitVec 2) (addr : BitVec 8) : (busRequest we size addr).getLsbD 10 = we.getLsbD 0 := by
  rw [busRequest, BitVec.getLsbD_append, BitVec.getLsbD_append]
  rfl

theorem busRequest_size (we : BitVec 1) (size : BitVec 2) (addr : BitVec 8) : (busRequest we size addr).extractLsb' 8 2 = size := by
  unfold busRequest
  apply BitVec.eq_of_toNat_eq
  rw [BitVec.extractLsb'_toNat, toNat_append_eq_add, toNat_append_eq_add, Nat.shiftRight_eq_div_pow]
  omega

theorem busRequest_addr (we : BitVec 1) (size : BitVec 2) (addr : BitVec 8) : (busRequest we size addr).extractLsb' 0 8 = addr :=
  BitVec.extractLsb'_append_eq_right

theorem decodeBus_read (size : BitVec 2) (addr : BitVec 8) (data : Word) : decodeBus (busRequest 0 size addr) data = .regrd size addr := by
  rw [decodeBus, busRequest_we, busRequest_size, busRequest_addr]
  rfl

theorem decodeBus_write {size : BitVec 2} {addr : BitVec 8} {data : Word} (h : (Instr.regwr size addr data).canonical = true) :
    decodeBus (busRequest 1 size addr) data = .regwr size addr data := by
  have hwe : (busRequest 1 size addr).getLsbD 10 = true := busRequest_we ..
  rw [decodeBus, if_pos hwe, busRequest_size, busRequest_addr]
  split
  · rename_i hcmd
    have hword : isCommandWord data = false := by simpa [Instr.canonical, hcmd] using h
    obtain ⟨e, he⟩ := decodeCmd_error_of_not_isCommandWord hword
    rw [he]
  · rfl

theorem decodeBus_commandWord (c : Command) : decodeBus cmdRequest (commandWord c) = c.toInstr := by
  cases c <;> rfl

theorem toInstr_canonical (c : Command) : c.toInstr.canonical = true := by
  cases c <;> rfl

/-- A write that is not canonical is the write of a command's word to CMD (R93). -/
theorem regwr_not_canonical {size : BitVec 2} {addr : BitVec 8} {data : Word} (h : ¬ (Instr.regwr size addr data).canonical = true) :
    busRequest 1 size addr = cmdRequest ∧ ∃ c, data = commandWord c := by
  simp only [Instr.canonical, Bool.not_eq_true', Bool.not_eq_false, Bool.and_eq_true, beq_iff_eq] at h
  obtain ⟨⟨rfl, rfl⟩, hword⟩ := h
  exact ⟨rfl, isCommandWord_eq_true hword⟩

/-! ### The input port -/

/-- Settles O44: ERR and EOS are the two bits above DATA. -/
theorem inputDecodePrecedence : Obligations.InputDecodePrecedence := by
  unfold Obligations.InputDecodePrecedence decodeInput
  intro w
  have hw : w.toNat < 1024 := w.isLt
  have herr : w.getLsbD 9 = true ↔ 512 ≤ w.toNat := by
    rw [BitVec.getLsbD, Nat.testBit_eq_decide_div_mod_eq, decide_eq_true_iff]
    omega
  by_cases hhigh : 512 ≤ w.toNat
  · rw [if_pos (herr.mpr hhigh), if_pos hhigh]
  · have heos : w.getLsbD 8 = true ↔ 256 ≤ w.toNat := by
      rw [BitVec.getLsbD, Nat.testBit_eq_decide_div_mod_eq, decide_eq_true_iff]
      omega
    simp only [herr, heos]
    rfl

theorem toNat_zero_append {n : Nat} (x : BitVec n) : ((0 : BitVec 2) ++ x).toNat = x.toNat := by
  rw [toNat_append_eq_add]
  simp

/-- A transfer is IN_BYTE when ERR and EOS are 0 (R97). -/
theorem decodeInput_eq_inByte_iff {w : BitVec 10} {d : Byte} : decodeInput w = .inByte d ↔ w = (0 : BitVec 2) ++ d := by
  rw [inputDecodePrecedence w, ← BitVec.toNat_inj, toNat_zero_append]
  have hd : d.toNat < 256 := d.isLt
  constructor
  · intro h
    split at h
    · cases h
    · split at h <;> cases h
      rw [BitVec.toNat_ofNat, Nat.mod_eq_of_lt (by omega)]
  · intro h
    rw [h, if_neg (by omega), if_neg (by omega), BitVec.ofNat_toNat, BitVec.setWidth_eq]

/-! ### The tee port -/

theorem sinkStatus_toNat (w : BitVec 34) : (w.extractLsb' 32 2).toNat = w.toNat / 2 ^ 32 := by
  rw [BitVec.extractLsb'_toNat, Nat.shiftRight_eq_div_pow]
  omega

/-- Settles O45, by the range of the status. -/
theorem sinkDecodeByStatus : Obligations.SinkDecodeByStatus := by
  unfold Obligations.SinkDecodeByStatus decodeSink
  intro w
  have hw := w.isLt
  rw [sinkStatus_toNat]
  refine ⟨fun hacc => ?_, fun hlow hhigh => ?_, fun hlow hhigh => ?_, fun hlow => ?_⟩
  · rw [show w.toNat / 2 ^ 32 = 0 by omega]
    rfl
  · rw [show w.toNat / 2 ^ 32 = 1 by omega]
    rfl
  · rw [show w.toNat / 2 ^ 32 = 2 by omega]
    rfl
  · rw [show w.toNat / 2 ^ 32 = 3 by omega]
    rfl

/-- A response is SINK_ACC when ST is 0 (R98). -/
theorem decodeSink_eq_sinkAcc_iff {w : BitVec 34} {n : Word} : decodeSink w = .ok (.sinkAcc n) ↔ w = (0 : BitVec 2) ++ n := by
  rw [← BitVec.toNat_inj, toNat_zero_append]
  constructor
  · intro h
    unfold decodeSink at h
    split at h <;> cases h
    rename_i hacc
    rw [sinkStatus_toNat] at hacc
    rw [BitVec.extractLsb'_toNat, Nat.shiftRight_zero, Nat.mod_eq_of_lt (by omega)]
  · intro h
    obtain ⟨hacc, -⟩ := sinkDecodeByStatus w
    have hn := n.isLt
    rw [hacc (by omega), h, BitVec.ofNat_toNat, BitVec.setWidth_eq]

/-! ### Both directions -/

/-- Settles O42: a read or a write by its fields, a command by its word, and an input transfer or a sink response by its port. -/
theorem decodeInvertsEncode : Obligations.DecodeInvertsEncode := by
  unfold Obligations.DecodeInvertsEncode
  intro i hcanonical
  have hcommand : ∀ c : Command, decodeTransfer (encode c.toInstr) = .ok c.toInstr := fun c => by
    rw [encode_toInstr, decodeTransfer, decodeBus_commandWord]
  cases i with
  | regrd size addr => exact congrArg Except.ok (decodeBus_read size addr 0)
  | regwr size addr data => exact congrArg Except.ok (decodeBus_write hcanonical)
  | cvt => exact hcommand .cvt
  | wrpix => exact hcommand .wrpix
  | fill => exact hcommand .fill
  | decode => exact hcommand .decode
  | start => exact hcommand .start
  | inByte d => exact congrArg Except.ok (decodeInput_eq_inByte_iff.mpr rfl)
  | sinkAcc n => exact decodeSink_eq_sinkAcc_iff.mpr rfl
  | inEos | inErr | sinkFail | sinkClosed => rfl

/-- Settles O43: the request is a read, a write that stays a write, or the write of a command's word. -/
theorem encodeInvertsDecode : Obligations.EncodeInvertsDecode := by
  unfold Obligations.EncodeInvertsDecode
  refine ⟨fun req data => ?_, fun w d h => ?_, fun w n h => ?_⟩
  · rcases busRequest_cases req with ⟨size, addr, rfl⟩ | ⟨size, addr, rfl⟩
    · rw [decodeBus_read, busRequest_we]
      exact ⟨rfl, rfl⟩
    · rw [busRequest_we]
      by_cases hcanonical : (Instr.regwr size addr data).canonical = true
      · rw [decodeBus_write hcanonical]
        exact ⟨hcanonical, rfl⟩
      · obtain ⟨hreq, c, rfl⟩ := regwr_not_canonical hcanonical
        rw [hreq, decodeBus_commandWord, encode_toInstr]
        exact ⟨toInstr_canonical c, rfl⟩
  · rw [decodeInput_eq_inByte_iff.mp h, encode]
  · rw [decodeSink_eq_sinkAcc_iff.mp h, encode]

/-- Settles O46, each register-port word by the lemma for its row, the other words by evaluation. -/
theorem specWordsDecode : Obligations.SpecWordsDecode := by
  unfold Obligations.SpecWordsDecode
  exact ⟨decodeBus_read 2 0x04 0, decodeBus_write (size := 2) (addr := 0x10) rfl, decodeBus_read 1 0x3C 0,
    decodeBus_commandWord .cvt, decodeBus_commandWord .wrpix, decodeBus_commandWord .fill, decodeBus_commandWord .decode,
    decodeBus_commandWord .start, decodeBus_write (size := 2) (addr := 0x30) rfl,
    decodeInput_eq_inByte_iff.mpr rfl, rfl, rfl, decodeSink_eq_sinkAcc_iff.mpr rfl, rfl, rfl⟩

end Sys2Proof.Machine
end

section
/-! PROOF. The statements of 40_register_access.md: REGRD answers with the selected register (R120), REGWR stores a configuration register in IDLE and
records REG_LOCKED elsewhere (R121 to R123), a read gives what the write before it stored (R124),
and outside IDLE the configuration stands until a reset (R122). -/

namespace Sys2Proof.Machine

open Sys2Proof.Spec

/-! ### The register a request selects -/

/-- The byte offset of a register (R21). -/
def Reg.addr : Reg → BitVec 8
  | .ctrl => 0x00
  | .frameGeom => 0x04
  | .surfGeom => 0x08
  | .surfStride => 0x0C
  | .surfBpp => 0x10
  | .chanLayout => 0x14
  | .pixfmt => 0x18
  | .arg0 => 0x20
  | .arg1 => 0x24
  | .arg2 => 0x28
  | .arg3 => 0x2C
  | .cmd => 0x30
  | .resRgb => 0x34
  | .resPix => 0x38
  | .status => 0x3C
  | .cmdErr => 0x40
  | .decodeCount => 0x44
  | .fillLevel => 0x48

@[simp] theorem selectReg_addr (r : Reg) : selectReg 2 r.addr = some r := by
  cases r <;> rfl

theorem regOfIndex_eq_some {idx : BitVec 6} {r : Reg} (h : regOfIndex idx = some r) : idx ++ (0 : BitVec 2) = r.addr := by
  revert idx
  cases r <;> decide

/-- A register is reached by its own offset only, as a word (R92, R100). -/
theorem selectReg_eq_some_iff {size : BitVec 2} {addr : BitVec 8} {r : Reg} :
    selectReg size addr = some r ↔ size = 2 ∧ addr = r.addr := by
  constructor
  · intro h
    obtain ⟨hsize, idx, hidx, rfl⟩ := selectReg_eq_some h
    exact ⟨hsize, regOfIndex_eq_some hidx⟩
  · rintro ⟨rfl, rfl⟩
    exact selectReg_addr r

theorem regOfIndex_eq_none_iff : ∀ idx : BitVec 6, regOfIndex idx = none ↔ idx.toNat = 7 ∨ 19 ≤ idx.toNat := by decide

/-- No register is reached exactly where R237 gives BUSERR. -/
theorem selectReg_eq_none_iff {size : BitVec 2} {addr : BitVec 8} : selectReg size addr = none ↔ malformed size addr := by
  have hlow : addr.extractLsb' 0 2 = 0 ↔ addr.toNat % 4 = 0 := by
    simp [← BitVec.toNat_inj, BitVec.extractLsb'_toNat]
  have hindex : (addr.extractLsb' 2 6).toNat = addr.toNat / 4 := by
    have := addr.isLt
    simp only [BitVec.extractLsb'_toNat, Nat.shiftRight_eq_div_pow]
    omega
  unfold selectReg
  split
  · rename_i hlegal
    obtain ⟨hsize, haligned⟩ := hlegal
    rw [hlow] at haligned
    rw [regOfIndex_eq_none_iff, hindex]
    constructor
    · intro hreserved
      exact .inr (.inr (by omega))
    · rintro (hne | hne | hreserved)
      · exact absurd hsize hne
      · exact absurd haligned hne
      · omega
  · rename_i hillegal
    rw [hlow] at hillegal
    refine iff_of_true rfl ?_
    by_cases hsize : size = 2
    · exact .inr (.inl fun haligned => hillegal ⟨hsize, haligned⟩)
    · exact .inl hsize

/-! ### What a register reads as -/

theorem State.exitOk_eq (s : State) : s.exitOk = decide (s.phase = .terminated) := rfl

theorem State.done_eq (s : State) : s.done = decide (s.phase = .terminated ∨ s.phase = .error) := by
  rw [Bool.decide_or]
  rfl

/-- STATUS is the sum of its fields at their places (R34, R120). -/
theorem State.statusWord_eq (s : State) : s.statusWord = BitVec.ofNat 32 (statusValue s) := by
  apply BitVec.eq_of_toNat_eq
  have hcause := s.cfgErr.code.isLt
  have hphase := s.phase.code.isLt
  have hexit := Bool.toNat_le (decide (s.phase = .terminated))
  have hdone := Bool.toNat_le (decide (s.phase = .terminated ∨ s.phase = .error))
  have hterm := Bool.toNat_le s.termCause
  have hvalid := Bool.toNat_le s.fbValid
  have htee := Bool.toNat_le s.teeActive
  simp only [State.statusWord, statusValue, State.exitOk_eq, State.done_eq, toNat_append_eq_add, BitVec.toNat_ofBool, BitVec.ofNat_eq_ofNat,
    BitVec.toNat_ofNat]
  omega

/-- CMD_ERR is the sum of its two fields at their places (R35). -/
theorem State.cmdErrWord_eq (s : State) : s.cmdErrWord = BitVec.ofNat 32 (cmdErrValue s) := by
  apply BitVec.eq_of_toNat_eq
  have hcause := s.cmdErrCause.code.isLt
  have hcode := s.cmdErrCode.code.isLt
  simp only [State.cmdErrWord, cmdErrValue, toNat_append_eq_add, BitVec.ofNat_eq_ofNat, BitVec.toNat_ofNat]
  omega

/-- A register reads as the register map gives for its offset (R21). -/
theorem State.readReg_eq_readTable (s : State) (r : Reg) : s.readReg r = readTable s r.addr.toNat := by
  cases r with
  | status => exact s.statusWord_eq
  | cmdErr => exact s.cmdErrWord_eq
  | ctrl | frameGeom | surfGeom | surfStride | surfBpp | chanLayout | pixfmt | arg0 | arg1 | arg2 | arg3 | cmd | resRgb | resPix
  | decodeCount | fillLevel => rfl

/-- The response of a transaction is in no register. -/
@[simp] theorem State.readReg_respond (s : State) (b : BusResponse) (r : Reg) : (s.respond b).readReg r = s.readReg r := by
  cases r <;> rfl

theorem exec_regrd_addr (r : Reg) (s : State) : exec (.regrd 2 r.addr) s = .next (s.respond (.read .okay (s.readReg r))) := by
  simp only [exec, execRegrd, selectReg_addr]

theorem exec_regrd_malformed {size : BitVec 2} {addr : BitVec 8} (h : malformed size addr) (s : State) :
    exec (.regrd size addr) s = .next (s.respond (.read .busErr 0)) := by
  simp only [exec, execRegrd, selectReg_eq_none_iff.mpr h]

/-- Settles O1: a request is malformed, or it is for a register by its offset. -/
theorem regrdReturnsSelectedRegister : Obligations.RegrdReturnsSelectedRegister := by
  unfold Obligations.RegrdReturnsSelectedRegister
  intro size addr s
  by_cases h : malformed size addr
  · rw [if_pos h]
    exact exec_regrd_malformed h s
  · obtain ⟨r, hr⟩ := Option.ne_none_iff_exists'.mp fun hnone => h (selectReg_eq_none_iff.mp hnone)
    obtain ⟨rfl, rfl⟩ := selectReg_eq_some_iff.mp hr
    rw [if_neg h, ← State.readReg_eq_readTable]
    exact exec_regrd_addr r s

/-! ### What a register write does -/

theorem exec_regwr_addr {r : Reg} (hcmd : r ≠ .cmd) (d : Word) (s : State) :
    exec (.regwr 2 r.addr d) s = finish (s.writeReg r d) := by
  simp only [exec, execRegwr, selectReg_addr, if_neg hcmd]

/-- A write that no lock stops is stored (R121). -/
theorem exec_regwr_stored {r : Reg} (hcmd : r ≠ .cmd) {s : State} (hfree : r.isConfig = false ∨ s.phase = .idle) (d : Word) :
    exec (.regwr 2 r.addr d) s = .next (okay (s.storeReg r d)) := by
  have hwrite : s.writeReg r d = s.storeReg r d :=
    if_neg fun ⟨hconfig, hbusy⟩ => hfree.elim (fun hother => nomatch hother.symm.trans hconfig) hbusy
  rw [exec_regwr_addr hcmd, hwrite]
  rfl

/-- A configuration register is not CMD, so a write to it runs no command. -/
theorem Reg.ne_cmd_of_isConfig {r : Reg} (h : r.isConfig = true) : r ≠ .cmd := by
  rintro rfl
  cases h

/-- A locked write records REG_LOCKED and stores nothing (R122). -/
theorem exec_regwr_locked {r : Reg} (hconfig : r.isConfig = true) {s : State} (hbusy : s.phase ≠ .idle) (d : Word) :
    exec (.regwr 2 r.addr d) s = .next (withError .regLocked .noCause s) := by
  have hwrite : s.writeReg r d = s.raiseCmdError .regLocked .noCause := if_pos ⟨hconfig, hbusy⟩
  rw [exec_regwr_addr (Reg.ne_cmd_of_isConfig hconfig), hwrite]
  exact commandError_eq_withError .regLocked .noCause s

theorem isConfig_of_mem_offsets {addr : BitVec 8} (h : addr ∈ ([0x00, 0x04, 0x08, 0x0C, 0x10, 0x14, 0x18] : List (BitVec 8))) :
    ∃ r : Reg, r.isConfig = true ∧ addr = r.addr := by
  simp only [List.mem_cons, List.not_mem_nil, or_false] at h
  rcases h with rfl | rfl | rfl | rfl | rfl | rfl | rfl
  · exact ⟨.ctrl, rfl, rfl⟩
  · exact ⟨.frameGeom, rfl, rfl⟩
  · exact ⟨.surfGeom, rfl, rfl⟩
  · exact ⟨.surfStride, rfl, rfl⟩
  · exact ⟨.surfBpp, rfl, rfl⟩
  · exact ⟨.chanLayout, rfl, rfl⟩
  · exact ⟨.pixfmt, rfl, rfl⟩

/-- A mask of all bits stores the data as it is. -/
theorem and_fullMask (d : Word) : d &&& 0xFFFFFFFF = d := BitVec.and_allOnes

/-- Settles O3: in IDLE no register is locked, so each write is what `storeReg` stores. -/
theorem regwrStoresConfigurationInIdle : Obligations.RegwrStoresConfigurationInIdle := by
  unfold Obligations.RegwrStoresConfigurationInIdle
  intro d s hidle
  have hstored : ∀ {r : Reg} {t : State}, r.isConfig = true → s.storeReg r d = t → exec (.regwr 2 r.addr d) s = .next (okay t) := by
    rintro r t hconfig rfl
    exact exec_regwr_stored (Reg.ne_cmd_of_isConfig hconfig) (.inr hidle) d
  exact ⟨hstored (r := .ctrl) rfl rfl,
    hstored (r := .frameGeom) rfl (congrArg (fun v => { s with frameGeom := v }) (and_fullMask d)),
    hstored (r := .surfGeom) rfl (congrArg (fun v => { s with surfGeom := v }) (and_fullMask d)),
    hstored (r := .surfStride) rfl (congrArg (fun v => { s with surfStride := v }) (and_fullMask d)),
    hstored (r := .surfBpp) rfl rfl, hstored (r := .chanLayout) rfl rfl, hstored (r := .pixfmt) rfl rfl⟩

/-- Settles O4: each of the offsets is a configuration register's, and the write is a locked one. -/
theorem regwrConfigurationLockedOutsideIdle : Obligations.RegwrConfigurationLockedOutsideIdle := by
  unfold Obligations.RegwrConfigurationLockedOutsideIdle
  intro d s hbusy addr haddr
  obtain ⟨r, hconfig, rfl⟩ := isConfig_of_mem_offsets haddr
  exact exec_regwr_locked hconfig hbusy d

/-! ### A read after a write -/

/-- What a write stores under the mask is what the register reads as (R121, R123); a register that stores nothing has mask 0. -/
theorem State.readReg_storeReg {r : Reg} (hmask : r.wmask ≠ 0) (s : State) (d : Word) : (s.storeReg r d).readReg r = d &&& r.wmask := by
  cases r with
  | ctrl | frameGeom | surfGeom | surfStride | surfBpp | chanLayout | pixfmt => rfl
  | arg0 | arg1 | arg2 | arg3 => exact (and_fullMask d).symm
  | cmd | resRgb | resPix | status | cmdErr | decodeCount | fillLevel => exact absurd rfl hmask

/-- The mask of a register that a write stores to is that of R123's table. -/
theorem Reg.maskTable_addr {r : Reg} (hmask : r.wmask ≠ 0) : maskTable r.addr.toNat = r.wmask := by
  cases r with
  | cmd | resRgb | resPix | status | cmdErr | decodeCount | fillLevel => exact absurd rfl hmask
  | ctrl | frameGeom | surfGeom | surfStride | surfBpp | chanLayout | pixfmt | arg0 | arg1 | arg2 | arg3 => rfl

theorem Reg.wmask_ne_zero_of_isConfig {r : Reg} (h : r.isConfig = true) : r.wmask ≠ 0 := by
  cases r with
  | ctrl | frameGeom | surfGeom | surfStride | surfBpp | chanLayout | pixfmt => decide
  | arg0 | arg1 | arg2 | arg3 | cmd | resRgb | resPix | status | cmdErr | decodeCount | fillLevel => cases h

theorem arg_of_mem_offsets {addr : BitVec 8} (h : addr ∈ ([0x20, 0x24, 0x28, 0x2C] : List (BitVec 8))) :
    ∃ r : Reg, r.isConfig = false ∧ r.wmask ≠ 0 ∧ addr = r.addr := by
  simp only [List.mem_cons, List.not_mem_nil, or_false] at h
  rcases h with rfl | rfl | rfl | rfl
  · exact ⟨.arg0, rfl, by decide, rfl⟩
  · exact ⟨.arg1, rfl, by decide, rfl⟩
  · exact ⟨.arg2, rfl, by decide, rfl⟩
  · exact ⟨.arg3, rfl, by decide, rfl⟩

/-- A write that no lock stops, to a register that stores it, and then a read of that register (R124). -/
theorem exec_regwr_then_regrd {r : Reg} (hmask : r.wmask ≠ 0) {s : State} (hfree : r.isConfig = false ∨ s.phase = .idle) (d : Word) :
    ∃ t u, exec (.regwr 2 r.addr d) s = .next t ∧ exec (.regrd 2 r.addr) t = .next u ∧
      u.lastResp = some (.read .okay (d &&& maskTable r.addr.toNat)) := by
  have hcmd : r ≠ .cmd := by
    rintro rfl
    exact hmask rfl
  have hread : (okay (s.storeReg r d)).readReg r = d &&& maskTable r.addr.toNat :=
    calc (okay (s.storeReg r d)).readReg r = (s.storeReg r d).readReg r := (s.storeReg r d).readReg_respond _ r
      _ = d &&& r.wmask := s.readReg_storeReg hmask d
      _ = d &&& maskTable r.addr.toNat := by rw [Reg.maskTable_addr hmask]
  exact ⟨_, _, exec_regwr_stored hcmd hfree d, exec_regrd_addr r _, by rw [hread, State.respond_lastResp]⟩

/-- Settles O6: a configuration register in IDLE, or an ARG register, which no STATE locks. -/
theorem readAfterWriteReturnsMaskedValue : Obligations.ReadAfterWriteReturnsMaskedValue := by
  unfold Obligations.ReadAfterWriteReturnsMaskedValue
  rintro addr d s (⟨haddr, hidle⟩ | haddr)
  · obtain ⟨r, hconfig, rfl⟩ := isConfig_of_mem_offsets haddr
    exact exec_regwr_then_regrd (Reg.wmask_ne_zero_of_isConfig hconfig) (.inr hidle) d
  · obtain ⟨r, hother, hmask, rfl⟩ := arg_of_mem_offsets haddr
    exact exec_regwr_then_regrd hmask (.inl hother) d

/-! ### The configuration outside IDLE -/

theorem sameConfig_refl (s : State) : sameConfig s s := ⟨rfl, rfl, rfl, rfl, rfl, rfl, rfl⟩

/-- A surface-writing command keeps the configuration if what it does besides its writes does. -/
theorem surfaceCommand_sameConfig {err : Option (CmdErrCode × CfgCause)} {ws : Except Fault (List SurfWrite)} {done : State → State}
    (hdone : ∀ u, sameConfig u (done u)) {s t : State} (h : surfaceCommand err ws done s = .next t) : sameConfig s t := by
  rcases surfaceCommand_next h with ⟨c, k, -, rfl⟩ | ⟨l, -, -, rfl⟩
  · simp [sameConfig]
  · exact hdone ((s.writeSurface l).completeCommand l)

/-- No command changes a configuration register, in any STATE. -/
theorem runCommand_sameConfig {c : Command} {s t : State} (h : runCommand c s = .next t) : sameConfig s t := by
  cases c with
  | cvt => rcases execCvt_next h with ⟨-, rfl⟩ | ⟨-, rfl⟩ <;> simp [sameConfig]
  | wrpix | fill => exact surfaceCommand_sameConfig sameConfig_refl h
  | decode => exact surfaceCommand_sameConfig (done := State.countDecode) sameConfig_refl h
  | start => rcases execStart_next h with ⟨-, rfl⟩ | ⟨-, -, rfl⟩ | ⟨-, -, rfl⟩ <;> simp [sameConfig]

theorem State.storeReg_sameConfig (s : State) {r : Reg} (h : r.isConfig = false) (d : Word) : sameConfig s (s.storeReg r d) := by
  cases r with
  | ctrl | frameGeom | surfGeom | surfStride | surfBpp | chanLayout | pixfmt => cases h
  | arg0 | arg1 | arg2 | arg3 | cmd | resRgb | resPix | status | cmdErr | decodeCount | fillLevel => exact sameConfig_refl s

/-- The lock (R122): outside IDLE a register write changes no configuration register. -/
theorem State.writeReg_sameConfig {s : State} (hbusy : s.phase ≠ .idle) (r : Reg) (d : Word) : sameConfig s (s.writeReg r d) := by
  rcases s.writeReg_cases r d with ⟨-, -, e⟩ | ⟨hfree, e⟩ <;> rw [e]
  · simp [sameConfig]
  · exact s.storeReg_sameConfig (hfree.resolve_right hbusy) d

theorem execRegwr_sameConfig {size : BitVec 2} {addr : BitVec 8} {data : Word} {s t : State} (hbusy : s.phase ≠ .idle)
    (h : execRegwr size addr data s = .next t) : sameConfig s t := by
  rcases execRegwr_next h with rfl | ⟨r, -, rfl⟩ | hcmd
  · exact sameConfig_refl s
  · exact State.writeReg_sameConfig hbusy r data
  · rcases runCommandWord_next hcmd with ⟨e, -, rfl | rfl⟩ | ⟨c, -, hc⟩
    · simp [sameConfig]
    · simp [sameConfig]
    · exact runCommand_sameConfig hc

theorem execInByte_sameConfig {d : Byte} {s t : State} (h : execInByte d s = .next t) : sameConfig s t := by
  rcases execInByte_next h with ⟨-, rfl⟩ | ⟨-, -, ⟨-, rfl⟩ | ⟨-, rfl⟩⟩ <;> simp [sameConfig]

theorem execSinkAcc_sameConfig {n : Word} {s t : State} (h : execSinkAcc n s = .next t) : sameConfig s t := by
  rcases execSinkAcc_next h with ⟨-, rfl⟩ | ⟨-, -, rfl⟩ | ⟨bs, -, -, -, -, rfl⟩ <;> simp [sameConfig]

/-- Outside IDLE no instruction changes a configuration register (R122). -/
theorem exec_sameConfig {i : Instr} {s t : State} (hbusy : s.phase ≠ .idle) (h : exec i s = .next t) : sameConfig s t := by
  cases i with
  | regrd size addr => obtain ⟨r, rfl⟩ := execRegrd_next h; exact sameConfig_refl s
  | regwr size addr data => exact execRegwr_sameConfig hbusy h
  | cvt => exact runCommand_sameConfig (c := .cvt) h
  | wrpix => exact runCommand_sameConfig (c := .wrpix) h
  | fill => exact runCommand_sameConfig (c := .fill) h
  | decode => exact runCommand_sameConfig (c := .decode) h
  | start => exact runCommand_sameConfig (c := .start) h
  | inByte d => exact execInByte_sameConfig h
  | inEos => simp only [exec, execInEos] at h; split at h <;> cases h <;> exact sameConfig_refl s
  | inErr => simp only [exec, execInErr] at h; split at h <;> cases h <;> exact sameConfig_refl s
  | sinkAcc n => exact execSinkAcc_sameConfig h
  | sinkFail => simp only [exec, execSinkFail] at h; split at h <;> cases h <;> simp [sameConfig]
  | sinkClosed => simp only [exec, execSinkClosed] at h; split at h <;> cases h <;> exact sameConfig_refl s

theorem decodeStep_sameConfig {s t : State} (h : decodeStep s = .next t) : sameConfig s t := by
  rcases decodeStep_next h with ⟨-, rfl⟩ | ⟨w, -, -, rfl⟩ <;> simp [sameConfig]

theorem lowerSurfReady_sameConfig {s t : State} (h : lowerSurfReady s = .next t) : sameConfig s t := by
  obtain ⟨rfl, -⟩ := lowerSurfReady_next h
  exact sameConfig_refl s

/-- Outside IDLE an agent's turn that is no reset changes no configuration register. -/
theorem runTurn_sameConfig {turn : Turn} {s t : State} (hbusy : s.phase ≠ .idle) (hturn : turn.isReset = false)
    (h : runTurn turn s = .next t) : sameConfig s t := by
  cases turn with
  | host =>
    rcases hostTurn_next h with ⟨-, rfl⟩ | ⟨r, q, -, he⟩
    · exact sameConfig_refl t
    · exact exec_sameConfig (s := s.takeRequest _ q) hbusy he
  | hostSurfLost =>
    rcases hostTurnSurfLost_next h with ⟨-, hl⟩ | ⟨r, q, u, -, -, he, hl⟩
    · exact lowerSurfReady_sameConfig hl
    · have hexec : sameConfig s u := exec_sameConfig (s := s.takeRequest _ q) hbusy he
      obtain ⟨rfl, -⟩ := lowerSurfReady_next hl
      exact hexec
  | producer =>
    rcases producerTurn_next h with rfl | ⟨w, q, -, -, he⟩
    · exact sameConfig_refl t
    · exact exec_sameConfig (s := { s with inQ := q }) hbusy he
  | sink =>
    rcases sinkTurn_next h with rfl | ⟨w, q, i, -, -, -, he⟩
    · exact sameConfig_refl t
    · exact exec_sameConfig (s := { s with sinkQ := q }) hbusy he
  | walk => exact decodeStep_sameConfig h
  | surfReady level =>
    cases level with
    | true => cases h; exact sameConfig_refl s
    | false => exact lowerSurfReady_sameConfig h
  | readSurface n | readAfterPoll n | readAfterCommand n => cases h; exact sameConfig_refl s
  | reset | resetDuring n => cases hturn

/-- Settles O57: with no turn left nothing changes, and no agent's turn but a reset reaches a locked register. -/
theorem configurationConstantUntilReset : Obligations.ConfigurationConstantUntilReset := by
  unfold Obligations.ConfigurationConstantUntilReset
  intro s t h hbusy hreset
  rcases step_next h with ⟨-, rfl⟩ | ⟨turn, rest, hturns, hr⟩
  · exact sameConfig_refl t
  · exact runTurn_sameConfig (s := { s with turns := rest }) hbusy (hreset turn (by simp [hturns])) hr

end Sys2Proof.Machine
end

section
/-! PROOF. The statements of 41_color_converter.md: the ranges of the conversion's sums (R143), the layout check (R145), CVT for each surface format
(R146, R147), and the frame walk's use of the same converter (R148). -/

namespace Sys2Proof.Machine

open Sys2Proof.Spec

/-! ### The conversion's sums -/

theorem sumR_range (y u : Byte) : -70688 ≤ sumR y u ∧ sumR y u ≤ 136882 := by
  unfold sumR
  omega

theorem sumG_range (y u v : Byte) : -43756 ≤ sumG y u v ∧ sumG y u v ≤ 110774 := by
  unfold sumG
  omega

theorem sumB_range (y v : Byte) : -56992 ≤ sumB y v ∧ sumB y v ≤ 123293 := by
  unfold sumB
  omega

/-- A negative number saturates to 0 (R142). -/
theorem clamp0_255_of_neg {v : Int} (h : v < 0) : clamp0_255 v = 0 := if_pos h

theorem clamp0_255_of_nonpos {v : Int} (h : v ≤ 0) : clamp0_255 v = 0 := by
  rcases h.lt_or_eq with hneg | rfl
  · exact clamp0_255_of_neg hneg
  · rfl

/-- The kind of shift does not show in a channel (R143): the two quotients differ only below 0, where both saturate to 0. -/
theorem clamp0_255_ediv_eq_tdiv (x : Int) : clamp0_255 (x / 256) = clamp0_255 (x.tdiv 256) := by
  rcases lt_or_ge x 0 with hneg | hnonneg
  · have htrunc : 0 ≤ (-x).tdiv 256 := Int.tdiv_nonneg (by omega) (by omega)
    rw [Int.neg_tdiv] at htrunc
    rw [clamp0_255_of_nonpos (by omega : x / 256 ≤ 0), clamp0_255_of_nonpos (by omega : x.tdiv 256 ≤ 0)]
  · rw [Int.tdiv_eq_ediv_of_nonneg hnonneg]

/-- Settles O9: the ranges by the samples' bounds, each end at samples of 0 or 255. -/
theorem sumsInRangeAndShiftNotObservable : Obligations.SumsInRangeAndShiftNotObservable := by
  unfold Obligations.SumsInRangeAndShiftNotObservable
  refine ⟨fun y u v => ⟨sumR_range y u, sumG_range y u v, sumB_range y v, fun x hx => ?_⟩,
    ⟨0, 0, by decide⟩, ⟨255, 255, by decide⟩, ⟨0, 255, 255, by decide⟩, ⟨255, 0, 0, by decide⟩, ⟨0, 0, by decide⟩, ⟨255, 255, by decide⟩⟩
  obtain ⟨hlow, hhigh⟩ : -2 ^ 18 ≤ x ∧ x < 2 ^ 18 := by
    have hr := sumR_range y u
    have hg := sumG_range y u v
    have hb := sumB_range y v
    simp only [List.mem_cons, List.not_mem_nil, or_false] at hx
    rcases hx with rfl | rfl | rfl <;> omega
  exact ⟨hlow, hhigh, clamp0_255_ediv_eq_tdiv x, fun hneg => clamp0_255_of_neg (by omega)⟩

/-! ### The layout check -/

/-- A channel's mask has exactly the bits of the channel's range (R145). -/
theorem testBit_layoutMask (layout : Word) (c k : Nat) :
    (layoutMask layout c).testBit k = decide (layoutOff layout c ≤ k ∧ k < layoutOff layout c + layoutBits layout c) := by
  rw [layoutMask, Nat.testBit_mul_two_pow, Nat.testBit_two_pow_sub_one, ← Bool.decide_and, decide_eq_decide]
  omega

/-- The masks of two channels that have a bit each are disjoint exactly when their bit ranges are. -/
theorem layoutMask_and_eq_zero_iff {layout : Word} {c d : Nat} (hc : 1 ≤ layoutBits layout c) (hd : 1 ≤ layoutBits layout d) :
    layoutMask layout c &&& layoutMask layout d = 0 ↔
      layoutOff layout c + layoutBits layout c ≤ layoutOff layout d ∨ layoutOff layout d + layoutBits layout d ≤ layoutOff layout c := by
  have hbit : ∀ k, (layoutMask layout c &&& layoutMask layout d).testBit k = true ↔
      (layoutOff layout c ≤ k ∧ k < layoutOff layout c + layoutBits layout c) ∧
        layoutOff layout d ≤ k ∧ k < layoutOff layout d + layoutBits layout d := fun k => by
    rw [Nat.testBit_and, testBit_layoutMask, testBit_layoutMask, Bool.and_eq_true, decide_eq_true_iff, decide_eq_true_iff]
  constructor
  · intro hzero
    have hoffc := hbit (layoutOff layout c)
    have hoffd := hbit (layoutOff layout d)
    simp only [hzero, Nat.zero_testBit, Bool.false_eq_true, false_iff] at hoffc hoffd
    omega
  · intro hapart
    refine Nat.eq_of_testBit_eq fun k => ?_
    rw [Nat.zero_testBit, Bool.eq_false_iff, ne_eq, hbit]
    omega

theorem channelOK_iff (layout : Word) (c : Nat) :
    channelOK layout c = true ↔
      1 ≤ layoutBits layout c ∧ layoutBits layout c ≤ 8 ∧ layoutOff layout c + layoutBits layout c ≤ 16 := by
  simp only [channelOK, Bool.and_eq_true, decide_eq_true_eq, and_assoc]

/-- The check channel by channel and pair by pair (R145). -/
theorem layoutOK_iff (layout : Word) :
    layoutOK layout = true ↔
      (∀ c, c < 3 → channelOK layout c = true) ∧
      (∀ c d, c < d → d < 3 → layoutMask layout c &&& layoutMask layout d = 0) := by
  simp only [layoutOK, Bool.and_eq_true, beq_iff_eq]
  constructor
  · rintro ⟨⟨⟨⟨⟨hr, hg⟩, hb⟩, hrg⟩, hrb⟩, hgb⟩
    refine ⟨fun c hc => ?_, fun c d hcd hd => ?_⟩
    · interval_cases c <;> assumption
    · interval_cases d <;> interval_cases c <;> assumption
  · rintro ⟨hchannel, hmasks⟩
    exact ⟨⟨⟨⟨⟨hchannel 0 (by omega), hchannel 1 (by omega)⟩, hchannel 2 (by omega)⟩, hmasks 0 1 (by omega) (by omega)⟩,
      hmasks 0 2 (by omega) (by omega)⟩, hmasks 1 2 (by omega) (by omega)⟩

/-- Settles O13: the check per channel and pair, with disjoint masks read as disjoint bit ranges. -/
theorem layoutOkIffChannelsDisjoint : Obligations.LayoutOkIffChannelsDisjoint := by
  unfold Obligations.LayoutOkIffChannelsDisjoint
  intro layout
  simp only [layoutOK_iff, channelOK_iff]
  refine and_congr_right fun hchannel => forall₄_congr fun c d hcd hd => ?_
  obtain ⟨hc, -⟩ := hchannel c (by omega)
  obtain ⟨hd', -⟩ := hchannel d hd
  exact layoutMask_and_eq_zero_iff hc hd'

/-! ### CVT -/

/-- `packCause()` is 0 exactly where a pixel can be packed (R146). -/
theorem State.packCause_eq_noCause_iff (s : State) :
    s.packCause = .noCause ↔ s.bpp = 32 ∨ (s.bpp = 16 ∧ layoutOK s.chanLayout = true) := by
  unfold State.packCause
  split
  next hbpp => simp [hbpp]
  next hbpp =>
    split
    next hlayout => simp [hlayout]
    next hlayout =>
      simp only [Bool.eq_false_iff, ne_eq] at hlayout
      simp only [true_iff]
      tauto

theorem State.argY_toNat (s : State) : s.argY.toNat = s.arg0.toNat % 256 := by
  simp [State.argY, BitVec.extractLsb'_toNat]

theorem State.argU_toNat (s : State) : s.argU.toNat = s.arg0.toNat / 256 % 256 := by
  simp [State.argU, BitVec.extractLsb'_toNat, Nat.shiftRight_eq_div_pow]

theorem State.argV_toNat (s : State) : s.argV.toNat = s.arg0.toNat / 65536 % 256 := by
  simp [State.argV, BitVec.extractLsb'_toNat, Nat.shiftRight_eq_div_pow]

/-- CVT where a pixel can be packed: the 32-bit triple and the surface's pixel of ARG0's samples (R147). -/
theorem exec_cvt_of_packable {s : State} (h : s.bpp = 32 ∨ (s.bpp = 16 ∧ layoutOK s.chanLayout = true)) :
    exec .cvt s = .next (okay { s with
      resRgb := rgb32 (s.arg0.toNat % 256) (s.arg0.toNat / 256 % 256) (s.arg0.toNat / 65536 % 256)
      resPix := pixelOf s (s.arg0.toNat % 256) (s.arg0.toNat / 256 % 256) (s.arg0.toNat / 65536 % 256) }) := by
  have hrgb : pack32 s.cvtRgb = rgb32 s.argY.toNat s.argU.toNat s.argV.toNat := by
    rw [State.cvtRgb, pack32_eq_ofNat, convert_r_toNat, convert_g_toNat, convert_b_toNat, rgb32]
  have hpix : s.pack s.cvtRgb = pixelOf s s.argY.toNat s.argU.toNat s.argV.toNat := State.pack_convert h _ _ _
  rw [← s.argY_toNat, ← s.argU_toNat, ← s.argV_toNat, ← hrgb, ← hpix]
  exact if_neg (not_not.mpr (s.packCause_eq_noCause_iff.mpr h))

/-- CVT where no pixel can be packed: BAD_CONFIG with the failing check's cause (R147, R236). -/
theorem exec_cvt_of_packCause {s : State} (h : s.packCause ≠ .noCause) :
    exec .cvt s = .next (withError .badConfig s.packCause s) :=
  (if_pos h).trans (commandError_eq_withError _ _ s)

/-- Settles O10. -/
theorem cvtPacksFor32BitSurface : Obligations.CvtPacksFor32BitSurface := by
  unfold Obligations.CvtPacksFor32BitSurface
  intro s hbpp
  rw [exec_cvt_of_packable (.inl hbpp), pixelOf, if_pos hbpp]

/-- Settles O11. -/
theorem cvtPacksFor16BitSurface : Obligations.CvtPacksFor16BitSurface := by
  unfold Obligations.CvtPacksFor16BitSurface
  intro s hbpp hlayout
  rw [exec_cvt_of_packable (.inr ⟨hbpp, hlayout⟩), pixelOf, if_neg (by omega)]

/-- Settles O12: the two causes `packCause()` can give, by R146's checks in order. -/
theorem cvtRejectsUnpackableConfiguration : Obligations.CvtRejectsUnpackableConfiguration := by
  unfold Obligations.CvtRejectsUnpackableConfiguration
  intro s
  constructor
  · intro h16 h32
    have hcause : s.packCause = .badSurface := if_pos ⟨h16, h32⟩
    rw [exec_cvt_of_packCause (by simp [hcause]), hcause]
  · intro h16 hlayout
    have hcause : s.packCause = .badLayout := by
      rw [State.packCause, if_neg (by omega), if_pos ⟨h16, hlayout⟩]
    rw [exec_cvt_of_packCause (by simp [hcause]), hcause]

/-! ### The walk and CVT -/

/-- ARG0 as the number of its three samples (R96). -/
theorem sampleWord_toNat (y u v : Byte) :
    ((0 : BitVec 8) ++ v ++ u ++ y).toNat = v.toNat * 65536 + u.toNat * 256 + y.toNat := by
  have htop : (0 : BitVec 8).toNat = 0 := rfl
  simp only [toNat_append_eq_add, htop]
  omega

/-- ARG0 made of three samples gives CVT those samples (R96). -/
theorem State.cvtRgb_of_samples {s : State} {y u v : Byte} (h : s.arg0 = (0 : BitVec 8) ++ v ++ u ++ y) :
    s.cvtRgb = convert y u v := by
  have harg := sampleWord_toNat y u v
  rw [← h] at harg
  have hy : s.argY = y := BitVec.eq_of_toNat_eq (by rw [s.argY_toNat]; omega)
  have hu : s.argU = u := BitVec.eq_of_toNat_eq (by rw [s.argU_toNat]; omega)
  have hv : s.argV = v := BitVec.eq_of_toNat_eq (by rw [s.argV_toNat]; omega)
  rw [State.cvtRgb, hy, hu, hv]

/-- Settles O26: both results are `pack` of the same converted samples; changing ARG0 changes neither `packCause()` nor `pack`. -/
theorem walkAndCvtConvertAlike : Obligations.WalkAndCvtConvertAlike := by
  unfold Obligations.WalkAndCvtConvertAlike
  intro s t i j y u v w hy hu hv hwrite hcause hcvt
  obtain ⟨y', u', v', hy', hu', hv', hpixel⟩ := decodePixel_ok hwrite
  obtain rfl : y = y' := Except.ok.inj (hy.symm.trans hy')
  obtain rfl : u = u' := Except.ok.inj (hu.symm.trans hu')
  obtain rfl : v = v' := Except.ok.inj (hv.symm.trans hv')
  obtain ⟨-, -, rfl⟩ := pixelWrite_ok hpixel
  rcases execCvt_next hcvt with ⟨hbad, -⟩ | ⟨-, rfl⟩
  · exact absurd hcause hbad
  · exact congrArg s.pack (State.cvtRgb_of_samples rfl)

end Sys2Proof.Machine
end

section
/-! PROOF. The statements of 42_surface_addresser.md: the pixels of a surface that passes its check (R160, R163), what WRPIX and FILL write and in
which order (R164, R165), their errors and their fault (R162, R235), and the round trip of a pixel (R166). -/

namespace Sys2Proof.Machine

open Sys2Proof.Spec

/-! ### The pixels of a surface that passes -/

/-- A surface that passes its check has rows of whole pixels (R163). -/
theorem State.stride_aligned {s : State} (h : s.surfCause = .noCause) : s.stride % s.bpb = 0 := by
  unfold State.surfCause at h
  repeat' (split at h; · cases h)
  omega

/-- A pixel begins at a multiple of BPB (R68): both parts of its offset are. -/
theorem State.pixelOffset_aligned {s : State} (h : s.surfCause = .noCause) (x y : Nat) : s.pixelOffset x y % s.bpb = 0 := by
  have hrow : s.bpb ∣ y * s.stride := (Nat.dvd_of_mod_eq_zero (State.stride_aligned h)).mul_left y
  exact Nat.mod_eq_zero_of_dvd (hrow.add (Nat.dvd_mul_left _ x))

/-- A pixel of the surface ends before the row after the last begins (R60, R163). -/
theorem State.pixel_within_surface {s : State} (h : s.surfCause = .noCause) {x y : Nat} (hx : x < s.sw) (hy : y < s.sh) :
    s.pixelOffset x y + s.bpb ≤ s.surfBytes :=
  calc s.pixelOffset x y + s.bpb ≤ s.pixelOffset 0 s.sh := State.pixelOffset_add_bpb_le h hx (.inl hy)
    _ = s.surfBytes := by rw [State.pixelOffset, State.surfBytes]; ring

/-- Settles O14. -/
theorem inBoundsPixelsAlignedAndDisjoint : Obligations.InBoundsPixelsAlignedAndDisjoint := by
  unfold Obligations.InBoundsPixelsAlignedAndDisjoint
  intro s x y x' y' hsurf hx hy hx' _
  obtain ⟨-, -, hspace⟩ := State.surface_fits hsurf
  exact ⟨State.pixelOffset_aligned hsurf x y, State.pixel_within_surface hsurf hx hy, hspace, State.pixels_disjoint hsurf hx hx'⟩

/-- Settles O20: the pixel's write is one of a list in which every other write is of a pixel disjoint from it. -/
theorem writtenPixelSurvivesOtherPixels : Obligations.WrittenPixelSurvivesOtherPixels := by
  unfold Obligations.WrittenPixelSurvivesOtherPixels
  intro s m x y v w later hsurf hw hlater k hk
  obtain ⟨hx, -, rfl⟩ := pixelWrite_ok hw
  rw [← applyWrites_cons]
  refine read_applyWrites_of_mem _ List.mem_cons_self (fun w' hw' => ?_) m hk
  rcases List.mem_cons.mp hw' with rfl | hw'
  · exact .inl rfl
  · obtain ⟨x', y', c, hne, hpixel⟩ := hlater w' hw'
    obtain ⟨hx', -, rfl⟩ := pixelWrite_ok hpixel
    exact .inr (State.pixels_disjoint hsurf hx hx' hne.symm)

/-! ### The operands -/

theorem bitField_low (v : Word) : bitField v 0 16 = v.toNat % 65536 := by
  simp [bitField, BitVec.extractLsb'_toNat]

theorem bitField_high (v : Word) : bitField v 16 16 = v.toNat / 65536 := by
  simp only [bitField, BitVec.extractLsb'_toNat, Nat.shiftRight_eq_div_pow]
  omega

theorem State.argX_eq (s : State) : s.argX = s.arg1.toNat % 65536 := bitField_low s.arg1
theorem State.argYPos_eq (s : State) : s.argYPos = s.arg1.toNat / 65536 := bitField_high s.arg1
theorem State.argW_eq (s : State) : s.argW = s.arg3.toNat % 65536 := bitField_low s.arg3
theorem State.argH_eq (s : State) : s.argH = s.arg3.toNat / 65536 := bitField_high s.arg3

/-- The bytes of COLOR are the low bytes of ARG2: on a 16-bit surface the cut at bit 16 is past both of them (R96, R164). -/
theorem State.imageByte_argColor (s : State) (e : Endian) {k : Nat} (hk : k < s.bpb) :
    imageByte e s.bpb s.argColor k = imageByte e s.bpb s.arg2 k := by
  unfold State.argColor
  split
  next hbpb =>
    have hlow : ∀ n, n < 2 → BitVec.ofNat 8 (((s.arg2.extractLsb' 0 16).setWidth 32).toNat / 2 ^ (8 * n)) =
        BitVec.ofNat 8 (s.arg2.toNat / 2 ^ (8 * n)) := fun n hn => by
      apply BitVec.eq_of_toNat_eq
      simp only [BitVec.toNat_ofNat, BitVec.toNat_setWidth, BitVec.extractLsb'_toNat, Nat.shiftRight_zero]
      interval_cases n <;> omega
    cases e with
    | little => exact hlow k (by omega)
    | big => exact hlow (s.bpb - 1 - k) (by omega)
  next => rfl

/-! ### The checks of WRPIX and FILL -/

/-- In IDLE and TERMINATED only the surface's check is left (R164). -/
theorem State.pixelCommandError_of_acceptsCommands {s : State} (h : s.acceptsCommands) :
    s.pixelCommandError = if s.surfCause ≠ .noCause then some (.badConfig, s.surfCause) else none :=
  if_neg fun ⟨hidle, hterm⟩ => h.elim hidle hterm

theorem State.pixelCommandError_eq_none {s : State} (hphase : s.acceptsCommands) (hsurf : s.surfCause = .noCause) :
    s.pixelCommandError = none :=
  (State.pixelCommandError_of_acceptsCommands hphase).trans (if_neg (not_not.mpr hsurf))

theorem State.pixelCommandError_badConfig {s : State} (hphase : s.acceptsCommands) (hsurf : s.surfCause ≠ .noCause) :
    s.pixelCommandError = some (.badConfig, s.surfCause) :=
  (State.pixelCommandError_of_acceptsCommands hphase).trans (if_pos hsurf)

theorem State.pixelCommandError_wrongState {s : State} (hidle : s.phase ≠ .idle) (hterm : s.phase ≠ .terminated) :
    s.pixelCommandError = some (.wrongState, .noCause) := if_pos ⟨hidle, hterm⟩

theorem exec_wrpix (s : State) : exec .wrpix s = surfaceCommand s.pixelCommandError (wrpixWrites s) (fun t => t) s := rfl

theorem exec_fill (s : State) : exec .fill s = surfaceCommand s.pixelCommandError (fillWrites s) (fun t => t) s := rfl

/-- The error that a surface-writing command's checks report is all that it then does (R95, R236). -/
theorem surfaceCommand_error (code : CmdErrCode) (cause : CfgCause) (ws : Except Fault (List SurfWrite)) (done : State → State)
    (s : State) : surfaceCommand (some (code, cause)) ws done s = .next (withError code cause s) :=
  commandError_eq_withError code cause s

/-- WRPIX and FILL report the errors of the same checks. -/
theorem exec_pixelCommand_error {i : Instr} (h : i = .wrpix ∨ i = .fill) {s : State} {code : CmdErrCode} {cause : CfgCause}
    (herr : s.pixelCommandError = some (code, cause)) : exec i s = .next (withError code cause s) := by
  rcases h with rfl | rfl
  · rw [exec_wrpix, herr, surfaceCommand_error]
  · rw [exec_fill, herr, surfaceCommand_error]

/-- Settles O19. -/
theorem pixelCommandErrorsInOrder : Obligations.PixelCommandErrorsInOrder := by
  unfold Obligations.PixelCommandErrorsInOrder
  intro s i hi
  exact ⟨fun hidle hterm => exec_pixelCommand_error hi (State.pixelCommandError_wrongState hidle hterm),
    fun hphase hsurf => exec_pixelCommand_error hi (State.pixelCommandError_badConfig hphase hsurf)⟩

/-! ### Out of bounds -/

theorem wrpixWrites_out_of_bounds {s : State} (h : s.sw ≤ s.argX ∨ s.sh ≤ s.argYPos) : wrpixWrites s = .error .surfaceOutOfBounds := by
  have hpixel : pixelWrite s s.argX s.argYPos s.argColor = .error .surfaceOutOfBounds := if_pos h
  rw [wrpixWrites, collectWrites, hpixel]

theorem fillWrites_out_of_bounds {s : State} (hw : 0 < s.argW) (hh : 0 < s.argH)
    (h : s.sw < s.argX + s.argW ∨ s.sh < s.argYPos + s.argH) : fillWrites s = .error .surfaceOutOfBounds := if_pos ⟨hw, hh, h⟩

/-- Settles O18: the checks pass, and the writes fault. -/
theorem outOfBoundsPixelsFault : Obligations.OutOfBoundsPixelsFault := by
  unfold Obligations.OutOfBoundsPixelsFault
  intro s hphase hsurf
  have hnone := State.pixelCommandError_eq_none hphase hsurf
  simp only [← s.argX_eq, ← s.argYPos_eq, ← s.argW_eq, ← s.argH_eq]
  constructor
  · intro hout
    rw [exec_wrpix, hnone, wrpixWrites_out_of_bounds hout, surfaceCommand]
  · intro hw hh hout
    rw [exec_fill, hnone, fillWrites_out_of_bounds hw hh hout, surfaceCommand]

/-! ### The writes of WRPIX and FILL -/

/-- The surface writes of COLOR at a list of pixels (R164, R165). -/
def State.colorWrites (s : State) (ps : List (Nat × Nat)) : List SurfWrite := ps.map fun p => pixelWriteOf s p.1 p.2 s.argColor

/-- At pixels of the surface the writes that `collectWrites` gives WRPIX and FILL are those of COLOR. -/
theorem collectWrites_color {s : State} {ps : List (Nat × Nat)} (h : ∀ p ∈ ps, p.1 < s.sw ∧ p.2 < s.sh) :
    collectWrites (fun x y => pixelWrite s x y s.argColor) ps = .ok (s.colorWrites ps) :=
  collectWrites_eq_ok (g := fun x y => pixelWriteOf s x y s.argColor) ps fun p hp =>
    pixelWrite_of_lt s.argColor (h p hp).1 (h p hp).2

theorem wrpixWrites_eq {s : State} (hx : s.argX < s.sw) (hy : s.argYPos < s.sh) :
    wrpixWrites s = .ok (s.colorWrites [(s.argX, s.argYPos)]) := collectWrites_color (by simp [hx, hy])

/-- The pixels of FILL's rectangle, in raster order (R165). -/
abbrev State.fillPixels (s : State) : List (Nat × Nat) := rasterPixels s.argX s.argYPos s.argW s.argH

/-- FILL's rectangle is empty or inside the surface (R165). -/
abbrev State.fillFits (s : State) : Prop := s.argW = 0 ∨ s.argH = 0 ∨ (s.argX + s.argW ≤ s.sw ∧ s.argYPos + s.argH ≤ s.sh)

theorem State.fillPixels_in_bounds {s : State} (h : s.fillFits) : ∀ p ∈ s.fillPixels, p.1 < s.sw ∧ p.2 < s.sh := fun p hp => by
  have hbounds := mem_rasterPixels.mp hp
  omega

theorem fillWrites_eq {s : State} (h : s.fillFits) : fillWrites s = .ok (s.colorWrites s.fillPixels) := by
  rw [fillWrites, if_neg (by omega)]
  exact collectWrites_color (State.fillPixels_in_bounds h)

/-! ### The order of the writes -/

theorem rasterPixels_succ (x y w h : Nat) :
    rasterPixels x y w (h + 1) = rasterPixels x y w h ++ (List.range w).map fun dx => (x + dx, y + h) := by
  simp [rasterPixels, List.range_succ]

/-- Pixel number dy * w + dx in raster order is (x + dx, y + dy) (R165), by induction on the rows: it stands in the last row or before it. -/
theorem rasterPixels_getElem? {x y w h dx dy : Nat} (hdx : dx < w) (hdy : dy < h) :
    (rasterPixels x y w h)[dy * w + dx]? = some (x + dx, y + dy) := by
  induction h with
  | zero => omega
  | succ h ih =>
    rw [rasterPixels_succ]
    rcases Nat.lt_succ_iff_lt_or_eq.mp hdy with hbefore | rfl
    · have hindex : dy * w + dx < (rasterPixels x y w h).length := by
        rw [rasterPixels_length, Nat.add_comm]
        exact planeIndex_lt hdx hbefore
      rw [List.getElem?_append_left hindex, ih hbefore]
    · have hstart : (rasterPixels x y w dy).length = dy * w := by rw [rasterPixels_length, Nat.mul_comm]
      rw [List.getElem?_append_right (by omega), hstart, Nat.add_sub_cancel_left, List.getElem?_map, List.getElem?_range hdx]
      rfl

/-- Settles O17. -/
theorem fillIssuesWritesInRasterOrder : Obligations.FillIssuesWritesInRasterOrder := by
  unfold Obligations.FillIssuesWritesInRasterOrder
  intro s hx hy
  refine ⟨s.colorWrites s.fillPixels, fillWrites_eq (.inr (.inr ⟨hx, hy⟩)), by simp [State.colorWrites], fun dx dy hdx hdy => ?_⟩
  rw [State.colorWrites, List.getElem?_map, rasterPixels_getElem? hdx hdy]
  rfl

/-! ### The surface after WRPIX and FILL -/

/-- The surface with COLOR at each of a list of pixels. -/
abbrev State.colored (s : State) (ps : List (Nat × Nat)) : Memory := applyWrites s.params.endian s.surf (s.colorWrites ps)

/-- Each of the pixels then holds ARG2 (R163, R164, R165). -/
theorem State.pixelHolds_colored {s : State} (hsurf : s.surfCause = .noCause) {ps : List (Nat × Nat)} (hps : ∀ p ∈ ps, p.1 < s.sw)
    {x y : Nat} (hp : (x, y) ∈ ps) : pixelHolds s (s.colored ps) x y s.arg2 := fun k hk => by
  rw [← s.imageByte_argColor _ hk]
  exact pixelHolds_applyWrites hsurf hps (fun _ _ => s.argColor) s.surf hp k hk

/-- Every byte outside the pixels reads as before. -/
theorem State.read_colored_outside {s : State} {ps : List (Nat × Nat)} {a : Nat} (h : ∀ x y, (x, y) ∈ ps → outsidePixel s x y a) :
    (s.colored ps).read a = s.surf.read a := by
  refine read_applyWrites_outside _ _ _ _ fun w hw => ?_
  obtain ⟨p, hp, rfl⟩ := List.mem_map.mp hw
  exact h p.1 p.2 hp

/-- A command whose checks pass and that only writes pixels: OKAY, the surface, and the record of its writes (R71, R95). -/
theorem surfaceCommand_color (s : State) (ps : List (Nat × Nat)) :
    surfaceCommand none (.ok (s.colorWrites ps)) (fun t => t) s = .next (okay { s with
      surf := s.colored ps
      issued := s.issued ++ s.colorWrites ps
      commandedWrites := if s.colorWrites ps = [] then s.commandedWrites else s.issued.length + (s.colorWrites ps).length }) := by
  rw [← List.length_append]
  rfl

/-- Settles O15. -/
theorem wrpixWritesOnePixel : Obligations.WrpixWritesOnePixel := by
  unfold Obligations.WrpixWritesOnePixel
  intro s hphase hsurf hx hy
  rw [← s.argX_eq] at hx ⊢
  rw [← s.argYPos_eq] at hy ⊢
  refine ⟨s.colored [(s.argX, s.argYPos)], ?_, ?_, fun a ha => ?_⟩
  · rw [exec_wrpix, State.pixelCommandError_eq_none hphase hsurf, wrpixWrites_eq hx hy, surfaceCommand_color]
    rfl
  · exact State.pixelHolds_colored hsurf (by simpa using hx) List.mem_cons_self
  · refine State.read_colored_outside fun x y hp => ?_
    obtain ⟨rfl, rfl⟩ : x = s.argX ∧ y = s.argYPos := by simpa using hp
    exact ha

/-- Settles O16: the pixels painted are those of `mem_rasterPixels`. -/
theorem fillPaintsExactlyTheRectangle : Obligations.FillPaintsExactlyTheRectangle := by
  unfold Obligations.FillPaintsExactlyTheRectangle
  intro s hphase hsurf
  simp only [← s.argX_eq, ← s.argYPos_eq, ← s.argW_eq, ← s.argH_eq]
  intro hfits
  refine ⟨s.colored s.fillPixels, s.colorWrites s.fillPixels, fillWrites_eq hfits, ?_, fun i j hxi hix hyj hjy => ?_, fun a ha => ?_⟩
  · rw [exec_fill, State.pixelCommandError_eq_none hphase hsurf, fillWrites_eq hfits, surfaceCommand_color]
  · exact State.pixelHolds_colored hsurf (fun p hp => (State.fillPixels_in_bounds hfits p hp).1)
      (mem_rasterPixels.mpr ⟨hxi, hix, hyj, hjy⟩)
  · refine State.read_colored_outside fun x y hp => ?_
    obtain ⟨hxi, hix, hyj, hjy⟩ := mem_rasterPixels.mp hp
    exact ha x y hxi hix hyj hjy

end Sys2Proof.Machine
end

section
/-! PROOF. The statements of 43_frame_decoder.md: the configuration check (R184), the walk's writes and their order (R185, R186), DECODE with its
errors and the pixels it leaves (R188, R189), and the streaming walk's decode steps (R187, 44_streaming_loop.md R211). -/

namespace Sys2Proof.Machine

open Sys2Proof.Spec

/-! ### The configuration check -/

/-- PIXFMT.FMT is the low 3 bits (R28). -/
theorem State.fmt_eq (s : State) : s.fmt = s.pixfmt.toNat % 8 := by
  simp [State.fmt, bitField, BitVec.extractLsb'_toNat]

/-- CTRL.MONO is bit 1 (R22). -/
theorem State.mono_eq_true_iff (s : State) : s.mono = true ↔ s.ctrl.toNat / 2 % 2 = 1 := by
  rw [State.mono, BitVec.getLsbD, Nat.testBit_eq_decide_div_mod_eq, pow_one, decide_eq_true_eq]

/-- One of the checks that `surfCause()` answers with BAD_SURFACE fails (R163). -/
abbrev State.surfaceBad (s : State) : Prop :=
  (s.bpp ≠ 16 ∧ s.bpp ≠ 32) ∨ s.sw = 0 ∨ s.sh = 0 ∨ s.stride < s.sw * (s.bpp / 8) ∨
    s.stride % (s.bpp / 8) ≠ 0 ∨ s.stride * s.sh > 2 ^ s.params.surfAw

/-- `surfCause()` with its BAD_SURFACE checks as one (R163). -/
theorem State.surfCause_eq (s : State) :
    s.surfCause = if s.surfReady = false then .surfUnavail else if s.surfaceBad then .badSurface else .noCause := by
  simp only [State.surfCause, State.surfaceBad, ite_or]
  rfl

/-- The number of the first failing check after the surface's (R184, R231). -/
theorem State.frameCause_code (s : State) :
    s.frameCause.code.toNat =
      if s.bpp = 16 ∧ layoutOK s.chanLayout = false then 3
      else if s.pixfmt.toNat % 8 ≠ 0 then 4
      else if s.ctrl.toNat / 2 % 2 = 1 then 5
      else if s.fw = 0 ∨ s.fh = 0 then 6
      else if s.fw % 2 = 1 ∨ s.fh % 2 = 1 then 7
      else if s.fw > s.sw ∨ s.fh > s.sh then 8
      else if s.frameBytes > s.params.fbCap then 9
      else 0 := by
  simp only [State.frameCause, s.fmt_eq, s.mono_eq_true_iff, apply_ite CfgCause.code, apply_ite BitVec.toNat]
  rfl

/-- `cfgCause()` is the chain of R184 behind that of R163. -/
theorem State.cfgCause_code (s : State) : s.cfgCause.code.toNat = causeNumber s := by
  unfold State.cfgCause causeNumber
  rw [s.surfCause_eq]
  by_cases hready : s.surfReady = false
  · simp only [if_pos hready]
    rfl
  · by_cases hbad : s.surfaceBad
    · simp only [if_neg hready, if_pos hbad]
      rfl
    · simp only [if_neg hready, if_neg hbad, if_true]
      exact s.frameCause_code

/-- Each sample of a pixel of the frame stands in its own plane (R180 to R183). -/
theorem State.sampleIndices_in_planes {s : State} (hw : s.fw % 2 = 0) (hh : s.fh % 2 = 0) {i j : Nat} (hi : i < s.fw) (hj : j < s.fh) :
    s.lumaIndex i j < s.uBase ∧ s.uBase + s.chromaIndex i j < s.vBase := by
  obtain ⟨-, -, hv⟩ := State.sampleIndices_lt hw hh hi hj
  have harea : 2 * 2 ∣ s.fw * s.fh := Nat.mul_dvd_mul (Nat.dvd_of_mod_eq_zero hw) (Nat.dvd_of_mod_eq_zero hh)
  refine ⟨planeIndex_lt hi hj, ?_⟩
  rw [State.vBase, State.frameBytes, Nat.mul_assoc] at hv
  rw [State.uBase, State.vBase]
  omega

/-- Settles O21: the two chains, and the plane bounds of a frame that fits. -/
theorem cfgCauseIsFirstFailingCheck : Obligations.CfgCauseIsFirstFailingCheck := by
  unfold Obligations.CfgCauseIsFirstFailingCheck
  refine fun s => ⟨s.cfgCause_code, fun hcfg => ?_⟩
  obtain ⟨⟨hw, hh⟩, ⟨hsw, hsh⟩, hcap⟩ := State.frame_fits hcfg
  refine ⟨hcap, fun i j hi hj => ?_⟩
  obtain ⟨hluma, hu⟩ := State.sampleIndices_in_planes hw hh hi hj
  obtain ⟨-, -, hv⟩ := State.sampleIndices_lt hw hh hi hj
  exact ⟨by omega, by omega, hluma, hu, hv⟩

/-! ### The checks of DECODE -/

theorem exec_decode (s : State) : exec .decode s = surfaceCommand s.decodeCommandError (walkWrites s) State.countDecode s := rfl

/-- In IDLE and TERMINATED the configuration's check comes first, then FB_VALID's (R188). -/
theorem State.decodeCommandError_of_acceptsCommands {s : State} (h : s.acceptsCommands) :
    s.decodeCommandError =
      if s.cfgCause ≠ .noCause then some (.badConfig, s.cfgCause) else if s.fbValid = false then some (.fbInvalid, .noCause) else none :=
  if_neg fun ⟨hidle, hterm⟩ => h.elim hidle hterm

/-- DECODE's checks pass exactly in a STATE that accepts it, with a configuration that passes and a whole frame in FB (R188). -/
theorem State.decodeCommandError_eq_none_iff (s : State) :
    s.decodeCommandError = none ↔ s.acceptsCommands ∧ s.cfgCause = .noCause ∧ s.fbValid = true := by
  constructor
  · intro h
    have hphase := State.acceptsCommands_of_decodeCommandError h
    have hcfg := State.decodeCommandError_none h
    rw [State.decodeCommandError_of_acceptsCommands hphase, if_neg (not_not.mpr hcfg)] at h
    exact ⟨hphase, hcfg, by simpa using h⟩
  · rintro ⟨hphase, hcfg, hvalid⟩
    rw [State.decodeCommandError_of_acceptsCommands hphase, if_neg (not_not.mpr hcfg), if_neg (by simp [hvalid])]

/-- An error of DECODE's checks is all that it does (R95, R236). -/
theorem exec_decode_error {s : State} {code : CmdErrCode} {cause : CfgCause} (h : s.decodeCommandError = some (code, cause)) :
    exec .decode s = .next (withError code cause s) := by
  rw [exec_decode, h, surfaceCommand_error]

/-- Settles O24: each case is the first check of R188 that fails. -/
theorem decodeErrorsInOrder : Obligations.DecodeErrorsInOrder := by
  unfold Obligations.DecodeErrorsInOrder
  refine fun s => ⟨fun hidle hterm => ?_, fun hphase hcfg => ?_, fun hphase hcfg hvalid => ?_⟩
  · exact exec_decode_error (if_pos ⟨hidle, hterm⟩)
  · exact exec_decode_error ((State.decodeCommandError_of_acceptsCommands hphase).trans (if_pos hcfg))
  · exact exec_decode_error ((State.decodeCommandError_of_acceptsCommands hphase).trans ((if_neg (not_not.mpr hcfg)).trans (if_pos hvalid)))

/-! ### The writes of the walk -/

/-- The walk's surface writes at a list of pixels of the frame (R185). -/
def State.walkWritesAt (s : State) (ps : List (Nat × Nat)) : List SurfWrite :=
  ps.map fun p => pixelWriteOf s p.1 p.2 (walkPixel s p.1 p.2)

/-- The pixels of the frame, in raster order (R186). -/
abbrev State.framePixels (s : State) : List (Nat × Nat) := rasterPixels 0 0 s.fw s.fh

theorem State.mem_framePixels {s : State} {i j : Nat} : (i, j) ∈ s.framePixels ↔ i < s.fw ∧ j < s.fh := by
  rw [mem_rasterPixels]
  omega

theorem State.walkWritesAt_length (s : State) (ps : List (Nat × Nat)) : (s.walkWritesAt ps).length = ps.length := List.length_map _

/-- The whole walk writes the pixels of the frame (R186). -/
theorem walkWrites_eq_framePixels {s : State} (hcfg : s.cfgCause = .noCause) : walkWrites s = .ok (s.walkWritesAt s.framePixels) :=
  walkWrites_eq hcfg

/-- Settles O23, by the raster index of a pixel. -/
theorem walkIssuesWritesInRasterOrder : Obligations.WalkIssuesWritesInRasterOrder := by
  unfold Obligations.WalkIssuesWritesInRasterOrder
  intro s hcfg
  refine ⟨_, walkWrites_eq_framePixels hcfg, by rw [s.walkWritesAt_length, rasterPixels_length], fun i j hi hj => ?_⟩
  rw [State.walkWritesAt, List.getElem?_map, rasterPixels_getElem? hi hj, Nat.zero_add, Nat.zero_add]
  rfl

/-! ### The surface after the walk's writes -/

/-- The surface with the walk's value at each of a list of pixels. -/
abbrev State.painted (s : State) (ps : List (Nat × Nat)) : Memory := applyWrites s.params.endian s.surf (s.walkWritesAt ps)

/-- Each of the pixels, all of them the frame's, then holds its value (R163, R185). -/
theorem State.pixelHolds_painted {s : State} (hcfg : s.cfgCause = .noCause) {ps : List (Nat × Nat)} (hps : ∀ p ∈ ps, p.1 < s.fw)
    {i j : Nat} (hp : (i, j) ∈ ps) : pixelHolds s (s.painted ps) i j (walkPixel s i j) := by
  obtain ⟨-, ⟨hwidth, -⟩, -⟩ := State.frame_fits hcfg
  exact pixelHolds_applyWrites (State.surfCause_of_cfgCause hcfg) (fun p hp => (hps p hp).trans_le hwidth) (walkPixel s) s.surf hp

/-- Every byte outside the pixels reads as before. -/
theorem State.read_painted_outside {s : State} {ps : List (Nat × Nat)} {a : Nat} (h : ∀ i j, (i, j) ∈ ps → outsidePixel s i j a) :
    (s.painted ps).read a = s.surf.read a := by
  refine read_applyWrites_outside _ _ _ _ fun w hw => ?_
  obtain ⟨p, hp, rfl⟩ := List.mem_map.mp hw
  exact h p.1 p.2 hp

/-! ### DECODE -/

/-- The next state of a DECODE that its checks let run: the frame is on the surface, and its writes are recorded, counted and of a complete
command (R188, R95). -/
theorem exec_decode_of_checks {s : State} (h : s.decodeCommandError = none) :
    exec .decode s = .next (okay { s with
      surf := s.painted s.framePixels
      issued := s.issued ++ s.walkWritesAt s.framePixels
      decodeCount := s.decodeCount + 1
      commandedWrites := s.issued.length + s.fw * s.fh
      countedWrites := s.issued.length + s.fw * s.fh }) := by
  have hcfg := State.decodeCommandError_none h
  obtain ⟨hw, hh, -⟩ := State.frame_pos hcfg
  have hcount : (s.walkWritesAt s.framePixels).length = s.fw * s.fh := by rw [s.walkWritesAt_length, rasterPixels_length]
  have hsome : s.walkWritesAt s.framePixels ≠ [] := List.ne_nil_of_length_pos (hcount ▸ Nat.mul_pos hw hh)
  rw [exec_decode, h, walkWrites_eq_framePixels hcfg, ← hcount, ← List.length_append]
  simp only [surfaceCommand, State.completeCommand, if_neg hsome]
  rfl

/-- Settles O22: the surface is the one painted at the frame's pixels. -/
theorem decodePaintsTheFrame : Obligations.DecodePaintsTheFrame := by
  unfold Obligations.DecodePaintsTheFrame
  intro s hphase hcfg hvalid
  refine ⟨_, _, walkWrites_eq_framePixels hcfg, exec_decode_of_checks (s.decodeCommandError_eq_none_iff.mpr ⟨hphase, hcfg, hvalid⟩),
    fun i j hi hj => ?_, fun a ha => ?_⟩
  · exact State.pixelHolds_painted hcfg (fun p hp => (State.mem_framePixels.mp hp).1) (State.mem_framePixels.mpr ⟨hi, hj⟩)
  · refine State.read_painted_outside fun i j hp => ?_
    obtain ⟨hi, hj⟩ := State.mem_framePixels.mp hp
    exact ha i j hi hj

/-- After a DECODE that its checks let run every pixel of the frame holds its value, whatever the surface held before (R188). -/
theorem pixelHolds_of_exec_decode {s t : State} (h : exec .decode s = .next t) (hchecks : s.decodeCommandError = none) {i j : Nat}
    (hi : i < s.fw) (hj : j < s.fh) : pixelHolds s t.surf i j (walkPixel s i j) := by
  rw [exec_decode_of_checks hchecks] at h
  cases h
  exact State.pixelHolds_painted (State.decodeCommandError_none hchecks) (fun p hp => (State.mem_framePixels.mp hp).1)
    (State.mem_framePixels.mpr ⟨hi, hj⟩)

/-- Settles O25: the second DECODE finds the checks, the frame in FB and the configuration as the first did, so it leaves the same values. -/
theorem decodingTwiceGivesTheSamePixels : Obligations.DecodingTwiceGivesTheSamePixels := by
  unfold Obligations.DecodingTwiceGivesTheSamePixels
  rintro s s' t t' m hfirst hchecks rfl hsecond i j k hi hj hk
  have hheld : pixelHolds s t.surf i j (walkPixel s i j) := pixelHolds_of_exec_decode hfirst hchecks hi hj
  rw [exec_decode_of_checks hchecks] at hfirst
  cases hfirst
  have hagain : pixelHolds s t'.surf i j (walkPixel s i j) := pixelHolds_of_exec_decode hsecond hchecks hi hj
  exact (hagain k hk).trans (hheld k hk).symm

/-! ### The decode step -/

/-- A 16-bit position below a 16-bit bound goes up without wrapping. -/
theorem position_succ_eq_iff {a b : Half} (h : a.toNat < b.toNat) : a + 1 = b ↔ a.toNat + 1 = b.toNat := by
  have hbound := b.isLt
  have hone : (1 : Half).toNat = 1 := rfl
  rw [← BitVec.toNat_inj, BitVec.toNat_add, hone]
  omega

/-- A turn of the walk in DECODING at a pixel of the frame: its write, then the next position (R187). -/
theorem step_walk {s : State} {rest : List Turn} (hturns : s.turns = .walk :: rest) (hphase : s.phase = .decoding)
    (hcfg : s.cfgCause = .noCause) (hi : s.walkI.toNat < s.fw) (hj : s.walkJ.toNat < s.fh) :
    step s = .next (State.advanceWalk { s with
      turns := rest
      surf := s.painted [(s.walkI.toNat, s.walkJ.toNat)]
      issued := s.issued ++ s.walkWritesAt [(s.walkI.toNat, s.walkJ.toNat)] }) := by
  have hpixel : decodePixel { s with turns := rest } s.walkI.toNat s.walkJ.toNat = .ok _ :=
    decodePixel_eq (s := { s with turns := rest }) hcfg hi hj
  rw [step_of_turn hturns, runTurn, decodeStep, if_pos hphase, hpixel]
  rfl

/-- Before the frame's last pixel the walk's position goes to the next column or the next row's first (R187). -/
theorem State.advanceWalk_of_not_last {s : State} (hi : s.walkI.toNat < s.fw) (hj : s.walkJ.toNat < s.fh)
    (hnext : s.walkI.toNat + 1 < s.fw ∨ s.walkJ.toNat + 1 < s.fh) :
    s.advanceWalk = { s with
      walkI := if s.walkI.toNat + 1 = s.fw then 0 else s.walkI + 1
      walkJ := if s.walkI.toNat + 1 = s.fw then s.walkJ + 1 else s.walkJ } := by
  have hcolumn : s.walkI + 1 = s.frameGeom.extractLsb' 0 16 ↔ s.walkI.toNat + 1 = s.fw := position_succ_eq_iff hi
  have hrow : s.walkJ + 1 = s.frameGeom.extractLsb' 16 16 ↔ s.walkJ.toNat + 1 = s.fh := position_succ_eq_iff hj
  unfold State.advanceWalk
  by_cases hend : s.walkI.toNat + 1 = s.fw
  · have hmore : ¬ s.walkJ.toNat + 1 = s.fh := by omega
    simp only [hcolumn, hrow, if_pos hend, if_neg hmore]
  · simp only [hcolumn, if_neg hend]

/-- At the frame's last pixel the walk is complete (R187, R211). -/
theorem State.advanceWalk_of_last {s : State} (hi : s.walkI.toNat + 1 = s.fw) (hj : s.walkJ.toNat + 1 = s.fh) :
    s.advanceWalk = State.completeWalk { s with walkI := 0, walkJ := s.walkJ + 1 } := by
  have hcolumn : s.walkI + 1 = s.frameGeom.extractLsb' 0 16 := (position_succ_eq_iff (Nat.lt_of_succ_le hi.le)).mpr hi
  have hrow : s.walkJ + 1 = s.frameGeom.extractLsb' 16 16 := (position_succ_eq_iff (Nat.lt_of_succ_le hj.le)).mpr hj
  rw [State.advanceWalk, if_pos hcolumn, if_pos hrow]

/-- What a decode step leaves on the surface: its pixel's value, and every other byte as before (R185). -/
theorem State.painted_one_pixel {s : State} (hcfg : s.cfgCause = .noCause) {i j : Nat} (hi : i < s.fw) :
    pixelHolds s (s.painted [(i, j)]) i j (walkPixel s i j) ∧
      ∀ a, outsidePixel s i j a → (s.painted [(i, j)]).read a = s.surf.read a := by
  refine ⟨State.pixelHolds_painted hcfg (by simpa using hi) List.mem_cons_self, fun a ha => State.read_painted_outside fun x y hp => ?_⟩
  obtain ⟨rfl, rfl⟩ : x = i ∧ y = j := by simpa using hp
  exact ha

/-- Settles O27: the step's one write, and a position that is not the last. -/
theorem decodeStepPaintsOnePixel : Obligations.DecodeStepPaintsOnePixel := by
  unfold Obligations.DecodeStepPaintsOnePixel
  intro s rest hturns hphase hcfg hi hj hnext
  refine ⟨_, ?_, State.painted_one_pixel hcfg hi⟩
  exact (step_walk hturns hphase hcfg hi hj).trans (congrArg _ (State.advanceWalk_of_not_last hi hj hnext))

/-- Settles O28: the step's one write, and the completed walk. -/
theorem lastDecodeStepReturnsToFilling : Obligations.LastDecodeStepReturnsToFilling := by
  unfold Obligations.LastDecodeStepReturnsToFilling
  intro s rest hturns hphase hcfg hi hj
  have hcolumn : s.walkI.toNat < s.fw := Nat.lt_of_succ_le hi.le
  have hrow : s.walkJ.toNat < s.fh := Nat.lt_of_succ_le hj.le
  refine ⟨_, ?_, State.painted_one_pixel hcfg hcolumn⟩
  have hcount : BitVec.ofNat 32 (s.decodeCount.toNat + 1) = s.decodeCount + 1 := by
    rw [BitVec.ofNat_add, BitVec.ofNat_toNat, BitVec.setWidth_eq]
    rfl
  have hissued : (s.issued ++ s.walkWritesAt [(s.walkI.toNat, s.walkJ.toNat)]).length = s.issued.length + 1 := List.length_append
  rw [hcount, ← hissued]
  exact (step_walk hturns hphase hcfg hcolumn hrow).trans (congrArg _ (State.advanceWalk_of_last hi hj))

end Sys2Proof.Machine
end

section
/-! PROOF. The statements of 44_streaming_loop.md on single transactions: START (R201), the input port (R202 to R205), the sink's answers to the tee
attempts (R206 to R210), and the transitions of STATE (R200, R212). -/

namespace Sys2Proof.Machine

open Sys2Proof.Spec

/-! ### START -/

/-- CTRL.TEE_EN is bit 0 (R22). -/
theorem State.teeEn_eq (s : State) : s.teeEn = decide (s.ctrl.toNat % 2 = 1) := by
  rw [State.teeEn, BitVec.getLsbD, Nat.testBit_eq_decide_div_mod_eq, pow_zero, Nat.div_one]

/-- A START in IDLE whose configuration passes (R201). -/
theorem exec_start_begins {s : State} (hidle : s.phase = .idle) (hcfg : s.cfgCause = .noCause) :
    exec .start s = .next (okay s.startRun) := by
  have hstart : execStart s = finish s.startRun := by
    rw [execStart, if_neg (not_not.mpr hidle), if_neg (not_not.mpr hcfg)]
  exact hstart

/-- Settles O29: the three cases are the order of START's checks. -/
theorem startValidatesThenBeginsTheRun : Obligations.StartValidatesThenBeginsTheRun := by
  unfold Obligations.StartValidatesThenBeginsTheRun
  refine fun s => ⟨fun hbusy => ?_, fun hidle hcfg => ?_, fun hidle hcfg => ?_⟩
  · exact (if_pos hbusy).trans (commandError_eq_withError .wrongState .noCause s)
  · have hstart : execStart s = finish { s with cfgErr := s.cfgCause, phase := .error } := by
      rw [execStart, if_neg (not_not.mpr hidle), if_pos hcfg]
    exact hstart
  · rw [← s.teeEn_eq]
    exact exec_start_begins hidle hcfg

/-! ### The input port -/

/-- The port is ready exactly in FILLING (R202). -/
theorem State.inReady_iff (s : State) : s.inReady = true ↔ s.phase = .filling := by
  rw [State.inReady, beq_iff_eq]

/-- A turn of the producer in FILLING: the block takes the next transfer (R202). -/
theorem producerTurn_filling {s : State} {w : BitVec 10} {q : List (BitVec 10)} (hfilling : s.phase = .filling) (hqueue : s.inQ = w :: q) :
    producerTurn s = exec (decodeInput w) { s with inQ := q } := by
  rw [producerTurn, if_pos (s.inReady_iff.mpr hfilling), hqueue]
  exact runTransfer_of_decodes rfl _

/-- Outside FILLING the producer waits (R202). -/
theorem producerTurn_waits {s : State} (h : s.phase ≠ .filling) : producerTurn s = .next s :=
  if_neg fun hready => h (s.inReady_iff.mp hready)

/-- Settles O30. -/
theorem inputPortReadyOnlyInFilling : Obligations.InputPortReadyOnlyInFilling := by
  unfold Obligations.InputPortReadyOnlyInFilling
  refine fun s w q rest => ⟨s.inReady_iff, fun hturns hqueue => ⟨fun hfilling => ?_, fun hbusy => ?_⟩⟩
  · exact (step_of_turn hturns).trans (producerTurn_filling (s := { s with turns := rest }) hfilling hqueue)
  · exact (step_of_turn hturns).trans (producerTurn_waits (s := { s with turns := rest }) hbusy)

/-- Outside TEEING no tee attempt is made (R206). -/
theorem sinkTurn_waits {s : State} (h : s.phase ≠ .teeing) : sinkTurn s = .next s := if_neg h

/-- Settles O31: each of the instructions checks STATE first, and so does the turn of the sink. -/
theorem transfersAreTakenOnlyInTheirState : Obligations.TransfersAreTakenOnlyInTheirState := by
  unfold Obligations.TransfersAreTakenOnlyInTheirState
  refine fun s => ⟨fun hbusy i hi => ?_, fun hbusy i hi => ?_, fun hbusy rest hturns => ?_⟩
  · rcases hi with rfl | rfl | ⟨d, rfl⟩ <;> exact if_neg hbusy
  · rcases hi with rfl | rfl | ⟨n, rfl⟩ <;> exact if_neg hbusy
  · exact (step_of_turn hturns).trans (sinkTurn_waits (s := { s with turns := rest }) hbusy)

/-- IN_BYTE in FILLING with room in FB: the byte is appended, and completes the frame when it is its last (R203). -/
theorem exec_inByte_filling {s : State} (hfilling : s.phase = .filling) (hroom : s.fillLevel.toNat < s.params.fbCap)
    (hwrap : s.fillLevel.toNat + 1 < 2 ^ 32) (d : Byte) :
    exec (.inByte d) s =
      .next (if s.fillLevel.toNat + 1 = s.frameBytes then (s.appendByte d).completeFrame else s.appendByte d) := by
  have hnext : (s.fillLevel + 1).toNat = s.fillLevel.toNat + 1 := BitVec.toNat_add_of_lt hwrap
  have hbyte : execInByte d s =
      .next (if (s.fillLevel + 1).toNat = s.frameBytes then (s.appendByte d).completeFrame else s.appendByte d) :=
    (if_pos hfilling).trans (if_pos hroom)
  rwa [hnext] at hbyte

/-- Settles O32. -/
theorem inByteAppendsOneByte : Obligations.InByteAppendsOneByte := by
  unfold Obligations.InByteAppendsOneByte
  intro s d hfilling hroom hwrap hmore
  refine ⟨s.fb.write s.fillLevel.toNat d, ?_, Memory.read_write_self _ _ _, fun a ha => Memory.read_write_ne _ _ ha⟩
  have hfirst : s.fillLevel.toNat = 0 ↔ s.fillLevel = 0 := BitVec.toNat_inj (y := 0)
  rw [exec_inByte_filling hfilling hroom hwrap, State.frameBytes, if_neg hmore]
  simp only [hfirst]
  rfl

/-- Settles O33: the byte is stored, and `completeFrame` goes on by TEE_ACTIVE. -/
theorem inByteCompletesTheFrame : Obligations.InByteCompletesTheFrame := by
  unfold Obligations.InByteCompletesTheFrame
  intro s d hfilling hroom hwrap hlast
  refine ⟨s.fb.write s.fillLevel.toNat d, Memory.read_write_self _ _ _, fun a ha => Memory.read_write_ne _ _ ha, ?_⟩
  rw [exec_inByte_filling hfilling hroom hwrap, State.frameBytes, if_pos hlast]
  rcases (s.appendByte d).completeFrame_cases with ⟨hon, e⟩ | ⟨hoff, e⟩ <;> rw [e]
  · exact ⟨fun _ => rfl, fun hoff => nomatch hon.symm.trans hoff⟩
  · exact ⟨fun hon => (nomatch hoff.symm.trans hon), fun _ => rfl⟩

theorem exec_inEos_filling {s : State} (h : s.phase = .filling) : exec .inEos s = .next { s with termCause := false, phase := .terminated } :=
  if_pos h

theorem exec_inErr_filling {s : State} (h : s.phase = .filling) : exec .inErr s = .next { s with termCause := true, phase := .terminated } :=
  if_pos h

/-- Settles O34. -/
theorem endOfStreamAndErrorTerminate : Obligations.EndOfStreamAndErrorTerminate := by
  unfold Obligations.EndOfStreamAndErrorTerminate
  intro s hfilling
  refine ⟨exec_inEos_filling hfilling, exec_inErr_filling hfilling, fun t ht => ?_⟩
  rw [exec_inEos_filling hfilling, exec_inErr_filling hfilling] at ht
  rcases ht with ht | ht <;> cases ht <;> exact ⟨rfl, rfl⟩

/-! ### The sink's answers -/

/-- The bytes FB[a .. a + n - 1] (R207). -/
def State.fbSlice (s : State) (a n : Nat) : List Byte := (List.range' a n).map (fbByte s)

theorem State.fbSlice_length (s : State) (a n : Nat) : (s.fbSlice a n).length = n := by simp [State.fbSlice]

theorem State.fbSlice_getElem? (s : State) {a n k : Nat} (h : k < n) : (s.fbSlice a n)[k]? = some (fbByte s (a + k)) := by
  simp [State.fbSlice, List.getElem?_range' h]

/-- A run of FB reads inside FB_CAP gives the slice (R65, R207). -/
theorem fbReadBytes_eq_fbSlice {s : State} {a n : Nat} (h : a + n ≤ s.params.fbCap) : fbReadBytes s a n = .ok (s.fbSlice a n) :=
  fbReadBytes_of_le s n a h

/-- SINK_ACC with progress, within the offer: the sink gets the slice (R207). -/
theorem exec_sinkAcc_progress {s : State} {n : Word} (hteeing : s.phase = .teeing) (hn : 0 < n.toNat)
    (hoffer : s.teeOff.toNat + n.toNat ≤ s.frameBytes) (hcap : s.frameBytes ≤ s.params.fbCap) :
    exec (.sinkAcc n) s = .next (s.teeProgress n (s.fbSlice s.teeOff.toNat n.toNat)) := by
  have hsome : n ≠ 0 := fun h => by simp [h] at hn
  have hwithin : ¬ s.offerLength < n.toNat := by unfold State.offerLength; omega
  have hread : fbReadBytes s s.teeOff.toNat n.toNat = .ok _ := fbReadBytes_eq_fbSlice (by omega)
  rw [exec, execSinkAcc, if_pos hteeing, if_neg hsome, if_neg hwithin, hread]

/-- Settles O35: the slice accepted, and whether it ends the frame. -/
theorem sinkAccDeliversTheAcceptedBytes : Obligations.SinkAccDeliversTheAcceptedBytes := by
  unfold Obligations.SinkAccDeliversTheAcceptedBytes
  intro s n hteeing hn hoffer hcap hwrap
  have hnext : (s.teeOff + n).toNat = s.teeOff.toNat + n.toNat := BitVec.toNat_add_of_lt (by omega)
  refine ⟨s.fbSlice s.teeOff.toNat n.toNat, s.fbSlice_length _ _, fun k hk => s.fbSlice_getElem? hk, ?_⟩
  rw [exec_sinkAcc_progress hteeing hn hoffer hcap, ← hnext]
  rcases s.teeProgress_cases n (s.fbSlice s.teeOff.toNat n.toNat) with ⟨hlast, e⟩ | ⟨hmore, e⟩ <;> rw [e]
  · exact ⟨fun _ => rfl, fun hmore => absurd hlast hmore⟩
  · exact ⟨fun hlast => absurd hlast hmore, fun _ => rfl⟩

/-- SINK_ACC(0) and SINK_FAIL are the same attempt without progress (R208). -/
theorem exec_noProgress {s : State} (hteeing : s.phase = .teeing) {i : Instr} (hi : i = .sinkAcc 0 ∨ i = .sinkFail) :
    exec i s = .next s.teeNoProgress := by
  rcases hi with rfl | rfl <;> exact if_pos hteeing

/-- Settles O36: the retries are used up, or one more is counted. -/
theorem sinkWithoutProgressRetriesThenAbandons : Obligations.SinkWithoutProgressRetriesThenAbandons := by
  unfold Obligations.SinkWithoutProgressRetriesThenAbandons
  refine fun s hteeing => ⟨if_pos hteeing, fun i hi => ?_⟩
  rw [exec_noProgress hteeing hi]
  rcases s.teeNoProgress_cases with ⟨hlimit, e⟩ | ⟨hbelow, e⟩ <;> rw [e]
  · exact ⟨fun _ => rfl, fun hbelow => absurd hlimit hbelow⟩
  · exact ⟨fun hlimit => absurd hlimit hbelow, fun _ => rfl⟩

/-- A turn of the sink in TEEING takes its answer (R206). -/
theorem sinkTurn_teeing {s : State} {w : BitVec 34} {q : List (BitVec 34)} (hteeing : s.phase = .teeing) (hqueue : s.sinkQ = w :: q) :
    sinkTurn s = runTransfer (.sink w) { s with sinkQ := q } := by
  rw [sinkTurn, if_pos hteeing, hqueue]

/-- A count above the offer faults (R210). -/
theorem exec_sinkAcc_above_offer {s : State} {n : Word} (hteeing : s.phase = .teeing) (habove : s.offerLength < n.toNat) :
    exec (.sinkAcc n) s = .fault .sinkProtocol := by
  have hsome : n ≠ 0 := fun h => by simp [h] at habove
  rw [exec, execSinkAcc, if_pos hteeing, if_neg hsome, if_pos habove]

/-- Settles O37: the reserved status is no instruction, and the other response is a SINK_ACC above the offer. -/
theorem sinkProtocolViolationsFault : Obligations.SinkProtocolViolationsFault := by
  unfold Obligations.SinkProtocolViolationsFault
  intro s w q rest hturns hqueue hteeing hviolation
  obtain ⟨hacc, -, -, hreserved⟩ := sinkDecodeByStatus w
  have hsink : step s = runTransfer (.sink w) { s with turns := rest, sinkQ := q } :=
    (step_of_turn hturns).trans (sinkTurn_teeing (s := { s with turns := rest }) hteeing hqueue)
  rw [hsink, runTransfer, decodeTransfer]
  rcases hviolation with hstatus | ⟨hstatus, -, habove⟩
  · rw [hreserved (by omega)]
    exact if_pos hteeing
  · rw [hacc (by omega)]
    refine exec_sinkAcc_above_offer (s := { s with turns := rest, sinkQ := q }) hteeing ?_
    rwa [BitVec.toNat_ofNat, Nat.mod_eq_of_lt (by omega)]

/-! ### The transitions of STATE -/

/-- From s to t STATE makes a transition of the table that is no reset (R200). -/
abbrev State.Transition (s t : State) : Prop :=
  (s.phase = .idle ∧ (t.phase = .filling ∧ s.cfgCause = .noCause ∨ t.phase = .error ∧ s.cfgCause ≠ .noCause)) ∨
  (s.phase = .filling ∧ (t.phase = .teeing ∧ s.teeActive = true ∨ t.phase = .decoding ∧ s.teeActive = false ∨ t.phase = .terminated)) ∨
  (s.phase = .teeing ∧ t.phase = .decoding) ∨
  (s.phase = .decoding ∧ t.phase = .filling ∧ t.decodeCount = s.decodeCount + 1 ∧ t.fillLevel = 0)

/-- On the register port only START moves STATE, out of IDLE (R201, R232). -/
theorem exec_bus_transition {req : BitVec 11} {data : Word} {s t : State} (h : exec (decodeBus req data) s = .next t) :
    t.phase = s.phase ∨ s.Transition t := by
  rcases exec_bus_phase h with hsame | ⟨hstart, hidle, -⟩
  · exact .inl hsame
  · rw [hstart] at h
    rcases execStart_next h with ⟨hbusy, -⟩ | ⟨-, hcfg, rfl⟩ | ⟨-, hcfg, rfl⟩
    · exact absurd hidle hbusy
    · exact .inr (.inl ⟨hidle, .inr ⟨rfl, hcfg⟩⟩)
    · exact .inr (.inl ⟨hidle, .inl ⟨rfl, hcfg⟩⟩)

/-- An input transfer is one of three instructions (R97). -/
theorem decodeInput_cases (w : BitVec 10) : (∃ d, decodeInput w = .inByte d) ∨ decodeInput w = .inEos ∨ decodeInput w = .inErr := by
  unfold decodeInput
  split
  · exact .inr (.inr rfl)
  · split
    · exact .inr (.inl rfl)
    · exact .inl ⟨_, rfl⟩

/-- In FILLING a transfer appends a byte, completes the frame or ends the run (R203, R204, R205). -/
theorem exec_input_transition {w : BitVec 10} {s t : State} (hfilling : s.phase = .filling) (h : exec (decodeInput w) s = .next t) :
    t.phase = s.phase ∨ s.Transition t := by
  rcases decodeInput_cases w with ⟨d, e⟩ | e | e <;> rw [e] at h
  · rcases execInByte_next h with ⟨-, rfl⟩ | ⟨-, -, ⟨-, rfl⟩ | ⟨-, rfl⟩⟩
    · exact .inl rfl
    · rcases (s.appendByte d).completeFrame_cases with ⟨hon, e⟩ | ⟨hoff, e⟩ <;> rw [e]
      · exact .inr (.inr (.inl ⟨hfilling, .inl ⟨rfl, hon⟩⟩))
      · exact .inr (.inr (.inl ⟨hfilling, .inr (.inl ⟨rfl, hoff⟩)⟩))
    · exact .inl rfl
  · rw [exec_inEos_filling hfilling] at h
    cases h
    exact .inr (.inr (.inl ⟨hfilling, .inr (.inr rfl)⟩))
  · rw [exec_inErr_filling hfilling] at h
    cases h
    exact .inr (.inr (.inl ⟨hfilling, .inr (.inr rfl)⟩))

/-- A sink response that is an instruction is one of three (R98). -/
theorem decodeSink_cases {w : BitVec 34} {i : Instr} (h : decodeSink w = .ok i) : (∃ n, i = .sinkAcc n) ∨ i = .sinkFail ∨ i = .sinkClosed := by
  unfold decodeSink at h
  split at h <;> cases h
  · exact .inl ⟨_, rfl⟩
  · exact .inr (.inl rfl)
  · exact .inr (.inr rfl)

/-- In TEEING an answer of the sink keeps STATE or goes on to DECODING (R207, R208, R209). -/
theorem exec_sink_phase {w : BitVec 34} {i : Instr} {s t : State} (hteeing : s.phase = .teeing) (hi : decodeSink w = .ok i)
    (h : exec i s = .next t) : t.phase = s.phase ∨ t.phase = .decoding := by
  have hnone : s.teeNoProgress.phase = s.phase ∨ s.teeNoProgress.phase = .decoding := by
    rcases s.teeNoProgress_cases with ⟨-, e⟩ | ⟨-, e⟩ <;> rw [e]
    · exact .inr rfl
    · exact .inl rfl
  rcases decodeSink_cases hi with ⟨n, rfl⟩ | rfl | rfl
  · rcases execSinkAcc_next h with ⟨-, rfl⟩ | ⟨-, -, rfl⟩ | ⟨bytes, -, -, -, -, rfl⟩
    · exact .inl rfl
    · exact hnone
    · rcases s.teeProgress_cases n bytes with ⟨-, e⟩ | ⟨-, e⟩ <;> rw [e]
      · exact .inr rfl
      · exact .inl rfl
  · rw [exec_noProgress hteeing (.inr rfl)] at h
    cases h
    exact hnone
  · cases (if_pos hteeing).symm.trans h
    exact .inr rfl

/-- A decode step keeps STATE until the walk is complete (R187, R211). -/
theorem decodeStep_transition {s t : State} (h : decodeStep s = .next t) : t.phase = s.phase ∨ s.Transition t := by
  rcases decodeStep_next h with ⟨-, rfl⟩ | ⟨w, hdecoding, -, rfl⟩
  · exact .inl rfl
  · rcases (s.writeSurface [w]).advanceWalk_cases with ⟨-, e⟩ | ⟨-, -, e⟩ | ⟨-, -, e⟩ <;> rw [e]
    · exact .inl rfl
    · exact .inl rfl
    · exact .inr (.inr (.inr (.inr ⟨hdecoding, rfl, rfl, rfl⟩)))

/-- An agent's turn that is no reset keeps STATE or makes a transition of the table. -/
theorem runTurn_transition {turn : Turn} {s t : State} (hturn : turn.isReset = false) (h : runTurn turn s = .next t) :
    t.phase = s.phase ∨ s.Transition t := by
  cases turn with
  | host =>
    rcases hostTurn_next h with ⟨-, rfl⟩ | ⟨r, q, -, he⟩
    · exact .inl rfl
    · exact exec_bus_transition (s := s.takeRequest _ q) he
  | hostSurfLost =>
    rcases hostTurnSurfLost_next h with ⟨-, hl⟩ | ⟨r, q, u, -, -, he, hl⟩ <;> obtain ⟨rfl, -⟩ := lowerSurfReady_next hl
    · exact .inl rfl
    · have hexec : u.phase = s.phase ∨ s.Transition u := exec_bus_transition (s := s.takeRequest _ q) he
      exact hexec
  | producer =>
    rcases producerTurn_next h with rfl | ⟨w, q, hfilling, -, he⟩
    · exact .inl rfl
    · exact exec_input_transition (s := { s with inQ := q }) hfilling he
  | sink =>
    rcases sinkTurn_next h with rfl | ⟨w, q, i, hteeing, -, hi, he⟩
    · exact .inl rfl
    · exact (exec_sink_phase (s := { s with sinkQ := q }) hteeing hi he).imp_right fun hnext => .inr (.inr (.inl ⟨hteeing, hnext⟩))
  | walk => exact decodeStep_transition h
  | surfReady level =>
    cases level with
    | true => cases h; exact .inl rfl
    | false => obtain ⟨rfl, -⟩ := lowerSurfReady_next h; exact .inl rfl
  | readSurface n | readAfterPoll n | readAfterCommand n => cases h; exact .inl rfl
  | reset | resetDuring n => cases hturn

/-- Settles O58: with no turn left nothing changes, and no agent's turn but a reset leaves the table. -/
theorem stateFollowsTheTransitionTable : Obligations.StateFollowsTheTransitionTable := by
  unfold Obligations.StateFollowsTheTransitionTable
  intro s t h hreset hchange
  rcases step_next h with ⟨-, rfl⟩ | ⟨turn, rest, hturns, hr⟩
  · exact absurd rfl hchange
  · exact (runTurn_transition (s := { s with turns := rest }) (hreset turn (by simp [hturns])) hr).resolve_left hchange

end Sys2Proof.Machine
end

section
/-! PROOF. Runs in which the agents interleave (60_exceptions.md R240): a turn that waits changes nothing that a move of the block reads, so an
interleaved run ends as the moves of its plan alone do, but for what the host and an external reader have changed. -/

namespace Sys2Proof.Machine

open Sys2Proof.Spec

/-! ### The turns between the moves -/

/-- s with the turns to come, and the fields that the host and an external reader may change during a run, taken from k. -/
def State.withHost (s k : State) : State :=
  { s with
    arg0 := k.arg0, arg1 := k.arg1, arg2 := k.arg2, arg3 := k.arg3, resRgb := k.resRgb, resPix := k.resPix
    cmdErrCode := k.cmdErrCode, cmdErrCause := k.cmdErrCause, lastResp := k.lastResp
    syncedWrites := k.syncedWrites, readerView := k.readerView, hostQ := k.hostQ, turns := k.turns }

/-- STATE is the one in which the block is ready for the plan's next move (R187, R202, R206); with no move left, FILLING or DECODING, in which a
turn of the sink does nothing. -/
def State.awaits (s : State) : Option Turn → Prop
  | some .producer => s.phase = .filling
  | some .sink => s.phase = .teeing
  | some .walk => s.phase = .decoding
  | none => s.phase = .filling ∨ s.phase = .decoding
  | some _ => False

theorem State.awaits.running {s : State} {next : Option Turn} (h : s.awaits next) : s.running := by
  unfold State.awaits at h
  split at h
  · exact .inl h
  · exact .inr (.inl h)
  · exact .inr (.inr h)
  · exact h.imp_right .inr
  · exact h.elim

/-- An agent whose turn may come before the next move is not in the STATE that its own move needs (R240). -/
theorem State.awaits.not_ready {s : State} {next : Option Turn} {turn : Turn} (h : s.awaits next) (hwaits : waits next turn = true)
    (hother : next ≠ some turn) :
    (turn = .producer → s.phase ≠ .filling) ∧ (turn = .sink → s.phase ≠ .teeing) ∧ (turn = .walk → s.phase ≠ .decoding) := by
  refine ⟨?_, ?_, ?_⟩
  · rintro rfl hfilling
    have hnext : next = some .walk ∨ next = some .sink := by simpa [waits] using hwaits
    rcases hnext with rfl | rfl <;> cases hfilling.symm.trans h
  · rintro rfl hteeing
    unfold State.awaits at h
    split at h
    · cases hteeing.symm.trans h
    · exact hother rfl
    · cases hteeing.symm.trans h
    · rcases h with h | h <;> cases hteeing.symm.trans h
    · exact h
  · rintro rfl hdecoding
    have hnext : next = some .producer ∨ next = some .sink := by simpa [waits] using hwaits
    rcases hnext with rfl | rfl <;> cases hdecoding.symm.trans h

/-- A turn that waits is answered, and changes only what the host and the reader may. -/
theorem runTurn_waits {s : State} {next : Option Turn} {turn : Turn} (hs : s.Inv) (hready : s.awaits next)
    (hwaits : waits next turn = true) (hother : next ≠ some turn) :
    ∃ k, runTurn turn s = .next (s.withHost k) ∧ k.turns = s.turns := by
  obtain ⟨hproducer, hsink, hwalk⟩ := hready.not_ready hwaits hother
  cases turn with
  | host =>
    obtain ⟨t, ht, q, n, a0, a1, a2, a3, rgb, pix, code, cause, resp, hfields⟩ := hostTurn_running hready.running
    have hsame : t = s.withHost t := by rw [hfields]; rfl
    exact ⟨t, ht.trans (congrArg _ hsame), by rw [hfields]⟩
  | producer => exact ⟨s, producerTurn_waits (hproducer rfl), rfl⟩
  | sink => exact ⟨s, sinkTurn_waits (hsink rfl), rfl⟩
  | walk => exact ⟨s, if_neg (hwalk rfl), rfl⟩
  | surfReady level =>
    cases level with
    | true =>
      have hraised : { s with surfReady := true } = s := by rw [← hs.surfReady_of_running hready.running]
      exact ⟨s, congrArg Host.Outcome.next hraised, rfl⟩
    | false => cases hwaits
  | readSurface n => exact ⟨s.readSurface n, rfl, rfl⟩
  | readAfterPoll n => exact ⟨s.readAfterPoll n, rfl, rfl⟩
  | readAfterCommand n => exact ⟨s.readAfterCommand n, rfl, rfl⟩
  | hostSurfLost | reset | resetDuring n => cases hwaits

/-! ### Plans -/

/-- From s the moves of the plan lead to u, each made in the STATE that awaits it, whatever the host and the reader have changed. -/
inductive Performs : List Turn → State → State → Prop
  | done {s : State} (hready : s.awaits none) : Performs [] s s
  | move {m : Turn} {plan : List Turn} {s t u : State} (hready : s.awaits (some m))
      (hmove : ∀ k : State, runTurn m (s.withHost k) = .next (t.withHost k)) (hplan : Performs plan t u) : Performs (m :: plan) s u

theorem Performs.single {m : Turn} {s t : State} (hready : s.awaits (some m))
    (hmove : ∀ k : State, runTurn m (s.withHost k) = .next (t.withHost k)) (hafter : t.awaits none) : Performs [m] s t :=
  .move hready hmove (.done hafter)

theorem Performs.append {p q : List Turn} {s t u : State} (hp : Performs p s t) (hq : Performs q t u) : Performs (p ++ q) s u := by
  induction hp with
  | done _ => exact hq
  | move hready hmove _ ih => exact .move hready hmove (ih hq)

/-- A plan begins in the STATE that awaits its first move. -/
theorem Performs.awaits {plan : List Turn} {s u : State} (h : Performs plan s u) : s.awaits plan.head? := by
  cases h with
  | done hready => exact hready
  | move hready _ _ => exact hready

/-- A step that uses up the first turn, as that turn's agent takes it. -/
theorem step_withHost (s : State) {k : State} {turn : Turn} {turns : List Turn} (h : k.turns = turn :: turns) :
    step (s.withHost k) = runTurn turn (s.withHost { k with turns := turns }) :=
  step_of_turn (s := s.withHost k) h

/-- An interleaved run of the plan ends as the plan does, by induction on the turns: each is the plan's next move or one that waits (R240). -/
theorem run_of_performs {sched rest plan : List Turn} {s u k : State} (hplan : Performs plan s u) (hinv : (s.withHost k).Inv)
    (hsched : interleaves plan sched = true) (hturns : k.turns = sched ++ rest) :
    ∃ k', run sched.length (s.withHost k) = .next (u.withHost k') ∧ k'.turns = rest ∧ (u.withHost k').Inv := by
  induction sched generalizing plan s k with
  | nil =>
    cases hplan with
    | done _ => exact ⟨k, rfl, hturns, hinv⟩
    | move => cases hsched
  | cons turn sched ih =>
    have hstep := step_withHost s hturns
    have hwait : plan.head? ≠ some turn → waits plan.head? turn = true → interleaves plan sched = true →
        ∃ k', run (sched.length + 1) (s.withHost k) = .next (u.withHost k') ∧ k'.turns = rest ∧ (u.withHost k').Inv := by
      intro hother hwaits hrest
      obtain ⟨k', hk', hturns'⟩ := runTurn_waits (hinv.with_queues k.hostQ s.inQ s.sinkQ (sched ++ rest)) hplan.awaits hwaits hother
      have hnext : step (s.withHost k) = .next (s.withHost k') := hstep.trans hk'
      rw [run_succ_of_step hnext]
      exact ih hplan (everyStepKeepsTheInvariant _ _ hinv hnext) hrest hturns'
    cases hplan with
    | done hready =>
      obtain ⟨hwaits, hrest⟩ : waits none turn = true ∧ interleaves [] sched = true := by simpa [interleaves] using hsched
      exact hwait nofun hwaits hrest
    | @move m plan _ t _ hready hmove hplan' =>
      rw [interleaves] at hsched
      split at hsched
      next hturn =>
        subst hturn
        have hnext : step (s.withHost k) = .next (t.withHost { k with turns := sched ++ rest }) := hstep.trans (hmove _)
        rw [List.length_cons, run_succ_of_step hnext]
        exact ih hplan' (everyStepKeepsTheInvariant _ _ hinv hnext) hsched rfl
      next hturn =>
        obtain ⟨hwaits, hrest⟩ : waits (some m) turn = true ∧ interleaves (m :: plan) sched = true := by simpa using hsched
        exact hwait (by simpa using Ne.symm hturn) hwaits hrest

end Sys2Proof.Machine
end

section
/-! PROOF. The plan of a streamed frame with teeing off (44_streaming_loop.md R203, R211, 43_frame_decoder.md R187): the bytes of the frame, one after
the other, then its walk, pixel by pixel. -/

namespace Sys2Proof.Machine

open Sys2Proof.Spec

/-! ### The bytes of a frame -/

theorem Memory.writeBytes_append (m : Memory) (a : Nat) (bs cs : List Byte) :
    m.writeBytes a (bs ++ cs) = (m.writeBytes a bs).writeBytes (a + bs.length) cs := by
  induction bs generalizing m a with
  | nil => rfl
  | cons b bs ih =>
    rw [List.cons_append, Memory.writeBytes, ih, Memory.writeBytes, List.length_cons, Nat.add_right_comm, Nat.add_assoc]

/-- FB has room for a frame, and FILL_LEVEL for its count (R8, R184). -/
abbrev State.frameFits (s : State) : Prop := s.frameBytes ≤ s.params.fbCap ∧ s.frameBytes < 2 ^ 32

/-- The producer's turn in FILLING with a byte (R203). -/
theorem runTurn_producer_byte {s : State} {b : Byte} {q : List (BitVec 10)} (hfilling : s.phase = .filling) (hfits : s.frameFits)
    (hqueue : s.inQ = byteTransfer b :: q) (hlevel : s.fillLevel.toNat < s.frameBytes) :
    runTurn .producer s = .next (if s.fillLevel.toNat + 1 = s.frameBytes then (State.appendByte { s with inQ := q } b).completeFrame
      else State.appendByte { s with inQ := q } b) := by
  have hbyte : decodeInput (byteTransfer b) = .inByte b := decodeInput_eq_inByte_iff.mpr rfl
  rw [runTurn, producerTurn_filling hfilling hqueue, hbyte]
  obtain ⟨hcap, hwrap⟩ := hfits
  exact exec_inByte_filling (s := { s with inQ := q }) hfilling (hlevel.trans_le hcap) (lt_of_le_of_lt hlevel hwrap) b

theorem runTurn_producer_more {s : State} {b : Byte} {q : List (BitVec 10)} (hfilling : s.phase = .filling) (hfits : s.frameFits)
    (hqueue : s.inQ = byteTransfer b :: q) (hmore : s.fillLevel.toNat + 1 < s.frameBytes) :
    runTurn .producer s = .next (State.appendByte { s with inQ := q } b) := by
  rw [runTurn_producer_byte hfilling hfits hqueue (by omega), if_neg (by omega)]

/-- With teeing off the frame's last byte enters DECODING (R203). -/
theorem runTurn_producer_last {s : State} {b : Byte} {q : List (BitVec 10)} (hfilling : s.phase = .filling) (hfits : s.frameFits)
    (hqueue : s.inQ = byteTransfer b :: q) (hlast : s.fillLevel.toNat + 1 = s.frameBytes) (hoff : s.teeActive = false) :
    runTurn .producer s = .next (State.enterDecoding { State.appendByte { s with inQ := q } b with fbValid := true }) := by
  have hcomplete : (State.appendByte { s with inQ := q } b).completeFrame =
      State.enterDecoding { State.appendByte { s with inQ := q } b with fbValid := true } := if_neg (by simp [hoff])
  rw [runTurn_producer_byte hfilling hfits hqueue (by omega), if_pos hlast, hcomplete]

/-- s after bytes that leave the frame incomplete, with the transfers q still to come: FB_VALID is 0 from the frame's first byte on (R203). -/
def State.afterBytes (s : State) (bytes : List Byte) (q : List (BitVec 10)) : State :=
  { s with
    fb := s.fb.writeBytes s.fillLevel.toNat bytes
    fbValid := if bytes = [] then s.fbValid else false
    fillLevel := s.fillLevel + BitVec.ofNat 32 bytes.length
    inQ := q }

theorem State.afterBytes_nil (s : State) : s.afterBytes [] s.inQ = s := by
  simp [State.afterBytes]

/-- The first byte of several (R203). -/
theorem State.afterBytes_cons {s : State} {b : Byte} {bytes : List Byte} {q q' : List (BitVec 10)}
    (hwrap : s.fillLevel.toNat + 1 < 2 ^ 32) (hvalid : (State.appendByte { s with inQ := q' } b).fbValid = false) :
    s.afterBytes (b :: bytes) q = (State.appendByte { s with inQ := q' } b).afterBytes bytes q := by
  have hlevel : (s.fillLevel + 1).toNat = s.fillLevel.toNat + 1 := BitVec.toNat_add_of_lt hwrap
  have hcount : s.fillLevel + BitVec.ofNat 32 (b :: bytes).length = s.fillLevel + 1 + BitVec.ofNat 32 bytes.length := by
    rw [List.length_cons, Nat.add_comm, BitVec.ofNat_add, BitVec.add_assoc]
    rfl
  simp only [State.afterBytes, hvalid, State.appendByte_fb, State.appendByte_fillLevel, hlevel, hcount]
  simp [State.appendByte, Memory.writeBytes]

/-- Bytes that do not complete the frame, by induction on them: each is appended at FILL_LEVEL. -/
theorem performs_bytes {s : State} {bytes : List Byte} {q : List (BitVec 10)} (hfilling : s.phase = .filling) (hfits : s.frameFits)
    (hvalid : s.fillLevel ≠ 0 → s.fbValid = false) (hmore : s.fillLevel.toNat + bytes.length < s.frameBytes)
    (hqueue : s.inQ = bytes.map byteTransfer ++ q) : Performs (List.replicate bytes.length .producer) s (s.afterBytes bytes q) := by
  induction bytes generalizing s with
  | nil =>
    obtain rfl : s.inQ = q := hqueue
    rw [s.afterBytes_nil]
    exact .done (.inl hfilling)
  | cons b bytes ih =>
    rw [List.length_cons] at hmore
    have hwrap : s.fillLevel.toNat + 1 < 2 ^ 32 := by
      obtain ⟨-, hcount⟩ := hfits
      omega
    have hinvalid : (State.appendByte { s with inQ := bytes.map byteTransfer ++ q } b).fbValid = false := by simpa using hvalid
    have hlevel : (s.fillLevel + 1).toNat = s.fillLevel.toNat + 1 := BitVec.toNat_add_of_lt hwrap
    rw [State.afterBytes_cons hwrap hinvalid]
    refine .move hfilling (fun k => ?_) (ih hfilling hfits (fun _ => hinvalid) ?_ rfl)
    · exact runTurn_producer_more (s := s.withHost k) hfilling hfits hqueue (show s.fillLevel.toNat + 1 < s.frameBytes by omega)
    · show (s.fillLevel + 1).toNat + bytes.length < s.frameBytes
      omega

/-- FILLING with no byte of the frame in, teeing off, and a configuration that passes (R201, R211). -/
structure State.AwaitsFrame (s : State) : Prop where
  filling : s.phase = .filling
  empty : s.fillLevel = 0
  teeOff : s.teeActive = false
  configured : s.cfgCause = .noCause
  legal : s.params.Legal

theorem State.frameFits_of_legal {s : State} (hcfg : s.cfgCause = .noCause) (hlegal : s.params.Legal) : s.frameFits := by
  obtain ⟨-, -, hcap⟩ := State.frame_fits hcfg
  obtain ⟨-, hcount, -⟩ := hlegal
  exact ⟨hcap, by omega⟩

/-- s at the start of the walk of a frame, the transfers q still to come (R203, R206). -/
def State.withFrame (s : State) (bytes : List Byte) (q : List (BitVec 10)) : State :=
  { s with
    fb := s.fb.writeBytes 0 bytes, fbValid := true, fillLevel := BitVec.ofNat 32 bytes.length, inQ := q
    walkI := 0, walkJ := 0, phase := .decoding }

/-- FILL_LEVEL counts the bytes of the frame (R37). -/
theorem State.afterBytes_level {s : State} (hempty : s.fillLevel = 0) (bytes : List Byte) (q : List (BitVec 10)) :
    (s.afterBytes bytes q).fillLevel = BitVec.ofNat 32 bytes.length := by
  simp [State.afterBytes, hempty]

theorem State.afterBytes_level_toNat {s : State} (hempty : s.fillLevel = 0) {bytes : List Byte} (hwrap : bytes.length < 2 ^ 32)
    (q : List (BitVec 10)) : (s.afterBytes bytes q).fillLevel.toNat = bytes.length := by
  rw [State.afterBytes_level hempty, BitVec.toNat_ofNat, Nat.mod_eq_of_lt hwrap]

/-- The frame's last byte after its others (R203). -/
theorem State.withFrame_concat {s : State} (hempty : s.fillLevel = 0) {init : List Byte} (hwrap : init.length < 2 ^ 32) (last : Byte)
    (q q' : List (BitVec 10)) :
    State.enterDecoding { State.appendByte { s.afterBytes init q' with inQ := q } last with fbValid := true } =
      s.withFrame (init ++ [last]) q := by
  have hlevel : (s.fillLevel + BitVec.ofNat 32 init.length).toNat = init.length := State.afterBytes_level_toNat hempty hwrap q'
  have hcount : s.fillLevel + BitVec.ofNat 32 init.length + 1 = BitVec.ofNat 32 (init ++ [last]).length := by
    rw [hempty, zero_add, List.length_append, BitVec.ofNat_add]
    rfl
  have hstart : s.fillLevel.toNat = 0 := by rw [hempty]; rfl
  simp only [State.enterDecoding, State.appendByte, State.afterBytes, State.withFrame, hlevel, hcount, hstart, Memory.writeBytes_append,
    Nat.zero_add]
  rfl

/-- The bytes of one frame with teeing off: all but the last leave it incomplete, and the last enters DECODING (R203). -/
theorem performs_frame_bytes {s : State} {bytes : List Byte} {q : List (BitVec 10)} (hs : s.AwaitsFrame) (hbytes : bytes.length = s.frameBytes)
    (hqueue : s.inQ = bytes.map byteTransfer ++ q) : Performs (List.replicate s.frameBytes .producer) s (s.withFrame bytes q) := by
  obtain ⟨hfilling, hempty, hoff, hcfg, hlegal⟩ := hs
  obtain ⟨-, -, hpos⟩ := State.frame_pos hcfg
  have hfits := State.frameFits_of_legal hcfg hlegal
  obtain ⟨init, last, rfl⟩ := (List.eq_nil_or_concat' bytes).resolve_left (List.ne_nil_of_length_pos (hbytes ▸ hpos))
  have hlength : init.length + 1 = s.frameBytes := by simpa using hbytes
  have hwrap : init.length < 2 ^ 32 := by
    obtain ⟨-, hcount⟩ := hfits
    omega
  have hstart : s.fillLevel.toNat = 0 := by rw [hempty]; rfl
  have hlevel := State.afterBytes_level_toNat hempty hwrap (byteTransfer last :: q)
  have hinit := performs_bytes (bytes := init) (q := byteTransfer last :: q) hfilling hfits (absurd hempty) (by omega) (by simpa using hqueue)
  rw [← hlength, List.replicate_succ']
  refine hinit.append (.single hfilling (fun k => ?_) (.inr rfl))
  have hlast := runTurn_producer_last (s := (s.withHost k).afterBytes init (byteTransfer last :: q)) hfilling hfits rfl
    ((congrArg (· + 1) hlevel).trans hlength) hoff
  exact hlast.trans (congrArg _ (State.withFrame_concat (s := s.withHost k) hempty hwrap last q _))

/-! ### The walk of a frame -/

/-- s with the walk's first n pixels written and its position at pixel number m (R186, R187). -/
def State.walkAt (s : State) (n m : Nat) : State :=
  { s with
    surf := s.painted (s.framePixels.take n)
    issued := s.issued ++ s.walkWritesAt (s.framePixels.take n)
    walkI := BitVec.ofNat 16 (m % s.fw)
    walkJ := BitVec.ofNat 16 (m / s.fw) }

/-- s after the whole walk (R187, R211). -/
def State.frameWalked (s : State) : State :=
  State.completeWalk { s with
    surf := s.painted s.framePixels
    issued := s.issued ++ s.walkWritesAt s.framePixels
    walkI := 0
    walkJ := BitVec.ofNat 16 s.fh }

/-- Pixel number n of the frame (R186). -/
theorem State.framePixels_getElem? {s : State} {n : Nat} (hn : n < s.fw * s.fh) :
    n % s.fw < s.fw ∧ n / s.fw < s.fh ∧ s.framePixels[n]? = some (n % s.fw, n / s.fw) := by
  have hw : 0 < s.fw := Nat.pos_of_mul_pos_right (Nat.zero_lt_of_lt hn)
  have hcolumn := Nat.mod_lt n hw
  have hrow : n / s.fw < s.fh := Nat.div_lt_of_lt_mul hn
  have hpixel : s.framePixels[n / s.fw * s.fw + n % s.fw]? = _ := rasterPixels_getElem? hcolumn hrow
  rw [Nat.div_add_mod', Nat.zero_add, Nat.zero_add] at hpixel
  exact ⟨hcolumn, hrow, hpixel⟩

/-- FW and FH are 16-bit fields (R23), so a position in the frame is one. -/
theorem State.fw_lt (s : State) : s.fw < 2 ^ 16 := BitVec.isLt _
theorem State.fh_lt (s : State) : s.fh < 2 ^ 16 := BitVec.isLt _

theorem State.walkAt_position {s : State} (n : Nat) {m : Nat} (hm : m < s.fw * s.fh) :
    (s.walkAt n m).walkI.toNat = m % s.fw ∧ (s.walkAt n m).walkJ.toNat = m / s.fw := by
  obtain ⟨hcolumn, hrow, -⟩ := State.framePixels_getElem? hm
  exact ⟨(BitVec.toNat_ofNat _ _).trans (Nat.mod_eq_of_lt (hcolumn.trans s.fw_lt)),
    (BitVec.toNat_ofNat _ _).trans (Nat.mod_eq_of_lt (hrow.trans s.fh_lt))⟩

/-- The walk's writes up to pixel number n are those before it and its own. -/
theorem State.walkWritesAt_take_succ {s : State} {n : Nat} (hn : n < s.fw * s.fh) :
    s.walkWritesAt (s.framePixels.take (n + 1)) =
      s.walkWritesAt (s.framePixels.take n) ++ s.walkWritesAt [(n % s.fw, n / s.fw)] := by
  obtain ⟨-, -, hpixel⟩ := State.framePixels_getElem? hn
  rw [List.take_add_one, hpixel, State.walkWritesAt, List.map_append]
  rfl

/-- A turn of the walk in DECODING at pixel (i, j) of the frame (R187). -/
theorem runTurn_walk {s : State} {i j : Nat} (hdecoding : s.phase = .decoding) (hcfg : s.cfgCause = .noCause) (hwalkI : s.walkI.toNat = i)
    (hwalkJ : s.walkJ.toNat = j) (hi : i < s.fw) (hj : j < s.fh) :
    runTurn .walk s = .next (State.advanceWalk { s with surf := s.painted [(i, j)], issued := s.issued ++ s.walkWritesAt [(i, j)] }) := by
  subst hwalkI hwalkJ
  rw [runTurn, decodeStep, if_pos hdecoding, decodePixel_eq hcfg hi hj]
  rfl

/-- A turn of the walk after n pixels: pixel number n is written, and the position moves on (R187). -/
theorem runTurn_walk_pixel {s : State} (hdecoding : s.phase = .decoding) (hcfg : s.cfgCause = .noCause) {n : Nat} (hn : n < s.fw * s.fh) :
    runTurn .walk (s.walkAt n n) = .next (s.walkAt (n + 1) n).advanceWalk := by
  obtain ⟨hcolumn, hrow, -⟩ := State.framePixels_getElem? hn
  obtain ⟨hi, hj⟩ := State.walkAt_position n hn
  have hissued : (s.walkAt n n).issued ++ (s.walkAt n n).walkWritesAt [(n % s.fw, n / s.fw)] =
      s.issued ++ s.walkWritesAt (s.framePixels.take (n + 1)) := by
    rw [State.walkWritesAt_take_succ hn, ← List.append_assoc]
    rfl
  have hsurf : s.painted (s.framePixels.take (n + 1)) = (s.walkAt n n).painted [(n % s.fw, n / s.fw)] := by
    rw [State.painted, State.walkWritesAt_take_succ hn, applyWrites_append]
    rfl
  rw [runTurn_walk (s := s.walkAt n n) hdecoding hcfg hi hj hcolumn hrow, hissued, ← hsurf]
  rfl

/-- The column and the row after those of pixel number n (R187). -/
theorem next_position {n w : Nat} (hw : 0 < w) :
    (n + 1) % w = (if n % w + 1 = w then 0 else n % w + 1) ∧ (n + 1) / w = (if n % w + 1 = w then n / w + 1 else n / w) := by
  have hcolumn := Nat.mod_lt n hw
  have hindex := Nat.div_add_mod n w
  split
  next hend =>
    have hnext : n + 1 = w * (n / w + 1) := by rw [Nat.mul_add]; omega
    rw [hnext, Nat.mul_mod_right, Nat.mul_div_cancel_left _ hw]
    exact ⟨rfl, rfl⟩
  next hmore =>
    have hnext : n + 1 = n % w + 1 + w * (n / w) := by omega
    have hinside : n % w + 1 < w := by omega
    constructor
    · rw [hnext, Nat.add_mul_mod_self_left, Nat.mod_eq_of_lt hinside]
    · rw [hnext, Nat.add_mul_div_left _ _ hw, Nat.div_eq_of_lt hinside, Nat.zero_add]

/-- Pixel number n is the frame's last exactly in its last column and row (R186). -/
theorem last_position {n w h : Nat} (hn : n < w * h) : n + 1 = w * h ↔ n % w + 1 = w ∧ n / w + 1 = h := by
  have hw : 0 < w := Nat.pos_of_mul_pos_right (Nat.zero_lt_of_lt hn)
  have hindex := Nat.div_add_mod n w
  constructor
  · intro hlast
    obtain ⟨hcolumn, hrow⟩ := next_position (n := n) hw
    rw [hlast, Nat.mul_mod_right] at hcolumn
    rw [hlast, Nat.mul_div_cancel_left _ hw] at hrow
    split at hcolumn
    next hend => exact ⟨hend, by rw [hrow, if_pos hend]⟩
    next => omega
  · rintro ⟨hcolumn, hrow⟩
    rw [← hrow, Nat.mul_add]
    omega

/-- From a pixel that is not the frame's last to the next in raster order (R187). -/
theorem State.advanceWalk_walkAt_more {s : State} (n : Nat) {m : Nat} (hm : m + 1 < s.fw * s.fh) :
    (s.walkAt n m).advanceWalk = s.walkAt n (m + 1) := by
  have hm' : m < s.fw * s.fh := by omega
  obtain ⟨hcolumn, hrow, -⟩ := State.framePixels_getElem? hm'
  obtain ⟨hi, hj⟩ := State.walkAt_position n hm'
  obtain ⟨hi', hj'⟩ := next_position (n := m) (Nat.zero_lt_of_lt hcolumn)
  have hlast := last_position hm'
  have hmore : (s.walkAt n m).walkI.toNat + 1 < s.fw ∨ (s.walkAt n m).walkJ.toNat + 1 < s.fh := by omega
  have hcolumn' : (if (s.walkAt n m).walkI.toNat + 1 = s.fw then 0 else (s.walkAt n m).walkI + 1) = BitVec.ofNat 16 ((m + 1) % s.fw) := by
    rw [hi, hi']
    split
    · rfl
    · exact (BitVec.ofNat_add _ _).symm
  have hrow' : (if (s.walkAt n m).walkI.toNat + 1 = s.fw then (s.walkAt n m).walkJ + 1 else (s.walkAt n m).walkJ) =
      BitVec.ofNat 16 ((m + 1) / s.fw) := by
    rw [hi, hj']
    split
    · exact (BitVec.ofNat_add _ _).symm
    · rfl
  rw [State.advanceWalk_of_not_last (hi.trans_lt hcolumn) (hj.trans_lt hrow) hmore, State.walkAt.eq_def s n (m + 1), ← hcolumn', ← hrow']
  rfl

/-- From the frame's last pixel to FILLING (R187, R211). -/
theorem State.advanceWalk_walkAt_last {s : State} {m : Nat} (hm : m + 1 = s.fw * s.fh) :
    (s.walkAt (m + 1) m).advanceWalk = s.frameWalked := by
  have hm' : m < s.fw * s.fh := by omega
  obtain ⟨hi, hj⟩ := State.walkAt_position (m + 1) hm'
  obtain ⟨hcolumn, hrow⟩ := (last_position hm').mp hm
  have hall : s.framePixels.take (m + 1) = s.framePixels := List.take_of_length_le (by rw [rasterPixels_length, hm])
  have hend : (s.walkAt (m + 1) m).walkJ + 1 = BitVec.ofNat 16 s.fh := by
    rw [← hrow, BitVec.ofNat_add]
    rfl
  rw [State.advanceWalk_of_last ((congrArg (· + 1) hi).trans hcolumn) ((congrArg (· + 1) hj).trans hrow), hend, State.walkAt, hall]
  rfl

theorem State.walkAt_zero {s : State} (hi : s.walkI = 0) (hj : s.walkJ = 0) : s.walkAt 0 0 = s := by
  have hissued : s.issued ++ s.walkWritesAt (s.framePixels.take 0) = s.issued := List.append_nil _
  have hposition : BitVec.ofNat 16 (0 % s.fw) = s.walkI ∧ BitVec.ofNat 16 (0 / s.fw) = s.walkJ := by
    rw [Nat.zero_mod, Nat.zero_div, hi, hj]
    exact ⟨rfl, rfl⟩
  obtain ⟨hcolumn, hrow⟩ := hposition
  rw [State.walkAt, hissued, hcolumn, hrow]
  rfl

/-- The walk of a frame from its pixel number n on, by induction on the pixels that are left after it (R187). -/
theorem performs_walk_from {s : State} (hdecoding : s.phase = .decoding) (hcfg : s.cfgCause = .noCause) (left n : Nat)
    (hn : n + left + 1 = s.fw * s.fh) : Performs (List.replicate (left + 1) .walk) (s.walkAt n n) s.frameWalked := by
  induction left generalizing n with
  | zero =>
    refine .single hdecoding (fun k => ?_) (.inl rfl)
    exact (runTurn_walk_pixel (s := s.withHost k) hdecoding hcfg (show n < s.fw * s.fh by omega)).trans
      (congrArg _ (State.advanceWalk_walkAt_last (s := s.withHost k) hn))
  | succ left ih =>
    refine .move hdecoding (fun k => ?_) (ih (n + 1) (by omega))
    exact (runTurn_walk_pixel (s := s.withHost k) hdecoding hcfg (show n < s.fw * s.fh by omega)).trans
      (congrArg _ (State.advanceWalk_walkAt_more (s := s.withHost k) (n + 1) (show n + 1 < s.fw * s.fh by omega)))

/-- The walk of a whole frame (R186, R187, R211). -/
theorem performs_walk {s : State} (hdecoding : s.phase = .decoding) (hcfg : s.cfgCause = .noCause) (hi : s.walkI = 0) (hj : s.walkJ = 0) :
    Performs (List.replicate (s.fw * s.fh) .walk) s s.frameWalked := by
  obtain ⟨hw, hh, -⟩ := State.frame_pos hcfg
  obtain ⟨left, hleft⟩ := Nat.exists_eq_succ_of_ne_zero (Nat.mul_pos hw hh).ne'
  have hwalk := performs_walk_from hdecoding hcfg left 0 (by omega)
  rwa [State.walkAt_zero hi hj, ← Nat.succ_eq_add_one, ← hleft] at hwalk

/-! ### A frame -/

/-- s after one frame has come in and has been walked, with teeing off (R203, R187, R211). -/
def State.afterFrame (s : State) (bytes : List Byte) (q : List (BitVec 10)) : State := (s.withFrame bytes q).frameWalked

/-- The plan of one frame with teeing off (R203, R187, R211). -/
theorem performs_frame {s : State} {bytes : List Byte} {q : List (BitVec 10)} (hs : s.AwaitsFrame) (hbytes : bytes.length = s.frameBytes)
    (hqueue : s.inQ = bytes.map byteTransfer ++ q) : Performs (frameTurns s) s (s.afterFrame bytes q) :=
  (performs_frame_bytes hs hbytes hqueue).append (performs_walk (s := s.withFrame bytes q) rfl hs.configured rfl rfl)

theorem State.afterFrame_sameConfig (s : State) (bytes : List Byte) (q : List (BitVec 10)) : sameConfig s (s.afterFrame bytes q) := by
  simp [sameConfig, State.afterFrame, State.withFrame, State.frameWalked]

/-- The next frame finds the configuration as this one did (R122, R184). -/
theorem State.afterFrame_cfgCause (s : State) (bytes : List Byte) (q : List (BitVec 10)) : (s.afterFrame bytes q).cfgCause = s.cfgCause := by
  refine State.cfgCause_congr ?_ ?_ (s.afterFrame_sameConfig bytes q) <;> simp [State.afterFrame, State.withFrame, State.frameWalked]

theorem State.AwaitsFrame.afterFrame {s : State} (hs : s.AwaitsFrame) (bytes : List Byte) (q : List (BitVec 10)) :
    (s.afterFrame bytes q).AwaitsFrame where
  filling := rfl
  empty := rfl
  teeOff := hs.teeOff
  configured := (s.afterFrame_cfgCause bytes q).trans hs.configured
  legal := hs.legal

end Sys2Proof.Machine
end

section
/-! PROOF. The statements of 44_streaming_loop.md on runs in any interleaving (60_exceptions.md R240): the tee of a frame (R214), one frame with
teeing off, and the run from START to the end of the stream (R213). -/

namespace Sys2Proof.Machine

open Sys2Proof.Spec

/-! ### The tee of a frame -/

theorem State.fbSlice_append (s : State) (a m n : Nat) : s.fbSlice a m ++ s.fbSlice (a + m) n = s.fbSlice a (m + n) := by
  rw [State.fbSlice, State.fbSlice, State.fbSlice, ← List.map_append, List.range'_append_1]

/-- The sink's turn in TEEING with a SINK_ACC within the offer (R207). -/
theorem runTurn_sink_progress {s : State} {n : Word} {q : List (BitVec 34)} (hteeing : s.phase = .teeing) (hqueue : s.sinkQ = accResponse n :: q)
    (hn : 0 < n.toNat) (hoffer : s.teeOff.toNat + n.toNat ≤ s.frameBytes) (hcap : s.frameBytes ≤ s.params.fbCap) :
    runTurn .sink s = .next (State.teeProgress { s with sinkQ := q } n (s.fbSlice s.teeOff.toNat n.toNat)) := by
  have hdecode : decodeTransfer (.sink (accResponse n)) = .ok (.sinkAcc n) := decodeSink_eq_sinkAcc_iff.mpr rfl
  rw [runTurn, sinkTurn_teeing hteeing hqueue, runTransfer_of_decodes hdecode]
  exact exec_sinkAcc_progress (s := { s with sinkQ := q }) hteeing hn hoffer hcap

/-- s after the sink has taken bytes of the frame and more are left (R207). -/
def State.teed (s : State) (n : Word) (q : List (BitVec 34)) : State :=
  { s with
    teeOff := s.teeOff + n, teeRetries := 0, sinkBytes := s.sinkBytes ++ s.fbSlice s.teeOff.toNat n.toNat, sinkQ := q }

theorem runTurn_sink_more {s : State} {n : Word} {q : List (BitVec 34)} (hteeing : s.phase = .teeing) (hqueue : s.sinkQ = accResponse n :: q)
    (hfits : s.frameFits) (hn : 0 < n.toNat) (hmore : s.teeOff.toNat + n.toNat < s.frameBytes) : runTurn .sink s = .next (s.teed n q) := by
  obtain ⟨hcap, hwrap⟩ := hfits
  have hnext : (s.teeOff + n).toNat = s.teeOff.toNat + n.toNat := BitVec.toNat_add_of_lt (by omega)
  rw [runTurn_sink_progress hteeing hqueue hn hmore.le hcap]
  exact congrArg _ (if_neg (show (s.teeOff + n).toNat ≠ s.frameBytes by omega))

theorem runTurn_sink_last {s : State} {n : Word} {q : List (BitVec 34)} (hteeing : s.phase = .teeing) (hqueue : s.sinkQ = accResponse n :: q)
    (hfits : s.frameFits) (hn : 0 < n.toNat) (hlast : s.teeOff.toNat + n.toNat = s.frameBytes) :
    runTurn .sink s = .next (s.teed n q).enterDecoding := by
  obtain ⟨hcap, hwrap⟩ := hfits
  have hnext : (s.teeOff + n).toNat = s.teeOff.toNat + n.toNat := BitVec.toNat_add_of_lt (by omega)
  rw [runTurn_sink_progress hteeing hqueue hn hlast.le hcap]
  exact congrArg _ (if_pos (show (s.teeOff + n).toNat = s.frameBytes by omega))

/-- The plan of the sink's turns, by induction on the counts: the rest of the frame goes to the sink (R207, R214). -/
theorem performs_tee {s : State} {counts : List Word} {q : List (BitVec 34)} (hteeing : s.phase = .teeing) (hfits : s.frameFits)
    (hprogress : ∀ n ∈ counts, 0 < n.toNat) (hsum : s.teeOff.toNat + (counts.map BitVec.toNat).sum = s.frameBytes)
    (hsome : counts ≠ []) (hqueue : s.sinkQ = counts.map accResponse ++ q) :
    ∃ off, Performs (List.replicate counts.length .sink) s (State.enterDecoding { s with
      teeOff := off, teeRetries := 0, sinkQ := q
      sinkBytes := s.sinkBytes ++ s.fbSlice s.teeOff.toNat (counts.map BitVec.toNat).sum }) := by
  induction counts generalizing s with
  | nil => exact absurd rfl hsome
  | cons n counts ih =>
    have hn : 0 < n.toNat := hprogress n List.mem_cons_self
    have hwrap : s.frameBytes < 2 ^ 32 := hfits.2
    rw [List.map_cons, List.sum_cons] at hsum ⊢
    by_cases hrest : counts = []
    · subst hrest
      exact ⟨s.teeOff + n, .single hteeing (fun k => runTurn_sink_last (s := s.withHost k) hteeing hqueue hfits hn hsum) (.inr rfl)⟩
    · obtain ⟨m, hm⟩ := List.exists_mem_of_ne_nil counts hrest
      have hleft : m.toNat ≤ (counts.map BitVec.toNat).sum := List.single_le_sum (by simp) _ (List.mem_map_of_mem hm)
      have hmpos : 0 < m.toNat := hprogress m (List.mem_cons_of_mem _ hm)
      have hmore : s.teeOff.toNat + n.toNat < s.frameBytes := by omega
      have hnext : (s.teeOff + n).toNat = s.teeOff.toNat + n.toNat := BitVec.toNat_add_of_lt (by omega)
      obtain ⟨off, hplan⟩ := ih (s := s.teed n (counts.map accResponse ++ q)) hteeing hfits
        (fun m hm => hprogress m (List.mem_cons_of_mem _ hm)) (by show (s.teeOff + n).toNat + _ = s.frameBytes; omega) hrest rfl
      refine ⟨off, .move (t := s.teed n (counts.map accResponse ++ q)) hteeing
        (fun k => runTurn_sink_more (s := s.withHost k) hteeing hqueue hfits hn hmore) ?_⟩
      have hbytes : s.sinkBytes ++ s.fbSlice s.teeOff.toNat (n.toNat + (counts.map BitVec.toNat).sum) =
          (s.teed n (counts.map accResponse ++ q)).sinkBytes ++ s.fbSlice (s.teeOff + n).toNat (counts.map BitVec.toNat).sum := by
        rw [hnext, ← s.fbSlice_append, ← List.append_assoc]
        rfl
      rw [hbytes]
      exact hplan

/-- Settles O39: the sink's turns alone deliver the frame, and no other turn of the interleaving reaches it. -/
theorem teeDeliversTheWholeFrame : Obligations.TeeDeliversTheWholeFrame := by
  unfold Obligations.TeeDeliversTheWholeFrame
  intro s counts q sched rest hs hteeing hoff hprogress hsum hqueue hsched hturns
  have hcfg := hs.runConfigValid (.inr (.inl hteeing))
  obtain ⟨-, -, hpos⟩ := State.frame_pos hcfg
  obtain ⟨-, hframe, hwhole, -⟩ := hs.frameConsistent
  obtain ⟨hvalid, -⟩ := hframe (.inl hteeing)
  obtain ⟨htee, -⟩ := hs.teeConsistent
  obtain ⟨hon, -, -⟩ := htee hteeing
  have hstart : s.teeOff.toNat = 0 := by rw [hoff]; rfl
  have hsome : counts ≠ [] := by
    rintro rfl
    exact hpos.ne hsum
  obtain ⟨off, hplan⟩ := performs_tee hteeing (State.frameFits_of_legal hcfg hs.paramsLegal) hprogress (by omega) hsome hqueue
  obtain ⟨k, hrun, hrest, -⟩ := run_of_performs (k := s) hplan hs hsched hturns
  refine ⟨_, s.fbSlice 0 s.frameBytes, hrun, rfl, hon, rfl, rfl, rfl, rfl, rfl, rfl, rfl, hrest, ?_, s.fbSlice_length _ _, fun i hi => ?_⟩
  · rw [← hsum, ← hstart]
    rfl
  · obtain ⟨b, hb⟩ := Option.isSome_iff_exists.mp (hwhole hvalid i hi)
    rw [s.fbSlice_getElem? hi, Nat.zero_add, fbByte, hb]
    rfl

/-! ### One frame with teeing off -/

theorem State.Inv.awaitsFrame {s : State} (hs : s.Inv) (hfilling : s.phase = .filling) (hempty : s.fillLevel = 0) (hoff : s.teeActive = false) :
    s.AwaitsFrame where
  filling := hfilling
  empty := hempty
  teeOff := hoff
  configured := hs.runConfigValid (.inl hfilling)
  legal := hs.paramsLegal

/-- The walk's value at a pixel depends on FB, FRAME_GEOM and the surface's format (R185). -/
theorem walkPixel_congr {s t : State} (hfb : t.fb = s.fb) (hresets : t.resets = s.resets) (hframe : t.frameGeom = s.frameGeom)
    (hbpp : t.surfBpp = s.surfBpp) (hlayout : t.chanLayout = s.chanLayout) : walkPixel t = walkPixel s := by
  have hbyte : fbByte t = fbByte s := by
    funext k
    rw [fbByte, fbByte, hfb, hresets]
  have hfw : t.fw = s.fw := congrArg (bitField · 0 16) hframe
  have hfh : t.fh = s.fh := congrArg (bitField · 16 16) hframe
  have hbits : t.bpp = s.bpp := congrArg (bitField · 0 8) hbpp
  have hpixel : pixelOf t = pixelOf s := by
    funext y u v
    rw [pixelOf, pixelOf, hbits, hlayout]
  funext i j
  rw [walkPixel, walkPixel, hbyte, hfw, hfh, hpixel]

/-- Settles O40: the frame's bytes and walk alone paint it, and no other turn of the interleaving reaches it. -/
theorem streamingDecodesOneFrame : Obligations.StreamingDecodesOneFrame := by
  unfold Obligations.StreamingDecodesOneFrame
  intro s bytes q sched rest hs hfilling hempty hoff hbytes hqueue hsched hturns
  have hready := hs.awaitsFrame hfilling hempty hoff
  have hcfg : (s.withFrame bytes q).cfgCause = .noCause := hready.configured
  obtain ⟨k, hrun, hrest, -⟩ := run_of_performs (k := s) (performs_frame hready hbytes hqueue) hs hsched hturns
  have hvalue : walkPixel ((s.afterFrame bytes q).withHost k) = walkPixel (s.withFrame bytes q) := walkPixel_congr rfl rfl rfl rfl rfl
  refine ⟨_, (s.withFrame bytes q).walkWritesAt s.framePixels, hrun, hrest, rfl, rfl, rfl, rfl, hoff, rfl, rfl, s.afterFrame_sameConfig bytes q,
    fun i hi => ?_, fun i j hi hj => ?_, fun a ha => ?_, rfl, ?_, rfl, fun i j hi hj => ?_⟩
  · have hread := Memory.read_writeBytes_inside bytes s.fb 0 i (hbytes ▸ hi)
    rw [Nat.zero_add] at hread
    exact hread.trans (List.getElem?_eq_getElem _).symm
  · rw [hvalue]
    exact State.pixelHolds_painted hcfg (fun p hp => (State.mem_framePixels.mp hp).1) (State.mem_framePixels.mpr ⟨hi, hj⟩)
  · refine State.read_painted_outside (s := s.withFrame bytes q) fun i j hp => ?_
    obtain ⟨hi, hj⟩ := State.mem_framePixels.mp hp
    exact ha i j hi hj
  · rw [State.walkWritesAt_length, rasterPixels_length]
  · rw [hvalue, State.walkWritesAt, List.getElem?_map, rasterPixels_getElem? hi hj, Nat.zero_add, Nat.zero_add]
    rfl

/-! ### A run with teeing off -/

/-- The plan of several frames, by induction on them (R211, R213). -/
theorem performs_frames {s : State} {frames : List (List Byte)} {q : List (BitVec 10)} (hs : s.AwaitsFrame)
    (hbytes : ∀ f ∈ frames, f.length = s.frameBytes) (hqueue : s.inQ = frames.flatten.map byteTransfer ++ q) :
    ∃ u, Performs (frames.map fun _ => frameTurns s).flatten s u ∧ u.AwaitsFrame ∧ u.frameBytes = s.frameBytes ∧ u.inQ = q ∧
      u.decodeCount = s.decodeCount + BitVec.ofNat 32 frames.length ∧ u.fbValid = (s.fbValid || decide (frames ≠ [])) := by
  induction frames generalizing s with
  | nil => exact ⟨s, .done (.inl hs.filling), hs, rfl, hqueue, (BitVec.add_zero _).symm, (Bool.or_false _).symm⟩
  | cons f frames ih =>
    rw [List.flatten_cons, List.map_append, List.append_assoc] at hqueue
    have hframe := performs_frame hs (hbytes f List.mem_cons_self) hqueue
    obtain ⟨u, hplan, hready, hsize, hrest, hcount, hvalid⟩ :=
      ih (hs.afterFrame f (frames.flatten.map byteTransfer ++ q)) (fun g hg => hbytes g (List.mem_cons_of_mem _ hg)) rfl
    refine ⟨u, hframe.append hplan, hready, hsize, hrest, ?_, hvalid.trans ?_⟩
    · rw [hcount, List.length_cons, Nat.add_comm, BitVec.ofNat_add, ← BitVec.add_assoc]
      rfl
    · show true = _
      simp

theorem run_add_of_run {m : Nat} {s t : State} (h : run m s = .next t) (n : Nat) : run (m + n) s = run n t := by
  induction m generalizing s with
  | zero => cases h; rw [Nat.zero_add]
  | succ m ih =>
    rw [run] at h
    rw [Nat.add_right_comm, run]
    split at h
    · exact ih h
    · cases h
    · cases h

/-- The host's turn with a START whose configuration passes, with no tee: the run awaits its first frame (R201). -/
theorem step_start {s : State} {q : List BusRequest} {rest : List Turn} (hs : s.Inv) (hidle : s.phase = .idle) (hcfg : s.cfgCause = .noCause)
    (hoff : s.teeEn = false) (hqueue : s.hostQ = ⟨0x630, 5⟩ :: q) (hturns : s.turns = .host :: rest) :
    ∃ t, step s = .next t ∧ t.AwaitsFrame ∧ t.turns = rest ∧ t.inQ = s.inQ ∧ t.fbValid = false ∧ t.decodeCount = s.decodeCount ∧
      t.frameBytes = s.frameBytes ∧ frameTurns t = frameTurns s := by
  obtain ⟨-, -, -, hvalid⟩ := hs.frameConsistent
  refine ⟨_, (step_host hturns hqueue).trans (exec_start_begins hidle hcfg), ⟨rfl, rfl, hoff, hcfg, hs.paramsLegal⟩, rfl, rfl, hvalid hidle,
    rfl, rfl, rfl⟩

/-- The producer's turn in FILLING with IN_EOS (R204). -/
theorem step_inEos {s : State} {q : List (BitVec 10)} {rest : List Turn} (hfilling : s.phase = .filling) (hqueue : s.inQ = 0x100 :: q)
    (hturns : s.turns = .producer :: rest) :
    step s = .next { s with turns := rest, inQ := q, termCause := false, phase := .terminated } :=
  (step_of_turn hturns).trans ((producerTurn_filling (s := { s with turns := rest }) hfilling hqueue).trans (if_pos hfilling))

/-- Settles O41: START, the plan of the frames and the tail, and the end of the stream. -/
theorem runDecodesExactlyTheWholeFrames : Obligations.RunDecodesExactlyTheWholeFrames := by
  unfold Obligations.RunDecodesExactlyTheWholeFrames
  intro s frames tail hq q sched rest hs hidle hcfg hoff hframes htail hhost hqueue hsched hturns
  obtain ⟨s₁, hstart, hready, hturns₁, hqueue₁, hvalid₁, hcount₁, hsize₁, hplan₁⟩ := step_start hs hidle hcfg hoff hhost hturns
  rw [List.map_append, List.append_assoc] at hqueue
  obtain ⟨u, hplan, hready', hsize, hqueue', hcount, hvalid⟩ :=
    performs_frames hready (fun f hf => (hframes f hf).trans hsize₁.symm) (hqueue₁.trans hqueue)
  have hfits := State.frameFits_of_legal hready'.configured hready'.legal
  have hwrap : u.frameBytes < 2 ^ 32 := hfits.2
  have hlevel : u.fillLevel.toNat + tail.length < u.frameBytes := by
    rw [hready'.empty, hsize, hsize₁]
    simpa using htail
  have htailPlan := performs_bytes hready'.filling hfits (absurd hready'.empty) hlevel hqueue'
  rw [← hplan₁] at hsched
  have hs₁ := everyStepKeepsTheInvariant s s₁ hs hstart
  obtain ⟨k, hrun, hturns', -⟩ := run_of_performs (k := s₁) (hplan.append htailPlan) hs₁ hsched hturns₁
  have hend := step_inEos (s := (u.afterBytes tail (0x100 :: q)).withHost k) hready'.filling rfl hturns'
  have hall : run (sched.length + 2) s = .next _ :=
    (run_succ_of_step hstart _).trans ((run_add_of_run hrun 1).trans (run_one_of_step hend))
  refine ⟨_, hall, rfl, rfl, rfl, rfl, rfl, ?_, ?_, ?_⟩
  · exact hcount.trans (by rw [hcount₁])
  · exact State.afterBytes_level_toNat hready'.empty (by omega) (0x100 :: q)
  · show (if tail = [] then u.fbValid else false) = _
    rw [hvalid, hvalid₁]
    by_cases h : tail = [] <;> simp [h]

end Sys2Proof.Machine
end

section
/-! PROOF. The statements of 60_exceptions.md: the response to a malformed register request (R237), the first command error, which CMD_ERR keeps
(R236, R241), and SURFACE_LOST, the fault of a fall of surf_ready (R238). -/

namespace Sys2Proof.Machine

open Sys2Proof.Spec

/-! ### Malformed requests -/

theorem exec_regwr_malformed {size : BitVec 2} {addr : BitVec 8} (h : malformed size addr) (data : Word) (s : State) :
    exec (.regwr size addr data) s = .next (s.respond (.written .busErr)) := by
  simp only [exec, execRegwr, selectReg_eq_none_iff.mpr h]

/-- Settles O2: a malformed request selects no register. -/
theorem malformedRequestsGetBusErr : Obligations.MalformedRequestsGetBusErr := by
  unfold Obligations.MalformedRequestsGetBusErr
  intro size addr data s h
  exact ⟨exec_regrd_malformed h s, exec_regwr_malformed h data s⟩

/-! ### The first command error -/

/-- s and t hold the same command error (R35). -/
abbrev State.SameError (s t : State) : Prop := t.cmdErrCode = s.cmdErrCode ∧ t.cmdErrCause = s.cmdErrCause

/-- t holds no command error (R236). -/
abbrev State.ErrorCleared (t : State) : Prop := t.cmdErrCode = .noError ∧ t.cmdErrCause = .noCause

/-- An error that CMD_ERR holds already is not replaced (R236). -/
theorem State.raiseCmdError_of_error {s : State} (hcode : s.cmdErrCode ≠ .noError) (c : CmdErrCode) (k : CfgCause) :
    s.raiseCmdError c k = s := if_neg hcode

theorem surfaceCommand_sameError {err : Option (CmdErrCode × CfgCause)} {ws : Except Fault (List SurfWrite)} {done : State → State}
    (hdone : ∀ u, State.SameError u (done u)) {s t : State} (hcode : s.cmdErrCode ≠ .noError) (h : surfaceCommand err ws done s = .next t) :
    s.SameError t := by
  rcases surfaceCommand_next h with ⟨c, k, -, rfl⟩ | ⟨l, -, -, rfl⟩
  · rw [State.raiseCmdError_of_error hcode]
    exact ⟨rfl, rfl⟩
  · exact hdone ((s.writeSurface l).completeCommand l)

/-- A command's own error, if it ends with one, comes second (R95, R236). -/
theorem runCommand_sameError {c : Command} {s t : State} (hcode : s.cmdErrCode ≠ .noError) (h : runCommand c s = .next t) :
    s.SameError t := by
  have hraise := State.raiseCmdError_of_error hcode
  cases c with
  | cvt => rcases execCvt_next h with ⟨-, rfl⟩ | ⟨-, rfl⟩ <;> simp [State.SameError, hraise]
  | wrpix | fill => exact surfaceCommand_sameError (fun _ => ⟨rfl, rfl⟩) hcode h
  | decode => exact surfaceCommand_sameError (done := State.countDecode) (fun _ => ⟨rfl, rfl⟩) hcode h
  | start => rcases execStart_next h with ⟨-, rfl⟩ | ⟨-, -, rfl⟩ | ⟨-, -, rfl⟩ <;> simp [State.SameError, hraise]

theorem State.storeReg_sameError (s : State) {r : Reg} (h : r ≠ .cmdErr) (d : Word) : s.SameError (s.storeReg r d) := by
  cases r with
  | cmdErr => exact absurd rfl h
  | ctrl | frameGeom | surfGeom | surfStride | surfBpp | chanLayout | pixfmt | arg0 | arg1 | arg2 | arg3 | cmd | resRgb | resPix | status
  | decodeCount | fillLevel => exact ⟨rfl, rfl⟩

theorem State.writeReg_sameError {s : State} (hcode : s.cmdErrCode ≠ .noError) {r : Reg} (h : r ≠ .cmdErr) (d : Word) :
    s.SameError (s.writeReg r d) := by
  rcases s.writeReg_cases r d with ⟨-, -, e⟩ | ⟨-, e⟩ <;> rw [e]
  · rw [State.raiseCmdError_of_error hcode]
    exact ⟨rfl, rfl⟩
  · exact s.storeReg_sameError h d

/-- A register write keeps the error unless it is a word write to CMD_ERR (R121, R236). -/
theorem execRegwr_sameError {size : BitVec 2} {addr : BitVec 8} {data : Word} {s t : State} (hcode : s.cmdErrCode ≠ .noError)
    (hother : ¬ (size = 2 ∧ addr = 0x40)) (h : execRegwr size addr data s = .next t) : s.SameError t := by
  unfold execRegwr at h
  split at h
  · cases h
    exact ⟨rfl, rfl⟩
  · rename_i r hreg
    split at h
    · rcases runCommandWord_next h with ⟨e, -, rfl | rfl⟩ | ⟨c, -, hc⟩
      · simp [State.SameError, State.raiseCmdError_of_error hcode]
      · simp [State.SameError, State.raiseCmdError_of_error hcode]
      · exact runCommand_sameError hcode hc
    · have hr : r ≠ .cmdErr := fun e => hother (selectReg_eq_some_iff.mp (e ▸ hreg))
      cases finish_next h
      exact State.writeReg_sameError hcode hr data

/-- Every instruction but the word write to CMD_ERR keeps the error. -/
theorem exec_sameError {i : Instr} {s t : State} (hcode : s.cmdErrCode ≠ .noError) (hother : ∀ d, i ≠ .regwr 2 0x40 d)
    (h : exec i s = .next t) : s.SameError t := by
  cases i with
  | regrd size addr => obtain ⟨r, rfl⟩ := execRegrd_next h; exact ⟨rfl, rfl⟩
  | regwr size addr data =>
    refine execRegwr_sameError hcode ?_ h
    rintro ⟨rfl, rfl⟩
    exact hother data rfl
  | cvt => exact runCommand_sameError (c := .cvt) hcode h
  | wrpix => exact runCommand_sameError (c := .wrpix) hcode h
  | fill => exact runCommand_sameError (c := .fill) hcode h
  | decode => exact runCommand_sameError (c := .decode) hcode h
  | start => exact runCommand_sameError (c := .start) hcode h
  | inByte d => rcases execInByte_next h with ⟨-, rfl⟩ | ⟨-, -, ⟨-, rfl⟩ | ⟨-, rfl⟩⟩ <;> simp [State.SameError]
  | inEos => simp only [exec, execInEos] at h; split at h <;> cases h <;> exact ⟨rfl, rfl⟩
  | inErr => simp only [exec, execInErr] at h; split at h <;> cases h <;> exact ⟨rfl, rfl⟩
  | sinkAcc n => rcases execSinkAcc_next h with ⟨-, rfl⟩ | ⟨-, -, rfl⟩ | ⟨bytes, -, -, -, -, rfl⟩ <;> simp [State.SameError]
  | sinkFail => simp only [exec, execSinkFail] at h; split at h <;> cases h <;> simp [State.SameError]
  | sinkClosed => simp only [exec, execSinkClosed] at h; split at h <;> cases h <;> exact ⟨rfl, rfl⟩

/-- The word write to CMD_ERR clears it, whatever the data and the STATE (R121). -/
theorem exec_regwr_cmdErr_clears {d : Word} {s t : State} (h : exec (.regwr 2 0x40 d) s = .next t) : t.ErrorCleared := by
  have hstored : exec (.regwr 2 0x40 d) s = .next (okay (s.storeReg .cmdErr d)) :=
    exec_regwr_stored (r := .cmdErr) (by decide) (.inl rfl) d
  cases hstored.symm.trans h
  exact ⟨rfl, rfl⟩

/-- An instruction keeps the error, or is the word write to CMD_ERR and clears it. -/
theorem exec_keeps_or_clears_error {i : Instr} {s t : State} (hcode : s.cmdErrCode ≠ .noError) (h : exec i s = .next t) :
    s.SameError t ∨ (t.ErrorCleared ∧ ∃ d, i = .regwr 2 0x40 d) := by
  by_cases hclear : ∃ d, i = .regwr 2 0x40 d
  · obtain ⟨d, rfl⟩ := hclear
    exact .inr ⟨exec_regwr_cmdErr_clears h, d, rfl⟩
  · exact .inl (exec_sameError hcode (not_exists.mp hclear) h)

/-- The turn is a reset, or a turn of the host that performs a word write to CMD_ERR (R236, R260). -/
abbrev Turn.ClearsError (turn : Turn) (s : State) : Prop :=
  turn.isReset = true ∨
    ((turn = .host ∨ turn = .hostSurfLost) ∧ ∃ r ∈ s.hostQ.head?, ∃ d, decodeBus r.req r.data = .regwr 2 0x40 d)

/-- An agent's turn keeps the error, or it is one that clears it. -/
theorem runTurn_keeps_or_clears_error {turn : Turn} {s t : State} (hcode : s.cmdErrCode ≠ .noError) (h : runTurn turn s = .next t) :
    s.SameError t ∨ (t.ErrorCleared ∧ turn.ClearsError s) := by
  cases turn with
  | host =>
    rcases hostTurn_next h with ⟨-, rfl⟩ | ⟨r, q, hqueue, he⟩
    · exact .inl ⟨rfl, rfl⟩
    · refine (exec_keeps_or_clears_error (s := s.takeRequest _ q) hcode he).imp_right fun ⟨hcleared, hwrite⟩ => ?_
      exact ⟨hcleared, .inr ⟨.inl rfl, r, by simp [hqueue], hwrite⟩⟩
  | hostSurfLost =>
    rcases hostTurnSurfLost_next h with ⟨-, hl⟩ | ⟨r, q, u, hqueue, -, he, hl⟩ <;> obtain ⟨rfl, -⟩ := lowerSurfReady_next hl
    · exact .inl ⟨rfl, rfl⟩
    · refine (exec_keeps_or_clears_error (s := s.takeRequest _ q) hcode he).imp_right fun ⟨hcleared, hwrite⟩ => ?_
      exact ⟨hcleared, .inr ⟨.inr rfl, r, by simp [hqueue], hwrite⟩⟩
  | producer =>
    rcases producerTurn_next h with rfl | ⟨w, q, -, -, he⟩
    · exact .inl ⟨rfl, rfl⟩
    · refine .inl (exec_sameError (s := { s with inQ := q }) hcode (fun d hd => ?_) he)
      rcases decodeInput_cases w with ⟨b, e⟩ | e | e <;> cases e.symm.trans hd
  | sink =>
    rcases sinkTurn_next h with rfl | ⟨w, q, i, -, -, hi, he⟩
    · exact .inl ⟨rfl, rfl⟩
    · refine .inl (exec_sameError (s := { s with sinkQ := q }) hcode (fun d hd => ?_) he)
      rcases decodeSink_cases hi with ⟨n, rfl⟩ | rfl | rfl <;> cases hd
  | walk => rcases decodeStep_next h with ⟨-, rfl⟩ | ⟨w, -, -, rfl⟩ <;> exact .inl (by simp [State.SameError])
  | surfReady level =>
    cases level with
    | true => cases h; exact .inl ⟨rfl, rfl⟩
    | false => obtain ⟨rfl, -⟩ := lowerSurfReady_next h; exact .inl ⟨rfl, rfl⟩
  | readSurface n | readAfterPoll n | readAfterCommand n => cases h; exact .inl ⟨rfl, rfl⟩
  | reset => cases h; exact .inr ⟨⟨rfl, rfl⟩, .inl rfl⟩
  | resetDuring n =>
    rcases resetDuringTurn_next h with ⟨q, rfl⟩ | ⟨r, q, ws, -, -, rfl⟩ <;> exact .inr ⟨⟨rfl, rfl⟩, .inl rfl⟩

/-- Settles O8: with no turn left nothing changes, and a turn that does not keep the error is one that clears it. -/
theorem firstCommandErrorIsKept : Obligations.FirstCommandErrorIsKept := by
  unfold Obligations.FirstCommandErrorIsKept
  intro s t h hcode
  rcases step_next h with ⟨-, rfl⟩ | ⟨turn, rest, hturns, hr⟩
  · exact .inl ⟨rfl, rfl⟩
  · refine (runTurn_keeps_or_clears_error (s := { s with turns := rest }) hcode hr).imp_right ?_
    rintro ⟨⟨hcode', hcause'⟩, hclears⟩
    refine ⟨hcode', hcause', hclears.imp (fun hreset => ?_) fun ⟨hhost, hwrite⟩ => ⟨?_, hwrite⟩⟩
    · exact ⟨turn, by simp [hturns], hreset⟩
    · simpa [hturns] using hhost

/-! ### A fall of surf_ready -/

/-- A fall during a run is SURFACE_LOST (R238). -/
theorem lowerSurfReady_running {s : State} (hready : s.surfReady = true) (hrun : s.running) : lowerSurfReady s = .fault .surfaceLost :=
  if_pos ⟨hready, hrun⟩

theorem lowerSurfReady_not_running {s : State} (hrun : ¬ s.running) : lowerSurfReady s = .next { s with surfReady := false } :=
  if_neg fun ⟨_, hrunning⟩ => hrun hrunning

/-- Once its checks pass, a WRPIX, FILL or DECODE has writes to issue, or faults (R163, R184). -/
theorem commandWrites_of_checks {i : Instr} {s : State} (hphase : s.acceptsCommands)
    (hchecks : ((i = .wrpix ∨ i = .fill) ∧ s.surfCause = .noCause) ∨ (i = .decode ∧ s.cfgCause = .noCause ∧ s.fbValid = true)) :
    ∃ ws, commandWrites i s = some ws := by
  rcases hchecks with ⟨rfl | rfl, hsurf⟩ | ⟨rfl, hcfg, hvalid⟩
  · exact ⟨_, if_pos (State.pixelCommandError_eq_none hphase hsurf)⟩
  · exact ⟨_, if_pos (State.pixelCommandError_eq_none hphase hsurf)⟩
  · exact ⟨_, commandWrites_decode hphase hcfg hvalid⟩

theorem surfaceCommand_writes_ok {ws : Except Fault (List SurfWrite)} {done : State → State} {s t : State}
    (h : surfaceCommand none ws done s = .next t) : ∃ l, ws = .ok l := by
  rcases surfaceCommand_next h with ⟨c, k, hnone, -⟩ | ⟨l, -, hok, -⟩
  · cases hnone
  · exact ⟨l, hok⟩

/-- When a command completes, none of its writes has faulted (R162, R165). -/
theorem commandWrites_ok_of_exec {i : Instr} {s t : State} {ws : Except Fault (List SurfWrite)} (hwrites : commandWrites i s = some ws)
    (h : exec i s = .next t) : ∃ l, ws = .ok l := by
  rcases commandWrites_eq_some hwrites with ⟨rfl, hnone, rfl⟩ | ⟨rfl, hnone, rfl⟩ | ⟨rfl, hnone, rfl⟩
  · rw [exec_wrpix, hnone] at h
    exact surfaceCommand_writes_ok h
  · rw [exec_fill, hnone] at h
    exact surfaceCommand_writes_ok h
  · rw [exec_decode, hnone] at h
    exact surfaceCommand_writes_ok h

theorem commandWrites_turns (i : Instr) (s : State) (rest : List Turn) :
    commandWrites i { s with turns := rest } = commandWrites i s := by
  cases i <;> rfl

/-- A fall during a command that would write the surface is SURFACE_LOST (R238, U3). -/
theorem hostTurnSurfLost_writing {s : State} {r : BusRequest} {q : List BusRequest} {ws : List SurfWrite} (hqueue : s.hostQ = r :: q)
    (hwrites : commandWrites (decodeBus r.req r.data) s = some (.ok ws)) : hostTurnSurfLost s = .fault .surfaceLost := by
  simp only [hostTurnSurfLost, hqueue, commandWrites_hostQ, hwrites]

/-- A fall during any other transaction comes after it (log entry 13). -/
theorem hostTurnSurfLost_not_writing {s t : State} {r : BusRequest} {q : List BusRequest} (hqueue : s.hostQ = r :: q)
    (hwrites : commandWrites (decodeBus r.req r.data) s = none) (h : hostTurn s = .next t) :
    hostTurnSurfLost s = lowerSurfReady t := by
  have hexec : exec (decodeBus r.req r.data) (s.takeRequest (decodeBus r.req r.data) q) = .next t := by
    rw [hostTurn, hqueue] at h
    exact h
  simp only [hostTurnSurfLost, hqueue, commandWrites_hostQ, hwrites, hexec]

/-! ### What leaves surf_ready alone -/

theorem surfaceCommand_surfReady {err : Option (CmdErrCode × CfgCause)} {ws : Except Fault (List SurfWrite)} {done : State → State}
    (hdone : ∀ u, (done u).surfReady = u.surfReady) {s t : State} (h : surfaceCommand err ws done s = .next t) :
    t.surfReady = s.surfReady := by
  rcases surfaceCommand_next h with ⟨c, k, -, rfl⟩ | ⟨l, -, -, rfl⟩
  · simp
  · simp [hdone]

theorem runCommand_surfReady {c : Command} {s t : State} (h : runCommand c s = .next t) : t.surfReady = s.surfReady := by
  cases c with
  | cvt => rcases execCvt_next h with ⟨-, rfl⟩ | ⟨-, rfl⟩ <;> simp
  | wrpix | fill => exact surfaceCommand_surfReady (fun _ => rfl) h
  | decode => exact surfaceCommand_surfReady (done := State.countDecode) (fun _ => rfl) h
  | start => rcases execStart_next h with ⟨-, rfl⟩ | ⟨-, -, rfl⟩ | ⟨-, -, rfl⟩ <;> simp

/-- surf_ready is an input: no register-port transaction drives it (R33). -/
theorem exec_bus_surfReady {req : BitVec 11} {data : Word} {s t : State} (h : exec (decodeBus req data) s = .next t) :
    t.surfReady = s.surfReady := by
  rcases decodeBus_cases req data with ⟨size, addr, e⟩ | ⟨size, addr, e, -⟩ | ⟨c, e⟩ <;> rw [e] at h
  · obtain ⟨r, rfl⟩ := execRegrd_next h
    rfl
  · rcases execRegwr_next h with rfl | ⟨r, -, rfl⟩ | hword
    · rfl
    · simp
    · rcases runCommandWord_next hword with ⟨_, -, rfl | rfl⟩ | ⟨c, -, hc⟩
      · simp
      · simp
      · exact runCommand_surfReady hc
  · rw [← runCommand_eq_exec] at h
    exact runCommand_surfReady h

theorem hostTurn_surfReady {s t : State} (h : hostTurn s = .next t) : t.surfReady = s.surfReady := by
  rcases hostTurn_next h with ⟨-, rfl⟩ | ⟨r, q, -, he⟩
  · rfl
  · exact (exec_bus_surfReady he).trans (s.takeRequest_surfReady _ q)

/-! ### The faults that are no SURFACE_LOST -/

/-- A pixel's fault: its sample is at an FB index that does not exist (R65), or it lies outside the surface (R162). -/
abbrev Fault.ofPixel (f : Fault) : Prop := f = .fbOutOfRange ∨ f = .surfaceOutOfBounds

theorem Fault.ofPixel.ne_surfaceLost {f : Fault} (h : f.ofPixel) : f ≠ .surfaceLost := by
  rcases h with rfl | rfl <;> decide

theorem fbRead_error {s : State} {k : Nat} {f : Fault} (h : fbRead s k = .error f) : f = .fbOutOfRange := by
  by_cases hk : k < s.params.fbCap
  · rw [fbRead_of_lt hk] at h
    cases h
  · cases (if_neg hk).symm.trans h
    rfl

theorem fbReadBytes_error {s : State} {a n : Nat} {f : Fault} (h : fbReadBytes s a n = .error f) : f = .fbOutOfRange := by
  induction n generalizing a with
  | zero => cases h
  | succ n ih =>
    unfold fbReadBytes at h
    split at h
    · cases h
      exact fbRead_error ‹_›
    · split at h
      · cases h
        exact ih ‹_›
      · cases h

theorem pixelWrite_error {s : State} {x y : Nat} {color : Word} {f : Fault} (h : pixelWrite s x y color = .error f) :
    f = .surfaceOutOfBounds := by
  unfold pixelWrite at h
  split at h <;> cases h
  rfl

theorem decodePixel_error {s : State} {i j : Nat} {f : Fault} (h : decodePixel s i j = .error f) : f.ofPixel := by
  unfold decodePixel at h
  split at h
  · cases h
    exact .inl (fbRead_error ‹_›)
  · split at h
    · cases h
      exact .inl (fbRead_error ‹_›)
    · split at h
      · cases h
        exact .inl (fbRead_error ‹_›)
      · exact .inr (pixelWrite_error h)

theorem wrpixWrites_error {s : State} {f : Fault} (h : wrpixWrites s = .error f) : f.ofPixel := by
  obtain ⟨p, -, hp⟩ := collectWrites_error h
  exact .inr (pixelWrite_error hp)

theorem fillWrites_error {s : State} {f : Fault} (h : fillWrites s = .error f) : f.ofPixel := by
  unfold fillWrites at h
  split at h
  · cases h
    exact .inr rfl
  · obtain ⟨p, -, hp⟩ := collectWrites_error h
    exact .inr (pixelWrite_error hp)

theorem walkWrites_error {s : State} {f : Fault} (h : walkWrites s = .error f) : f.ofPixel := by
  obtain ⟨p, -, hp⟩ := collectWrites_error h
  exact decodePixel_error hp

theorem commandWrites_error {i : Instr} {s : State} {f : Fault} (h : commandWrites i s = some (.error f)) : f.ofPixel := by
  rcases commandWrites_eq_some h with ⟨-, -, hws⟩ | ⟨-, -, hws⟩ | ⟨-, -, hws⟩
  · exact wrpixWrites_error hws.symm
  · exact fillWrites_error hws.symm
  · exact walkWrites_error hws.symm

/-- A command faults only at a pixel of it; CVT and START do not fault. -/
theorem runCommand_fault {c : Command} {s : State} {f : Fault} (h : runCommand c s = .fault f) : f.ofPixel := by
  cases c with
  | cvt => simp only [runCommand, execCvt] at h; split at h <;> cases h
  | wrpix => exact wrpixWrites_error (surfaceCommand_fault (done := fun t => t) h).2
  | fill => exact fillWrites_error (surfaceCommand_fault (done := fun t => t) h).2
  | decode => exact walkWrites_error (surfaceCommand_fault (done := State.countDecode) h).2
  | start =>
    simp only [runCommand, execStart] at h
    split at h
    · cases h
    · split at h <;> cases h

/-- A register write faults only as the command it runs. -/
theorem execRegwr_fault {size : BitVec 2} {addr : BitVec 8} {data : Word} {s : State} {f : Fault}
    (h : execRegwr size addr data s = .fault f) : f.ofPixel := by
  unfold execRegwr at h
  split at h
  · cases h
  · split at h
    · unfold runCommandWord at h
      split at h
      · cases h
      · cases h
      · exact runCommand_fault h
    · cases h

theorem execSinkAcc_fault {n : Word} {s : State} {f : Fault} (h : execSinkAcc n s = .fault f) : f = .sinkProtocol ∨ f = .fbOutOfRange := by
  unfold execSinkAcc at h
  split at h
  · split at h
    · cases h
    · split at h
      · cases h
        exact .inl rfl
      · split at h <;> cases h
        exact .inr (fbReadBytes_error ‹_›)
  · cases h

/-- No instruction by itself raises SURFACE_LOST. -/
theorem exec_ne_surfaceLost (i : Instr) (s : State) : exec i s ≠ .fault .surfaceLost := by
  intro h
  cases i with
  | regrd size addr => simp only [exec, execRegrd] at h; split at h <;> cases h
  | regwr size addr data => exact (execRegwr_fault h).ne_surfaceLost rfl
  | cvt => exact (runCommand_fault (c := .cvt) h).ne_surfaceLost rfl
  | wrpix => exact (runCommand_fault (c := .wrpix) h).ne_surfaceLost rfl
  | fill => exact (runCommand_fault (c := .fill) h).ne_surfaceLost rfl
  | decode => exact (runCommand_fault (c := .decode) h).ne_surfaceLost rfl
  | start => exact (runCommand_fault (c := .start) h).ne_surfaceLost rfl
  | inByte d =>
    simp only [exec, execInByte] at h
    split at h
    · split at h <;> cases h
    · cases h
  | inEos => simp only [exec, execInEos] at h; split at h <;> cases h
  | inErr => simp only [exec, execInErr] at h; split at h <;> cases h
  | sinkAcc n => rcases execSinkAcc_fault h with e | e <;> cases e
  | sinkFail => simp only [exec, execSinkFail] at h; split at h <;> cases h
  | sinkClosed => simp only [exec, execSinkClosed] at h; split at h <;> cases h

theorem runTransfer_ne_surfaceLost (tr : Transfer) (s : State) : runTransfer tr s ≠ .fault .surfaceLost := by
  intro h
  unfold runTransfer at h
  split at h
  · exact exec_ne_surfaceLost _ s h
  · split at h <;> cases h

/-- Only a turn in which surf_ready falls raises SURFACE_LOST. -/
theorem runTurn_surfaceLost {turn : Turn} {s : State} (h : runTurn turn s = .fault .surfaceLost) :
    turn = .surfReady false ∨ turn = .hostSurfLost := by
  cases turn with
  | hostSurfLost => exact .inr rfl
  | host =>
    simp only [runTurn, hostTurn] at h
    split at h
    · cases h
    · exact absurd h (runTransfer_ne_surfaceLost _ _)
  | producer =>
    simp only [runTurn, producerTurn] at h
    split at h
    · split at h
      · cases h
      · exact absurd h (runTransfer_ne_surfaceLost _ _)
    · cases h
  | sink =>
    simp only [runTurn, sinkTurn] at h
    split at h
    · split at h
      · cases h
      · exact absurd h (runTransfer_ne_surfaceLost _ _)
    · cases h
  | walk =>
    simp only [runTurn, decodeStep] at h
    split at h
    · split at h <;> cases h
      exact absurd rfl (decodePixel_error ‹_›).ne_surfaceLost
    · cases h
  | surfReady level =>
    cases level with
    | true => cases h
    | false => exact .inl rfl
  | readSurface n | readAfterPoll n | readAfterCommand n | reset => cases h
  | resetDuring n =>
    simp only [runTurn, resetDuringTurn] at h
    split at h
    · cases h
    · split at h <;> cases h
      exact absurd rfl (commandWrites_error ‹_›).ne_surfaceLost

/-- Settles O38: a fall between transactions, during a command that writes the surface, and during any other transaction; and no turn without a
fall raises SURFACE_LOST. -/
theorem surfaceLostWhenReadyFalls : Obligations.SurfaceLostWhenReadyFalls := by
  unfold Obligations.SurfaceLostWhenReadyFalls
  refine ⟨fun s rest hturns hready => ?_, fun s r q rest i t hturns hqueue hdecode hphase hchecks hexec => ?_,
    fun s t r q rest hturns hqueue hready hwrites hhost => ?_, fun s hlost => ?_⟩
  · rw [step_of_turn hturns]
    exact ⟨fun hrun => lowerSurfReady_running hready hrun, fun hrun => lowerSurfReady_not_running hrun⟩
  · subst hdecode
    obtain ⟨ws, hwrites⟩ := commandWrites_of_checks hphase hchecks
    obtain ⟨l, rfl⟩ := commandWrites_ok_of_exec hwrites hexec
    rw [step_of_turn hturns]
    exact hostTurnSurfLost_writing (s := { s with turns := rest }) hqueue ((commandWrites_turns _ s rest).trans hwrites)
  · have hturn : hostTurn { s with turns := rest } = .next t := hhost
    have hready' : t.surfReady = true := (hostTurn_surfReady hturn).trans hready
    have hstep : step s = lowerSurfReady t :=
      (step_of_turn hturns).trans (hostTurnSurfLost_not_writing hqueue ((commandWrites_turns _ s rest).trans hwrites) hturn)
    rw [hstep]
    exact ⟨lowerSurfReady_running hready', lowerSurfReady_not_running⟩
  · cases hturns : s.turns with
    | nil => cases (step_of_no_turn hturns).symm.trans hlost
    | cons turn rest =>
      rw [step_of_turn hturns] at hlost
      rcases runTurn_surfaceLost hlost with rfl | rfl
      · exact .inl rfl
      · exact .inr rfl

end Sys2Proof.Machine
end

section
/-! PROOF. The statements of 70_reset_and_hazards.md: what reset leaves (R260 to R264), the invariant after reset, and the hold on FB and on the producer's
transfers while a frame is teed or walked (R267). -/

namespace Sys2Proof.Machine

open Sys2Proof.Spec

/-! ### The reset values -/

/-- Every offset reads 0 after reset but FRAME_GEOM's, whose value is 640 x 480 (R261). -/
theorem readTable_reset (off : Nat) : readTable State.reset off = if off = 0x04 then 0x01E00280 else 0 := by
  by_cases hframe : off = 0x04
  · subst hframe
    rfl
  · rw [if_neg hframe]
    unfold readTable
    split
    case h_2 => exact absurd rfl hframe
    all_goals rfl

/-- The registers do not show what reset keeps (R261, R263). -/
theorem readTable_resetEvent (s : State) (off : Nat) : readTable s.resetEvent off = readTable State.reset off := rfl

/-- Settles O48, by `readTable_reset`; the outputs and FB are fields of the fixed state. -/
theorem resetValues : Obligations.ResetValues := by
  unfold Obligations.ResetValues
  exact ⟨fun off _ => readTable_reset off, rfl, rfl, rfl, Memory.read_nil⟩

/-- Settles O49: a reset turn is the reset event, which shows the registers of `State.reset` and keeps what stands outside the block. -/
theorem resetFromAnyState : Obligations.ResetFromAnyState := by
  unfold Obligations.ResetFromAnyState
  intro s rest hturns
  refine ⟨State.resetEvent { s with turns := rest }, step_of_turn hturns, fun off _ => ?_, rfl, rfl, rfl, Memory.read_nil,
    rfl, rfl, rfl, rfl, rfl, rfl, rfl, rfl, rfl, rfl, rfl, rfl⟩
  rw [readTable_resetEvent, readTable_reset]

/-! ### The invariant after reset -/

/-- Each open parameter lies in its range of R8. -/
theorem config_params_legal : Config.params.Legal := by
  have hcap : Config.params.fbCap < 4294506496 + 460800 := Nat.add_lt_add_right Config.fbCapAbove.isLt _
  have haw : Config.params.surfAw < 29 + 21 := Nat.add_lt_add_right Config.surfAwAbove.isLt _
  exact ⟨Nat.le_add_left _ _, Nat.le_of_lt_succ hcap, Nat.le_add_left _ _, Nat.le_of_lt_succ haw⟩

/-- Settles O53: the parameters are legal, the memories and the issued writes are empty, and STATE is IDLE with FB_VALID and TEE_ACTIVE 0. -/
theorem resetSatisfiesTheInvariant : Obligations.ResetSatisfiesTheInvariant where
  paramsLegal := config_params_legal
  memoryCanonical := ⟨State.reset_memory_wf.1, State.reset_memory_wf.2, nofun⟩
  memoryInRange := ⟨nofun, nofun⟩
  surfaceIssued := ⟨rfl, le_rfl, le_rfl, le_rfl⟩
  reservedZero := by decide
  runConfigValid := by rintro (h | h | h) <;> cases h
  frameConsistent := ⟨nofun, (by rintro (h | h) <;> cases h), nofun, fun _ => rfl⟩
  teeConsistent := ⟨nofun, nofun⟩
  walkInFrame := nofun
  statusConsistent := by decide

/-! ### Reset in the middle of a command -/

/-- The first `n` writes of a command that its checks let run stay, no other is issued, and its request is used up (R263; log entry 12). -/
theorem resetDuringTurn_writing {s : State} {n : Nat} {r : BusRequest} {q : List BusRequest} {ws : List SurfWrite} (hqueue : s.hostQ = r :: q)
    (hwrites : commandWrites (decodeBus r.req r.data) s = some (.ok ws)) :
    resetDuringTurn n s = .next (State.resetEvent (State.writeSurface { s with hostQ := q } (ws.take n))) := by
  simp only [resetDuringTurn, hqueue, commandWrites_hostQ, hwrites]

/-- A reader that has seen every issued write sees the surface (R71, R72). -/
theorem State.Inv.surf_mem_readerViews {s : State} (hs : s.Inv) : s.surf ∈ s.readerViews := by
  rw [hs.surf_eq_prefixView le_rfl]
  exact s.prefixView_mem_readerViews _

/-- Settles O50: the step is the reset event after the first `n` writes, and it keeps the invariant (O54), in which the surface is one of the
views. -/
theorem resetDuringCommandKeepsAPrefix : Obligations.ResetDuringCommandKeepsAPrefix := by
  unfold Obligations.ResetDuringCommandKeepsAPrefix
  intro s n r q ws rest hturns hqueue hwrites
  have hstep : step s = .next (State.resetEvent (State.writeSurface { s with turns := rest, hostQ := q } (ws.take n))) :=
    (step_of_turn hturns).trans
      (resetDuringTurn_writing (s := { s with turns := rest }) hqueue ((commandWrites_turns _ s rest).trans hwrites))
  exact ⟨_, hstep, rfl, rfl, rfl, rfl, rfl, fun hs => (everyStepKeepsTheInvariant s _ hs hstep).surf_mem_readerViews⟩

/-! ### The hold on FB while a frame is teed or walked -/

/-- From s to t FB is unchanged and no input transfer is taken (R66, R267). -/
abbrev State.HoldsFrame (s t : State) : Prop := t.fb = s.fb ∧ t.inQ = s.inQ

theorem lowerSurfReady_holdsFrame {s t : State} (h : lowerSurfReady s = .next t) : s.HoldsFrame t := by
  obtain ⟨rfl, -⟩ := lowerSurfReady_next h
  exact ⟨rfl, rfl⟩

/-- What the host can change during a run is neither FB nor the producer's (R240). -/
theorem exec_bus_holdsFrame {req : BitVec 11} {data : Word} {s t : State} (hrun : s.running) (h : exec (decodeBus req data) s = .next t) :
    s.HoldsFrame t := by
  obtain ⟨u, hu, _, _, _, _, _, _, _, _, _, rfl⟩ := exec_bus_running req data hrun
  cases hu.symm.trans h
  exact ⟨rfl, rfl⟩

/-- An answer of the sink moves the tee on; the tee only reads FB (R207, R208, R209). -/
theorem exec_sink_holdsFrame {w : BitVec 34} {i : Instr} {s t : State} (hteeing : s.phase = .teeing) (hi : decodeSink w = .ok i)
    (h : exec i s = .next t) : s.HoldsFrame t := by
  have hnone : s.HoldsFrame s.teeNoProgress := ⟨s.teeNoProgress_fb, s.teeNoProgress_inQ⟩
  rcases decodeSink_cases hi with ⟨n, rfl⟩ | rfl | rfl
  · rcases execSinkAcc_next h with ⟨-, rfl⟩ | ⟨-, -, rfl⟩ | ⟨bytes, -, -, -, -, rfl⟩
    · exact ⟨rfl, rfl⟩
    · exact hnone
    · exact ⟨s.teeProgress_fb n bytes, s.teeProgress_inQ n bytes⟩
  · rw [exec_noProgress hteeing (.inr rfl)] at h
    cases h
    exact hnone
  · cases (if_pos hteeing).symm.trans h
    exact ⟨s.abandonTee_fb, s.abandonTee_inQ⟩

/-- A decode step reads FB and writes the surface (R187). -/
theorem decodeStep_holdsFrame {s t : State} (h : decodeStep s = .next t) : s.HoldsFrame t := by
  rcases decodeStep_next h with ⟨-, rfl⟩ | ⟨w, -, -, rfl⟩
  · exact ⟨rfl, rfl⟩
  · exact ⟨(s.writeSurface [w]).advanceWalk_fb, (s.writeSurface [w]).advanceWalk_inQ⟩

/-- In TEEING and DECODING no agent's turn but a reset reaches FB or takes a transfer: the producer's waits (R202, R267). -/
theorem runTurn_holdsFrame {turn : Turn} {s t : State} (hphase : s.phase = .teeing ∨ s.phase = .decoding) (hturn : turn.isReset = false)
    (h : runTurn turn s = .next t) : s.HoldsFrame t := by
  have hrun : s.running := .inr hphase
  cases turn with
  | host =>
    rcases hostTurn_next h with ⟨-, rfl⟩ | ⟨r, q, -, he⟩
    · exact ⟨rfl, rfl⟩
    · exact exec_bus_holdsFrame (s := s.takeRequest _ q) hrun he
  | hostSurfLost =>
    rcases hostTurnSurfLost_next h with ⟨-, hl⟩ | ⟨r, q, u, -, -, he, hl⟩
    · exact lowerSurfReady_holdsFrame hl
    · have hexec : s.HoldsFrame u := exec_bus_holdsFrame (s := s.takeRequest _ q) hrun he
      obtain ⟨rfl, -⟩ := lowerSurfReady_next hl
      exact hexec
  | producer =>
    rcases producerTurn_next h with rfl | ⟨w, q, hfilling, -, -⟩
    · exact ⟨rfl, rfl⟩
    · simp [hfilling] at hphase
  | sink =>
    rcases sinkTurn_next h with rfl | ⟨w, q, i, hteeing, -, hi, he⟩
    · exact ⟨rfl, rfl⟩
    · exact exec_sink_holdsFrame (s := { s with sinkQ := q }) hteeing hi he
  | walk => exact decodeStep_holdsFrame h
  | surfReady level =>
    cases level with
    | true => cases h; exact ⟨rfl, rfl⟩
    | false => exact lowerSurfReady_holdsFrame h
  | readSurface n | readAfterPoll n | readAfterCommand n => cases h; exact ⟨rfl, rfl⟩
  | reset | resetDuring n => cases hturn

/-- Settles O59: with no turn left nothing changes, and no agent's turn but a reset ends the hold. -/
theorem frameBufferHeldDuringTeeAndWalk : Obligations.FrameBufferHeldDuringTeeAndWalk := by
  unfold Obligations.FrameBufferHeldDuringTeeAndWalk
  intro s t h hreset hphase
  rcases step_next h with ⟨-, rfl⟩ | ⟨turn, rest, hturns, hr⟩
  · exact ⟨rfl, rfl⟩
  · exact runTurn_holdsFrame (s := { s with turns := rest }) hphase (hreset turn (by simp [hturns])) hr

end Sys2Proof.Machine
end
